-- ==== Sys2Proof/Word.lean ====
section
/-! DEFINITION. The plain value types of MBRTU-485: bytes, 16-bit values, and the three encodings of the spec as raw bits
(`30_encoding.md` rule R90). -/
namespace Sys2Proof

/-- A frame byte (`00_scope.md` rule R10). -/
abbrev Byte := BitVec 8

/-- A 16-bit value: a CRC, a register value, a command word (`00_scope.md` rule R10). -/
abbrev Word := BitVec 16

/-- An instruction as raw bits, in one of the three formats of `30_encoding.md` rule R90. Byte 0 of a frame stands in
the most significant byte (rules R92, R94), as `opcode_table.json` numbers the bits. -/
inductive Raw where
  /-- Format C: the host's 16-bit command word. -/
  | command (w : BitVec 16)
  /-- Format Q: an 8-byte request frame, block to wire. -/
  | request (f : BitVec 64)
  /-- Format P: a 7-byte reply frame, wire to block. -/
  | reply (f : BitVec 56)
  deriving DecidableEq, Repr

end Sys2Proof
end

