-- ==== Sys2Proof/Config.lean ====
section
/-! DEFINITION. What an implementation fixes when it is built (`00_scope.md` rules R7, R8) and the free values that no
rule of the spec determines (`93_implementation_defined.md` U3, U10). -/
namespace Sys2Proof

/-- The test READ_RETRY applies to a reading (`00_scope.md` P23, `41_frame_codec.md` rule R151): the reference
`value > 0`, or any other total predicate on 16-bit values, given by the set of values that pass (log 15). -/
inductive SuccessPred where
  | valuePositive
  | accepts (raws : List Word)
  deriving DecidableEq, Repr

/-- The parameter record of `00_scope.md` rule R8. The proof fields refuse a record that breaks a constraint
(`93_implementation_defined.md` U7); a `T_*` fits the 16-bit `TMR` by its type. -/
structure Config where
  /-- P10 to P14 and P16, in ms. -/
  tPre : BitVec 16
  tPost : BitVec 16
  tProbe : BitVec 16
  tGap : BitVec 16
  tRead : BitVec 16
  tBackoff : BitVec 16
  /-- P15 `N_ATTEMPTS`. -/
  nAttempts : Nat
  /-- P17 `SCALE_DIV`. -/
  scaleDiv : Nat
  /-- P18 `BAUD` and P26 `CHAR_BITS`; used only for the nominal duration of rule R281. -/
  baud : Nat
  charBits : Nat
  /-- P19 `CAND`. -/
  cand : List Byte
  /-- P20 `ADDR_DEFAULT`. -/
  addrDefault : Byte
  /-- P21 `RAW_RESET`. -/
  rawReset : Word
  /-- P22 `PAYLOAD_SIGNED`. -/
  payloadSigned : Bool
  /-- P23 `SUCCESS_PRED`. -/
  successPred : SuccessPred
  /-- P24 `RSP_CRC_ENFORCE`. -/
  rspCrcEnforce : Bool
  /-- P25 `RXQ_CAP`. -/
  rxqCap : Nat
  /-- P28 `DE_LEVEL`, `RDIS_LEVEL`: the pin level that means "active". -/
  deLevel : Bool
  rdisLevel : Bool
  attempts_pos : 1 ≤ nAttempts
  attempts_le : nAttempts ≤ 255
  scale_pos : 1 ≤ scaleDiv
  cand_le : cand.length ≤ 256
  cap_ge : 8 ≤ rxqCap
  deriving DecidableEq, Repr

/-! The OPEN parameters of the block that `State.reset` is (`00_scope.md` rule R8, status OPEN). The spec gives them no
value and forbids assuming one (`91_not_in_source.md` N3, N4, N8, N10, N11, N12). DESIGN CHOICE (log 3). -/

opaque Config.openAddrDefault : Byte
opaque Config.openRawReset : Word
opaque Config.openCand : List Byte
opaque Config.openPayloadSigned : Bool
/-- How much `RXQ_CAP` exceeds the 8 it must at least be. -/
opaque Config.openQueueExtra : Nat
opaque Config.openDeLevel : Bool
opaque Config.openRdisLevel : Bool

/-- The block at reset: CAP's reference values (`00_scope.md` rule R8), the spec's default for `T_POST` (D9), and the
OPEN parameters as opaque constants. -/
def Config.block : Config where
  tPre := 10
  tPost := 10
  tProbe := 500
  tGap := 500
  tRead := 1000
  tBackoff := 1000
  nAttempts := 3
  scaleDiv := 100
  baud := 9600
  charBits := 10
  cand := Config.openCand.take 256
  addrDefault := Config.openAddrDefault
  rawReset := Config.openRawReset
  payloadSigned := Config.openPayloadSigned
  successPred := .valuePositive
  rspCrcEnforce := false
  rxqCap := 8 + Config.openQueueExtra
  deLevel := Config.openDeLevel
  rdisLevel := Config.openRdisLevel
  attempts_pos := by decide
  attempts_le := by decide
  scale_pos := by decide
  cand_le := by simp
  cap_ge := by omega

/-- FREE VALUE (`20_memory.md` rule R65, `93_implementation_defined.md` U3): what a character that straddles a change of
the direction lines becomes. `some b`: byte b is queued (the one sent or another); `none`: nothing is. Applied to the
counter `draws`. DESIGN CHOICE (log 5). -/
opaque Config.straddle : Nat → Option Byte

/-- FREE VALUE (`93_implementation_defined.md` U10): the serialiser's transmission time, less the one tick that makes it
positive, where the state names none. Applied to the counter `draws`. DESIGN CHOICE (log 6). -/
opaque Config.freeSerial : Nat → Nat

end Sys2Proof
end

