-- ==== Sys2Proof/Machine/Operands.lean ====
section
/-! DEFINITION. Operand assembly: bytes and halves (`00_scope.md` rule R10), the fixed constants of a request
(`00_scope.md` P1 to P8), the frames as byte vectors (`30_encoding.md` rules R91 to R96). -/
namespace Sys2Proof.Machine

/-- `lo8(v) = v[7:0]`. -/
def lo8 (v : Word) : Byte := v.extractLsb' 0 8

/-- `hi8(v) = v[15:8]`. -/
def hi8 (v : Word) : Byte := v.extractLsb' 8 8

/-- `u16(h, l) = (h << 8) | l`. -/
def u16 (h l : Byte) : Word := h ++ l

/-- `s16(v)`: the two's complement reading. -/
def s16 (v : Word) : Int := if v.toNat < 0x8000 then (v.toNat : Int) else (v.toNat : Int) - 0x10000

/-- P1 `FC`. -/
def functionCode : Byte := 0x03
/-- P2 `REG_ADDR`. -/
def regAddr : Word := 0x0000
/-- P3 `REG_COUNT`. -/
def regCount : Word := 0x0001
/-- P4 `CRC_POLY`. -/
def crcPoly : Word := 0xA001
/-- P5 `CRC_INIT`. -/
def crcStart : Word := 0xFFFF
/-- P8 `RSP_MIN`: how many bytes a READ waits for. -/
def rspMin : Nat := 7

/-- A buffer of eight bytes: `TXBUF`, `RXBUF`, a request frame (log 14). -/
abbrev Frame8 := Vector Byte 8

/-- The seven bytes of a reply (`30_encoding.md` rule R93). -/
abbrev Frame7 := Vector Byte 7

/-- The first six bytes of every request to `a`: address, function code, register address and count, high byte first
(`30_encoding.md` rule R91, `20_memory.md` rule R62). -/
def requestHead (a : Byte) : List Byte :=
  [a, functionCode, hi8 regAddr, lo8 regAddr, hi8 regCount, lo8 regCount]

/-- The request frame with given CRC bytes (`30_encoding.md` rule R91). -/
def requestBytes (a l h : Byte) : Frame8 :=
  #v[a, functionCode, hi8 regAddr, lo8 regAddr, hi8 regCount, lo8 regCount, l, h]

/-- The reply frame with given fields (`30_encoding.md` rule R93). -/
def replyBytes (a n d e l h : Byte) : Frame7 := #v[a, functionCode, n, d, e, l, h]

/-- The bytes of a 64-bit frame, byte 0 in bits 63:56 (`30_encoding.md` rule R92). -/
def bytesOfQ (f : BitVec 64) : Frame8 :=
  #v[f.extractLsb' 56 8, f.extractLsb' 48 8, f.extractLsb' 40 8, f.extractLsb' 32 8,
     f.extractLsb' 24 8, f.extractLsb' 16 8, f.extractLsb' 8 8, f.extractLsb' 0 8]

/-- The bytes of a 56-bit frame, byte 0 in bits 55:48 (`30_encoding.md` rule R94). -/
def bytesOfP (f : BitVec 56) : Frame7 :=
  #v[f.extractLsb' 48 8, f.extractLsb' 40 8, f.extractLsb' 32 8, f.extractLsb' 24 8,
     f.extractLsb' 16 8, f.extractLsb' 8 8, f.extractLsb' 0 8]

/-- Eight bytes as one number, byte 0 most significant (`10_state.md` rule R48, `ev_data`). -/
def packQ (v : Frame8) : BitVec 64 := v[0] ++ v[1] ++ v[2] ++ v[3] ++ v[4] ++ v[5] ++ v[6] ++ v[7]

/-- Seven bytes as one number, byte 0 most significant. -/
def packP (v : Frame7) : BitVec 56 := v[0] ++ v[1] ++ v[2] ++ v[3] ++ v[4] ++ v[5] ++ v[6]

end Sys2Proof.Machine
end

