-- ==== Sys2Proof/Machine/CrcEngine.lean ====
section
/-! DEFINITION. The CRC-16-ANSI engine as functions (`40_crc.md` rules R121 to R123, R126) and the request frame it closes
(`41_frame_codec.md` rule R141). -/
namespace Sys2Proof.Machine

/-- `crc_bit(c)` (`40_crc.md` rule R121): one shift right, with the polynomial if the bit shifted out was 1. -/
def crcBit (c : Word) : Word := if c.getLsbD 0 then (c >>> 1) ^^^ crcPoly else c >>> 1

/-- `n` bit steps. -/
def crcBits : Nat → Word → Word
  | 0, c => c
  | n + 1, c => crcBits n (crcBit c)

/-- `crc_step(c, b)` (`40_crc.md` rule R122): the byte into the low half, then eight bit steps. -/
def crcStep (c : Word) (b : Byte) : Word := crcBits 8 (c ^^^ b.zeroExtend 16)

/-- `crc16(s)` (`40_crc.md` rule R123). -/
def crc16 (s : List Byte) : Word := s.foldl crcStep crcStart

/-- The table `T[x]` of `40_crc.md` rule R126 (b). -/
def crcTable (x : Byte) : Word := crcStep 0x0000 x

/-- The table form of one step (`40_crc.md` rule R126 b). -/
def crcStepByTable (c : Word) (b : Byte) : Word := (c >>> 8) ^^^ crcTable (lo8 c ^^^ b)

/-- The CRC that closes the request to `a`. -/
def requestCrc (a : Byte) : Word := crc16 (requestHead a)

/-- `request(a)` (`41_frame_codec.md` rule R141): the six fixed-shape bytes, then the CRC low byte first. -/
def request (a : Byte) : Frame8 := requestBytes a (lo8 (requestCrc a)) (hi8 (requestCrc a))

end Sys2Proof.Machine
end

