-- ==== Sys2Proof/Syntax.lean ====
section
/-! DEFINITION. The instructions: one constructor for each of the 18 rows of `spec/opcode_table.json`. -/
namespace Sys2Proof

/-- One constructor per row of the opcode table: the twelve host commands (`30_encoding.md` rule R100), the four reserved
operations (rule R107), and the two wire frames (rules R91, R93). Fields the encoding fixes at zero are no operands. -/
inductive Instr where
  | nop
  | crcInit
  | crcByte (b : Byte)
  | encode (a : Byte)
  | verify
  /-- `i` is the whole `IDX` field; above 7 it is illegal (rule R108). -/
  | ldtx (i : BitVec 4) (b : Byte)
  | send
  | flushrx
  | probe (a : Byte)
  | discover
  | read
  | readRetry
  | reservedC (idx : BitVec 4) (arg : Byte)
  | reservedD (idx : BitVec 4) (arg : Byte)
  | reservedE (idx : BitVec 4) (arg : Byte)
  | reservedF (idx : BitVec 4) (arg : Byte)
  /-- Address, CRC low byte, CRC high byte (rule R92). -/
  | requestFrame (a l h : Byte)
  /-- Address, byte count, data high, data low, CRC low, CRC high (rule R94). -/
  | replyFrame (a n d e l h : Byte)
  deriving DecidableEq, Repr

end Sys2Proof
end

