-- ==== Sys2Proof/WellFormed.lean ====
section
/-! DEFINITION. Which instruction terms stand for an instruction the spec lists. -/
namespace Sys2Proof

/-- An LDTX index is 0 to 7 (`30_encoding.md` rule R108); a request frame's CRC bytes are the ones its address fixes
(`30_encoding.md` rule R92: "the CRC bytes are a function of it"). Every other operand is free. -/
def Instr.wellFormed : Instr → Bool
  | .ldtx i _ => decide (i.toNat < 8)
  | .requestFrame a l h => l == Machine.lo8 (Machine.requestCrc a) && h == Machine.hi8 (Machine.requestCrc a)
  | .nop | .crcInit | .crcByte _ | .encode _ | .verify | .send | .flushrx | .probe _ | .discover | .read | .readRetry
  | .reservedC _ _ | .reservedD _ _ | .reservedE _ _ | .reservedF _ _ | .replyFrame _ _ _ _ _ _ => true

end Sys2Proof
end

