-- ==== Sys2Proof/Decode.lean ====
section
/-! DEFINITION. The decoder, total on all bits of the three formats and rejecting by name, and the encoder
(`30_encoding.md` rules R91 to R94, R100 to R102, R107, R108). -/
namespace Sys2Proof

/-- Why bits are no row of the opcode table. The block still gives them an effect (`Machine/Step.lean`). -/
inductive Reject where
  /-- A legal `OP` with a reserved field that is not zero (`30_encoding.md` rule R108). -/
  | reservedField
  /-- LDTX with `IDX` above 7 (`30_encoding.md` rule R108). -/
  | indexAboveSeven
  /-- Eight bytes that are not of the fixed request shape (`30_encoding.md` rule R92). -/
  | notRequestShape
  /-- Seven bytes whose function byte is not 0x03 (`30_encoding.md` rule R94). -/
  | notReplyShape
  deriving DecidableEq, Repr

/-- A command with no operand: `IDX` and `ARG` must be 0 (`30_encoding.md` rule R101). -/
def decodeBare (idx : BitVec 4) (arg : Byte) (i : Instr) : Except Reject Instr :=
  if idx = 0 ∧ arg = 0 then .ok i else .error .reservedField

/-- A command with the operand `ARG`: `IDX` must be 0. -/
def decodeArg (idx : BitVec 4) (i : Instr) : Except Reject Instr :=
  if idx = 0 then .ok i else .error .reservedField

/-- Format C (`30_encoding.md` rules R100 to R102): `OP` in bits 15:12, `IDX` in 11:8, `ARG` in 7:0. -/
def decodeCommand (w : BitVec 16) : Except Reject Instr :=
  let idx := w.extractLsb' 8 4
  let arg := w.extractLsb' 0 8
  match (w.extractLsb' 12 4).toNat with
  | 0x0 => decodeBare idx arg .nop
  | 0x1 => decodeBare idx arg .crcInit
  | 0x2 => decodeArg idx (.crcByte arg)
  | 0x3 => decodeArg idx (.encode arg)
  | 0x4 => decodeBare idx arg .verify
  | 0x5 => if idx.toNat < 8 then .ok (.ldtx idx arg) else .error .indexAboveSeven
  | 0x6 => decodeBare idx arg .send
  | 0x7 => decodeBare idx arg .flushrx
  | 0x8 => decodeArg idx (.probe arg)
  | 0x9 => decodeBare idx arg .discover
  | 0xA => decodeBare idx arg .read
  | 0xB => decodeBare idx arg .readRetry
  | 0xC => .ok (.reservedC idx arg)
  | 0xD => .ok (.reservedD idx arg)
  | 0xE => .ok (.reservedE idx arg)
  | _ => .ok (.reservedF idx arg)

/-- Format Q (`30_encoding.md` rule R92): match 0x0003000000010000 under mask 0x00FFFFFFFFFF0000. -/
def decodeRequest (f : BitVec 64) : Except Reject Instr :=
  if f.extractLsb' 16 40 = 0x0300000001#40 then
    .ok (.requestFrame (f.extractLsb' 56 8) (f.extractLsb' 8 8) (f.extractLsb' 0 8))
  else .error .notRequestShape

/-- Format P (`30_encoding.md` rule R94): the function byte is 0x03, every other byte free. -/
def decodeReplyFrame (f : BitVec 56) : Except Reject Instr :=
  if f.extractLsb' 40 8 = 0x03#8 then
    .ok (.replyFrame (f.extractLsb' 48 8) (f.extractLsb' 32 8) (f.extractLsb' 24 8) (f.extractLsb' 16 8)
      (f.extractLsb' 8 8) (f.extractLsb' 0 8))
  else .error .notReplyShape

/-- The decoder. -/
def decode : Raw → Except Reject Instr
  | .command w => decodeCommand w
  | .request f => decodeRequest f
  | .reply f => decodeReplyFrame f

/-- A command word from its fields (`30_encoding.md` rule R101). -/
def commandWord (op idx : BitVec 4) (arg : Byte) : BitVec 16 := op ++ idx ++ arg

/-- The encoder, from the same tables (`30_encoding.md` rules R91 to R94, R102). -/
def encode : Instr → Raw
  | .nop => .command (commandWord 0x0 0 0)
  | .crcInit => .command (commandWord 0x1 0 0)
  | .crcByte b => .command (commandWord 0x2 0 b)
  | .encode a => .command (commandWord 0x3 0 a)
  | .verify => .command (commandWord 0x4 0 0)
  | .ldtx i b => .command (commandWord 0x5 i b)
  | .send => .command (commandWord 0x6 0 0)
  | .flushrx => .command (commandWord 0x7 0 0)
  | .probe a => .command (commandWord 0x8 0 a)
  | .discover => .command (commandWord 0x9 0 0)
  | .read => .command (commandWord 0xA 0 0)
  | .readRetry => .command (commandWord 0xB 0 0)
  | .reservedC idx arg => .command (commandWord 0xC idx arg)
  | .reservedD idx arg => .command (commandWord 0xD idx arg)
  | .reservedE idx arg => .command (commandWord 0xE idx arg)
  | .reservedF idx arg => .command (commandWord 0xF idx arg)
  | .requestFrame a l h => .request (a ++ 0x0300000001#40 ++ l ++ h)
  | .replyFrame a n d e l h => .reply (a ++ 0x03#8 ++ n ++ d ++ e ++ l ++ h)

/-- The raw form of `nbits` bits of value `w`, for the three lengths of `30_encoding.md` rule R90. -/
def rawOf (nbits w : Nat) : Option Raw :=
  if nbits = 16 then some (.command (BitVec.ofNat 16 w))
  else if nbits = 64 then some (.request (BitVec.ofNat 64 w))
  else if nbits = 56 then some (.reply (BitVec.ofNat 56 w))
  else none

/-- The instruction read from `nbits` bits of value `w`, numbered as `spec/opcode_table.json` numbers them. -/
def decodeTableWord (nbits w : Nat) : Option Instr :=
  match rawOf nbits w with
  | none => none
  | some r =>
    match decode r with
    | .ok i => some i
    | .error _ => none

end Sys2Proof
end

