-- ==== Sys2Proof/Machine/Flags.lean ====
section
/-! DEFINITION. What the flags and the outcome of a reply are computed from: request validation, reply decoding, the
sensor value and its success test (`41_frame_codec.md` rules R143, R146, R147, R150, R151). -/
namespace Sys2Proof.Machine

/-- `frame_ok(f)` (`41_frame_codec.md` rule R143). -/
def frameOk (f : Frame8) : Bool :=
  crc16 [f[0], f[1], f[2], f[3], f[4], f[5]] == u16 f[7] f[6]

/-- `crc16(r[0..4])`: the CRC of a reply's first five bytes. -/
def replyCrc (r : Frame7) : Word := crc16 [r[0], r[1], r[2], r[3], r[4]]

/-- `rsp_crc_ok(r)` (`41_frame_codec.md` rule R147). -/
def rspCrcMatches (r : Frame7) : Bool := replyCrc r == u16 r[6] r[5]

/-- The three results of the reply decoder (`41_frame_codec.md` rule R146). -/
inductive Decoded where
  | mismatch
  | badCrc
  | ok (v : Word)
  deriving DecidableEq, Repr

/-- `decode(r, a)` (`41_frame_codec.md` rule R146): address and function as one test, then the CRC if it is enforced. -/
def decodeReply (cfg : Config) (r : Frame7) (a : Byte) : Decoded :=
  if r[0] ≠ a ∨ r[1] ≠ functionCode then .mismatch
  else if cfg.rspCrcEnforce && !rspCrcMatches r then .badCrc
  else .ok (u16 r[3] r[4])

/-- The integer `n` of `41_frame_codec.md` rule R150: `s16(raw)` if `PAYLOAD_SIGNED`, else `raw`. -/
def intValue (cfg : Config) (raw : Word) : Int := if cfg.payloadSigned then s16 raw else (raw.toNat : Int)

/-- `value(raw)` (`41_frame_codec.md` rule R150): the exact quotient by `SCALE_DIV`. -/
def sensorValue (cfg : Config) (raw : Word) : Rat := (intValue cfg raw : Rat) / (cfg.scaleDiv : Rat)

/-- `SUCCESS_PRED(raw)` (`41_frame_codec.md` rule R151); the reference `value > 0` decided on the integer (D15). -/
def passes (cfg : Config) (raw : Word) : Bool :=
  match cfg.successPred with
  | .valuePositive => decide (0 < intValue cfg raw)
  | .accepts raws => raws.contains raw

/-- How long the 8 characters of a request take at `BAUD`, in ms, rounded up (`70_reset_and_hazards.md` rule R281). No
rule depends on it. -/
def nominalTransmitTime (cfg : Config) : Nat := (8 * cfg.charBits * 1000 + cfg.baud - 1) / cfg.baud

end Sys2Proof.Machine
end

