-- ==== Sys2Proof/Machine/State.lean ====
section
/-! DEFINITION. The state of MBRTU-485 as plain data (`10_state.md` rules R20 to R49), the model's own fields for what is
outside the block (log 1 to log 9), the reasons a step may stop, and the state after reset. -/
namespace Sys2Proof.Machine

/-- The sequencer phase `PH` (`10_state.md` rule R30). -/
inductive Phase where
  | idle
  | txPre
  | txData
  | txDrain
  | txPost
  | rxWait
  | gap
  | backoff
  deriving DecidableEq, Repr

/-- The kinds of outcome (`60_exceptions.md` rule R231). -/
inductive Kind where
  | none
  | invalidInput
  | discoveryFailed
  | timeout
  | decodeMismatch
  | illegalCommand
  | crcMismatch
  deriving DecidableEq, Repr

/-- The report events (`10_state.md` rule R48). -/
inductive Event where
  | sent (f : Frame8)
  | received (r : Frame7)
  | discovered (a : Byte)
  | reading (v : Word)
  | error (code : BitVec 3)
  deriving DecidableEq, Repr

/-- A character the bus will deliver: when its start bit falls, when it is delivered (its stop bit has ended), and its
byte (`20_memory.md` rules R64, R65). Times are on `clock`. -/
structure Arrival where
  start : Nat
  time : Nat
  byte : Byte
  deriving DecidableEq, Repr

/-- One tick of the serialiser while bytes are being handed to it: how many it takes before the tick ends, and how many
characters end in it (`42_direction_and_transmit.md` rule R166, `10_state.md` rule R43). -/
structure SerialTick where
  taken : Nat
  ended : Nat
  deriving DecidableEq, Repr

/-- The serialiser's behaviour in one transmission (`93_implementation_defined.md` U6, U10): tick by tick, how many bytes
it takes (none: it is not ready for the next one, the first included) until the eighth is taken, in any later tick as many
as are left; then the ticks in which some character is still on the wire; and whether it then becomes idle (one tick
later) or never does. -/
structure SerialPlan where
  hand : List SerialTick
  drain : List Nat
  idles : Bool
  deriving DecidableEq, Repr

/-- One assertion of `rst`: high from `start` until `stop`, or for less than a tick where `stop` is no later
(`70_reset_and_hazards.md` rule R260; log 7). -/
structure ResetPulse where
  start : Nat
  stop : Nat
  deriving DecidableEq, Repr

/-- Something offered to the block from `time` on: a command word held until it is taken, or a wire frame (log 2, 8). -/
structure Offer where
  time : Nat
  raw : Raw
  deriving DecidableEq, Repr

/-- Whether a command that takes time is run as one step or phase by phase (`00_scope.md` rule R14). -/
inductive Level where
  | command
  | phase
  deriving DecidableEq, Repr

/-- Why a step faults. -/
inductive Fault where
  /-- Raised by the phase-level step in a state whose `BUSY`, `PH`, `OP`, `CI` or `ATT` do not belong together
  (`10_state.md` rule R30: no rule leads there; log 10). Safe: the machine stops where the spec says nothing. -/
  | sequencerOutOfPlace
  deriving DecidableEq, Repr

/-- Why an instruction is refused. -/
inductive Refusal where
  /-- Raised by an arm of `exec` that has no meaning yet; no arm raises it now. Safe. -/
  | notModelled (mnemonic : String)
  deriving DecidableEq, Repr

/-- The state: first the elements of `10_state.md` rule R20 in its order, then the model's own fields. -/
structure State where
  /-- `TXBUF[0..7]` (R21). -/
  txbuf : Frame8
  /-- `RXBUF[0..7]` (R22). -/
  rxbuf : Frame8
  /-- `CRC` (R23). -/
  crc : Word
  /-- `DE` (R24). -/
  de : Bool
  /-- `RDIS` (R24). -/
  rdis : Bool
  /-- `ADDR` (R25). -/
  addr : Byte
  /-- `CONF` (R26). -/
  conf : Bool
  /-- `RAW` (R27). -/
  raw : Word
  /-- `PH` (R30). -/
  ph : Phase
  /-- `OP` (R31). -/
  op : BitVec 4
  /-- `IDX` (R31). -/
  idx : BitVec 4
  /-- `ARG` (R31). -/
  arg : Byte
  /-- `CI` (R32). -/
  ci : BitVec 8
  /-- `ATT` (R33). -/
  att : BitVec 8
  /-- `TXI` (R34). -/
  txi : BitVec 4
  /-- `ERR` (R35). -/
  err : BitVec 3
  /-- `BUSY` (R36). -/
  busy : Bool
  /-- `FRAME_OK` (R37). -/
  frameOk : Bool
  /-- `RSP_CRC_OK` (R38). -/
  rspCrcOk : Bool
  /-- `NODATA` (R39). -/
  nodata : Bool
  /-- `RXQ`, oldest byte first (R40). -/
  rxq : List Byte
  /-- `TMR` (R42). -/
  tmr : BitVec 16
  /-- `TXPEND` (R43). -/
  txpend : Nat
  /-- `TRACE`, oldest event first (R48). -/
  trace : List Event
  /-- The `done` output of the last step (R45, R236). MODEL's own. -/
  done : Bool
  /-- How many events of `trace` had been presented on the event port before the last step (R48). MODEL's own. -/
  shown : Nat
  /-- The bytes handed to the serialiser on `tx_data`, oldest first (R45, R166). MODEL's own. -/
  txd : List Byte
  /-- The parameter record (R8). MODEL's own: no step changes it (R9). -/
  cfg : Config
  /-- ms since power-on. MODEL's own. -/
  clock : Nat
  /-- `clock` at the last reset; `now` (R46) is the difference. MODEL's own. -/
  epoch : Nat
  /-- `clock` at the last change of the direction lines (R65). MODEL's own. -/
  dirAt : Option Nat
  /-- How many bytes at the tail of `rxq` were queued in the present tick (R65). MODEL's own. -/
  fresh : Nat
  /-- How many characters were lost in the present tick because the receiver was disabled (R65). MODEL's own. -/
  missed : Nat
  /-- The ticks in which `DirTx()` comes after a character delivered in the tick was already taken, counted or cleared
  (R65): what is delivered in one of them has no defined fate. Any list may stand here (log 18). MODEL's own. -/
  turns : List Nat
  /-- How many free values have been drawn. MODEL's own. -/
  draws : Nat
  /-- What the bus will deliver, in order (R64). MODEL's own. -/
  arrivals : List Arrival
  /-- The serialiser's behaviour in the present and the coming transmissions. MODEL's own. -/
  plans : List SerialPlan
  /-- What the host offers, in order (R101). MODEL's own. -/
  offers : List Offer
  /-- When `rst` is asserted, on `clock` (R260; log 7). MODEL's own. -/
  resets : List ResetPulse
  /-- The level of the model (R14). MODEL's own. -/
  level : Level
  deriving DecidableEq, Repr

/-- The state of a block with parameters `cfg` right after reset (`10_state.md` rule R49, `70_reset_and_hazards.md` rule
R260), with nothing offered. DESIGN CHOICE (log 1, unsafe for claims on this state alone): the bus is silent, where
`70_reset_and_hazards.md` rule R262 leaves open what it delivers after reset. -/
def State.resetWith (cfg : Config) : State where
  txbuf := #v[0, 0, 0, 0, 0, 0, 0, 0]
  rxbuf := #v[0, 0, 0, 0, 0, 0, 0, 0]
  crc := 0xFFFF
  de := false
  rdis := false
  addr := cfg.addrDefault
  conf := false
  raw := cfg.rawReset
  ph := .idle
  op := 0
  idx := 0
  arg := 0
  ci := 0
  att := 0
  txi := 0
  err := 0
  busy := false
  frameOk := false
  rspCrcOk := false
  nodata := false
  rxq := []
  tmr := 0
  txpend := 0
  trace := []
  done := false
  shown := 0
  txd := []
  cfg := cfg
  clock := 0
  epoch := 0
  dirAt := none
  fresh := 0
  missed := 0
  turns := []
  draws := 0
  arrivals := []
  plans := []
  offers := []
  resets := []
  level := .command

/-- The machine right after reset: the block of `Config.block`. -/
def State.reset : State := State.resetWith Config.block

end Sys2Proof.Machine
end

