-- ==== Sys2Proof/Machine/Ops.lean ====
section
/-! DEFINITION. The shared operations of the block: codes, events, accepting and finishing a command, the error outcome,
the receive queue, time, the direction lines, the serialiser, the transmit sequence and the wait (`20_memory.md`,
`42_direction_and_transmit.md`, `60_exceptions.md`). -/
namespace Sys2Proof.Machine

/-! ## Codes -/

/-- The code of a phase (`10_state.md` rule R30). -/
def Phase.code : Phase → BitVec 4
  | .idle => 0
  | .txPre => 1
  | .txData => 2
  | .txDrain => 3
  | .txPost => 4
  | .rxWait => 5
  | .gap => 6
  | .backoff => 7

/-- The phases in which the lines are asserted (`10_state.md` rule R30, R50 b). -/
def Phase.transmitting : Phase → Bool
  | .txPre | .txData | .txDrain | .txPost => true
  | .idle | .rxWait | .gap | .backoff => false

/-- The value of `ERR` for each kind (`60_exceptions.md` rule R231). -/
def Kind.code : Kind → BitVec 3
  | .none => 0
  | .invalidInput => 1
  | .discoveryFailed => 2
  | .timeout => 3
  | .decodeMismatch => 4
  | .illegalCommand => 5
  | .crcMismatch => 6

/-- `now`, the ticks since reset (`10_state.md` rule R46). -/
def now (s : State) : Nat := s.clock - s.epoch

/-! ## Events, acceptance, completion, errors -/

/-- `Emit(e)` (`10_state.md` rule R48). -/
def emit (e : Event) (s : State) : State := { s with trace := s.trace ++ [e] }

/-- `Emit(Error(K))`, the first half of `raise K` (`60_exceptions.md` rule R237). -/
def emitError (k : Kind) (s : State) : State := emit (.error k.code) s

/-- A command word is accepted: its fields are latched and `BUSY` is set (`30_encoding.md` rule R101). -/
def accept (op idx : BitVec 4) (arg : Byte) (s : State) : State :=
  { s with op := op, idx := idx, arg := arg, busy := true, done := false }

/-- `Finish(code)` (`60_exceptions.md` rule R236). -/
def finish (code : BitVec 3) (s : State) : State := { s with err := code, busy := false, done := true }

/-- `PH <- IDLE; Finish(code)`: how every command that takes time ends (`43_transactions.md` rules R192 to R199). -/
def finishIdle (code : BitVec 3) (s : State) : State := finish code { s with ph := .idle }

/-- Taking the IllegalCommand outcome (`30_encoding.md` rules R107, R108): fields latched, `Error(5)`, `ERR <- 5`. -/
def illegal (op idx : BitVec 4) (arg : Byte) (s : State) : State :=
  finish Kind.illegalCommand.code (emitError .illegalCommand (accept op idx arg s))

/-- A command the host offers takes effect only while `BUSY = 0`; otherwise it is not taken and has no effect
(`10_state.md` rule R36, `93_implementation_defined.md` U9). -/
def whenReady (s taken : State) : Host.Outcome State Fault Refusal := if s.busy then .next s else .next taken

/-- A command that takes no time: accepted and finished in the same step (`10_state.md` rule R36). -/
def instant (op idx : BitVec 4) (arg : Byte) (body : State → State) (s : State) : Host.Outcome State Fault Refusal :=
  whenReady s (finish 0 (body (accept op idx arg s)))

/-- The outcome of a procedure that takes time: it ended with a value, or the serialiser never became idle
(`42_direction_and_transmit.md` rule R167). -/
inductive Ran (α : Type) where
  | ended (a : α) (s : State)
  | hung (s : State)

/-- What follows a procedure that ended; nothing follows a hang. -/
def Ran.andThen {α β : Type} (r : Ran α) (k : α → State → Ran β) : Ran β :=
  match r with
  | .ended a s => k a s
  | .hung s => .hung s

/-- The end of a command that takes time; a hang has no end. -/
def conclude : Ran (BitVec 3) → State
  | .ended code s => finishIdle code s
  | .hung s => s

/-- A command that takes time, run from its acceptance to `done` (`00_scope.md` rule R14 a). -/
def timed (op idx : BitVec 4) (arg : Byte) (body : State → Ran (BitVec 3)) (s : State) :
    Host.Outcome State Fault Refusal :=
  whenReady s (conclude (body (accept op idx arg s)))

/-! ## The receive queue -/

/-- A byte enters the queue, or is dropped when the queue is full (`20_memory.md` rule R64 a, b). -/
def queueByte (b : Byte) (s : State) : State :=
  if s.rxq.length < s.cfg.rxqCap then { s with rxq := s.rxq ++ [b], fresh := s.fresh + 1 } else s

/-- Whether a character straddles a change of the lines at `c`: it started before and was delivered at or after it, or
was delivered in its tick (`20_memory.md` rule R65). -/
def straddlesAt (c : Option Nat) (a : Arrival) : Bool :=
  match c with
  | none => false
  | some c => (decide (a.start < c) && decide (c ≤ a.time)) || a.time == c

/-- Whether a character straddles a change of the lines: the last one, or, with the receiver enabled, a `DirTx()` that is
still to come in the tick of its delivery (`State.turns`, log 18). -/
def straddles (s : State) (a : Arrival) : Bool := straddlesAt s.dirAt a || (!s.rdis && s.turns.contains a.time)

/-- A straddling character: the free value is drawn, and the byte it gives, if any, is queued (`20_memory.md` rule R65). -/
def drawByte (s : State) : State :=
  match Config.straddle s.draws with
  | some b => queueByte b { s with draws := s.draws + 1 }
  | none => { s with draws := s.draws + 1 }

/-- Delivery of a character (`20_memory.md` rules R64, R65): a free value if it straddles a change of the lines, lost
while `RDIS = 1`, queued otherwise. The loss is counted, as a change of the lines in this very tick makes it a draw. -/
def deliver (a : Arrival) (s : State) : State :=
  if straddles s a then drawByte s
  else if s.rdis then { s with missed := s.missed + 1 }
  else queueByte a.byte s

/-- `RxClear()` (`42_direction_and_transmit.md` rule R171). -/
def rxClear (s : State) : State := { s with rxq := [], fresh := 0 }

/-- `RXBUF[i] <- RxTake()` (`20_memory.md` rule R66): the oldest byte leaves the queue. Called only with a byte queued. A
byte delivered in the tick of a later `DirTx()` was drawn when it was delivered (rule R65, `State.turns`). -/
def takeInto (i : Nat) (s : State) : State :=
  match s.rxq with
  | [] => s
  | b :: q => { s with rxq := q, rxbuf := s.rxbuf.setIfInBounds i b, fresh := min s.fresh q.length }

/-- `for i in 0..6: RXBUF[i] <- RxTake()` (`43_transactions.md` rule R195). -/
def takeReply (s : State) : State := [0, 1, 2, 3, 4, 5, 6].foldl (fun s i => takeInto i s) s

/-- `RXBUF[0..6]`. -/
def replyOf (s : State) : Frame7 :=
  #v[s.rxbuf[0], s.rxbuf[1], s.rxbuf[2], s.rxbuf[3], s.rxbuf[4], s.rxbuf[5], s.rxbuf[6]]

/-! ## Time -/

/-- The characters due before time `t` are delivered, in order. A character due at `t` itself stays pending, so that a
change of the lines in that tick finds it undecided (`20_memory.md` rule R65; DESIGN CHOICE log 12). -/
def deliverBefore (t : Nat) : List Arrival → State → State
  | [], s => { s with arrivals := [] }
  | a :: as, s => if a.time < t then deliverBefore t as (deliver a s) else { s with arrivals := a :: as }

/-- `n` ms pass, with the deliveries that fall in them (`42_direction_and_transmit.md` rule R165). -/
def elapse (n : Nat) (s : State) : State :=
  if n = 0 then s else { deliverBefore (s.clock + n) s.arrivals s with
    clock := s.clock + n, fresh := 0, missed := 0 }

/-- `Delay(T)` (`42_direction_and_transmit.md` rule R165): `TMR` runs from T to 0. -/
def delay (T : BitVec 16) (s : State) : State := { elapse T.toNat { s with tmr := T } with tmr := 0 }

/-- The clock reaches `t`, unless it has. -/
def reach (t : Nat) (s : State) : State := if s.clock < t then { s with clock := t, fresh := 0, missed := 0 } else s

/-- The wait up to `deadline` for `n` queued bytes: whether they came, and the state at the earliest instant at which
they were there, or at the deadline (`42_direction_and_transmit.md` rule R172). A byte delivered at the deadline
counts. -/
def waitUntil (n deadline : Nat) : List Arrival → State → Bool × State
  | [], s => if n ≤ s.rxq.length then (true, s) else (false, reach deadline s)
  | a :: as, s =>
    if n ≤ s.rxq.length then (true, s)
    else if a.time ≤ deadline then waitUntil n deadline as (deliver a (reach a.time { s with arrivals := as }))
    else (false, reach deadline s)

/-- `WaitRx(n, T)` (`42_direction_and_transmit.md` rule R172): `true` is `Got`, `false` is `Expired`; `TMR` is left with
what remains of T, and keeps it until it is loaded again (DESIGN CHOICE log 19, unsafe). -/
def waitRx (n : Nat) (T : BitVec 16) (s : State) : Bool × State :=
  let w := waitUntil n (s.clock + T.toNat) s.arrivals s
  (w.1, { w.2 with tmr := T - BitVec.ofNat 16 (w.2.clock - s.clock) })

/-! ## The direction lines -/

/-- The fates of `n` bytes, drawn from the free value at counter `d` on. -/
def redrawn : Nat → Nat → List Byte
  | 0, _ => []
  | n + 1, d => (Config.straddle d).toList ++ redrawn n (d + 1)

/-- Bytes queued in the tick of a `DirTx()` have no defined fate: each is drawn (`20_memory.md` rule R65). These are
the bytes still in `RXQ`; those that a command acted on earlier in the tick were drawn when delivered (`State.turns`). -/
def redraw (s : State) : State :=
  let k := min s.fresh s.rxq.length
  { s with rxq := s.rxq.take (s.rxq.length - k) ++ redrawn k s.draws, draws := s.draws + k, fresh := 0 }

/-- `DirTx()` (`42_direction_and_transmit.md` rule R162). -/
def dirTx (s : State) : State := { redraw s with de := true, rdis := true, dirAt := some s.clock }

/-- The fates of `n` characters lost in the tick of a `DirRx()`, drawn (`20_memory.md` rule R65). -/
def drawMissed : Nat → State → State
  | 0, s => s
  | n + 1, s => drawMissed n (drawByte s)

/-- `DirRx()` (`42_direction_and_transmit.md` rule R163). Characters lost in this very tick have no defined fate: each is
drawn (`20_memory.md` rule R65). -/
def dirRx (s : State) : State :=
  { drawMissed s.missed s with de := false, rdis := false, dirAt := some s.clock, missed := 0 }

/-! ## The serialiser -/

/-- A plan for a transmission the state names none for: it takes every byte at once and becomes idle after a free
positive time (`93_implementation_defined.md` U10). DESIGN CHOICE (log 6, unsafe for `TXPEND` inside such a drain): one
character ends in each tick until one is left, where `42_direction_and_transmit.md` rule R167 leaves open when each ends. -/
def freePlan (draw : Nat) : SerialPlan := ⟨[], List.replicate (Config.freeSerial draw) 1, true⟩

/-- The plan of the present transmission. -/
def plan (s : State) : SerialPlan := s.plans.headD ⟨[], [], true⟩

/-- What remains of the present plan. -/
def setPlan (p : SerialPlan) (s : State) : State := { s with plans := p :: s.plans.tail }

/-- The present transmission has a plan: the state's, or a free one. -/
def openPlan (s : State) : State :=
  match s.plans with
  | [] => { s with plans := [freePlan s.draws], draws := s.draws + 1 }
  | _ :: _ => s

/-- `UartWrite(TXBUF[TXI])`, and `TXI` moves on (`42_direction_and_transmit.md` rules R164, R166). -/
def uartWrite (s : State) : State :=
  if h : s.txi.toNat < 8 then
    { s with txd := s.txd ++ [s.txbuf[s.txi.toNat]], txi := s.txi + 1, txpend := s.txpend + 1 }
  else s

/-- One tick in which the serialiser is not ready: `ended` characters end, all of the pending ones if so many are not
pending (`10_state.md` rule R43). -/
def serialTick (ended : Nat) (s : State) : State :=
  let s := elapse 1 s
  { s with txpend := s.txpend - ended }

/-- `TXPEND` after `ended` characters end in a tick of the drain that is not its last: by what such a tick is
(`SerialPlan`), at least one of the pending ones is still on the wire. -/
def pendAfter (pend ended : Nat) : Nat := if pend ≤ ended then min pend 1 else pend - ended

/-- One tick of the drain that is not its last (`10_state.md` rule R43). -/
def drainTick (ended : Nat) (s : State) : State :=
  let s := elapse 1 s
  { s with txpend := pendAfter s.txpend ended }

/-- Waiting for `tx_ready` (`42_direction_and_transmit.md` rule R166): the ticks in which the serialiser takes no byte
pass. -/
def awaitReady : List SerialTick → State → State
  | [], s => s
  | t :: ts, s =>
    match t.taken with
    | 0 => awaitReady ts (serialTick t.ended (setPlan { plan s with hand := ts } s))
    | k + 1 => setPlan { plan s with hand := { t with taken := k } :: ts } s

/-- `n` bytes are handed over, each when the serialiser is ready (`42_direction_and_transmit.md` rule R166). -/
def writeBytes : Nat → State → State
  | 0, s => s
  | n + 1, s => writeBytes n (uartWrite (awaitReady (plan s).hand s))

/-- The ticks of `UartFlush()` but the last (`42_direction_and_transmit.md` rule R167). -/
def drainTicks : List Nat → State → State
  | [], s => s
  | e :: es, s => drainTicks es (drainTick e (setPlan { plan s with drain := es } s))

/-- The last tick of `UartFlush()`: the stop bit of the last character ends. -/
def lastTick (s : State) : State := { elapse 1 s with txpend := 0 }

/-! ## The transmit sequence (`42_direction_and_transmit.md` rules R164, R168) -/

/-- `PH <- TX_PRE; DirTx()`, and `TMR` loaded for the settle delay. -/
def startTx (s : State) : State := { dirTx { s with ph := .txPre } with tmr := s.cfg.tPre }

/-- `PH <- TX_DATA`, `TXI <- 0`. -/
def enterData (s : State) : State := { openPlan s with ph := .txData, txi := 0 }

/-- `PH <- TX_DRAIN`: all bytes are handed over. -/
def enterDrain (s : State) : State := setPlan { plan s with hand := [] } { s with ph := .txDrain }

/-- `PH <- TX_POST`, and `TMR` loaded for the trailing settle delay. -/
def enterPost (s : State) : State := { s with ph := .txPost, tmr := s.cfg.tPost }

/-- `DirRx(); Emit(Sent(TXBUF[0..7]))`; the present plan is used up. -/
def release (s : State) : State := emit (.sent s.txbuf) { dirRx s with plans := s.plans.tail }

/-- The sequence up to the eighth byte handed over, in `TX_DRAIN`. -/
def handOver (s : State) : State :=
  enterDrain (writeBytes 8 (enterData (delay s.cfg.tPre (startTx s))))

/-- `Transmit()` (`42_direction_and_transmit.md` rule R168); a serialiser that never becomes idle leaves the block in
`TX_DRAIN` (rule R167). -/
def transmit (s : State) : Ran Unit :=
  let s := handOver s
  let s := drainTicks (plan s).drain s
  if (plan s).idles then
    let s := enterPost (lastTick s)
    .ended () (release (delay s.cfg.tPost s))
  else .hung s

/-! ## Frames -/

/-- `TXBUF[0..7] <- f; CRC <- u16(f[7], f[6])` (`41_frame_codec.md` rule R142, `43_transactions.md` rule R191). -/
def loadFrame (f : Frame8) (s : State) : State := { s with txbuf := f, crc := u16 f[7] f[6] }

end Sys2Proof.Machine
end

