-- ==== Sys2Proof/Machine/CodecCommands.lean ====
section
/-! DEFINITION. The meanings of ENCODE, VERIFY and LDTX (`41_frame_codec.md` sections 1 and 2). -/
namespace Sys2Proof.Machine

/-- ENCODE (`41_frame_codec.md` rule R142). -/
def execEncode (a : Byte) (s : State) : Host.Outcome State Fault Refusal := instant 0x3 0 a (loadFrame (request a)) s

/-- The body of VERIFY (`41_frame_codec.md` rule R144). -/
def verifyFrame (s : State) : State :=
  let c := crc16 [s.txbuf[0], s.txbuf[1], s.txbuf[2], s.txbuf[3], s.txbuf[4], s.txbuf[5]]
  { s with crc := c, frameOk := lo8 c == s.txbuf[6] && hi8 c == s.txbuf[7] }

/-- VERIFY (`41_frame_codec.md` rule R144). -/
def execVerify (s : State) : Host.Outcome State Fault Refusal := instant 0x4 0 0 verifyFrame s

/-- LDTX (`41_frame_codec.md` rule R145): an index above 7 is illegal and never wrapped (`30_encoding.md` rule R108). -/
def execLdtx (i : BitVec 4) (b : Byte) (s : State) : Host.Outcome State Fault Refusal :=
  if h : i.toNat < 8 then instant 0x5 i b (fun s => { s with txbuf := s.txbuf.set i.toNat b }) s
  else whenReady s (illegal 0x5 i b s)

end Sys2Proof.Machine
end

