-- ==== Sys2Proof/Machine/CrcCommands.lean ====
section
/-! DEFINITION. The meanings of NOP, CRC_INIT and CRC_BYTE (`40_crc.md` section 3). -/
namespace Sys2Proof.Machine

/-- NOP (`40_crc.md` rule R127). -/
def execNop (s : State) : Host.Outcome State Fault Refusal := instant 0x0 0 0 (fun s => s) s

/-- CRC_INIT (`40_crc.md` rule R124). -/
def execCrcInit (s : State) : Host.Outcome State Fault Refusal :=
  instant 0x1 0 0 (fun s => { s with crc := crcStart }) s

/-- CRC_BYTE (`40_crc.md` rule R125). -/
def execCrcByte (b : Byte) (s : State) : Host.Outcome State Fault Refusal :=
  instant 0x2 0 b (fun s => { s with crc := crcStep s.crc b }) s

end Sys2Proof.Machine
end

