-- ==== Sys2Proof/Machine/DirectionCommands.lean ====
section
/-! DEFINITION. The meanings of SEND and FLUSHRX (`42_direction_and_transmit.md` section 4). -/
namespace Sys2Proof.Machine

/-- `Transmit()` as the whole of a command: the outcome code is 0 (`42_direction_and_transmit.md` rule R169). -/
def sendFrame (s : State) : Ran (BitVec 3) := (transmit s).andThen fun _ s => .ended 0 s

/-- SEND (`42_direction_and_transmit.md` rule R169). -/
def execSend (s : State) : Host.Outcome State Fault Refusal := timed 0x6 0 0 sendFrame s

/-- FLUSHRX (`42_direction_and_transmit.md` rule R173). -/
def execFlushrx (s : State) : Host.Outcome State Fault Refusal := instant 0x7 0 0 rxClear s

end Sys2Proof.Machine
end

