-- ==== Sys2Proof/Machine/Reserved.lean ====
section
/-! DEFINITION. The meanings of the four reserved operations (`30_encoding.md` rule R107). -/
namespace Sys2Proof.Machine

/-- `OP` 0xC (`30_encoding.md` rule R107). -/
def execReservedC (idx : BitVec 4) (arg : Byte) (s : State) : Host.Outcome State Fault Refusal :=
  whenReady s (illegal 0xC idx arg s)

/-- `OP` 0xD (`30_encoding.md` rule R107). -/
def execReservedD (idx : BitVec 4) (arg : Byte) (s : State) : Host.Outcome State Fault Refusal :=
  whenReady s (illegal 0xD idx arg s)

/-- `OP` 0xE (`30_encoding.md` rule R107). -/
def execReservedE (idx : BitVec 4) (arg : Byte) (s : State) : Host.Outcome State Fault Refusal :=
  whenReady s (illegal 0xE idx arg s)

/-- `OP` 0xF (`30_encoding.md` rule R107). -/
def execReservedF (idx : BitVec 4) (arg : Byte) (s : State) : Host.Outcome State Fault Refusal :=
  whenReady s (illegal 0xF idx arg s)

end Sys2Proof.Machine
end

