-- ==== Sys2Proof/Machine/Transactions.lean ====
section
/-! DEFINITION. The meanings of PROBE, DISCOVER, READ and READ_RETRY, from the inner procedures `DoProbe` and `DoRead`
(`43_transactions.md`). -/
namespace Sys2Proof.Machine

/-! ## DoProbe (`43_transactions.md` rule R191) -/

/-- Stale input cleared and the probe request built. -/
def buildProbe (c : Byte) (s : State) : State := loadFrame (request c) (rxClear s)

/-- `Got`: the candidate is adopted. -/
def probeGot (c : Byte) (s : State) : State := emit (.discovered c) { s with addr := c, conf := true }

/-- `Expired`. -/
def probeExpired (s : State) : State := emitError .timeout s

/-- `DoProbe(c)` with its outcome code. -/
def doProbe (c : Byte) (s : State) : Ran (BitVec 3) :=
  (transmit (buildProbe c s)).andThen fun _ s =>
    let w := waitRx 1 s.cfg.tProbe { s with ph := .rxWait }
    if w.1 then .ended Kind.none.code (probeGot c w.2) else .ended Kind.timeout.code (probeExpired w.2)

/-! ## DoRead (`43_transactions.md` rule R195) -/

/-- The request to the current address is built; the queue is not cleared (`43_transactions.md` rule R194). -/
def buildRead (s : State) : State := loadFrame (request s.addr) s

/-- The seven bytes taken, reported, and their CRC computed and compared. -/
def receiveReply (s : State) : State :=
  let s := takeReply s
  let r := replyOf s
  let s := emit (.received r) s
  { s with crc := replyCrc r, rspCrcOk := rspCrcMatches r }

/-- `Got`: the reply is taken and decoded against the address `a` the request went to. -/
def readGot (a : Byte) (s : State) : BitVec 3 × State :=
  let s := receiveReply s
  match decodeReply s.cfg (replyOf s) a with
  | .mismatch => (Kind.decodeMismatch.code, emitError .decodeMismatch s)
  | .badCrc => (Kind.crcMismatch.code, emitError .crcMismatch s)
  | .ok v => (Kind.none.code, emit (.reading v) { s with raw := v })

/-- `Expired`: the partial bytes are discarded. -/
def readExpired (s : State) : State := emitError .timeout (rxClear s)

/-- `DoRead()` with its outcome code. -/
def doRead (s : State) : Ran (BitVec 3) :=
  (transmit (buildRead s)).andThen fun _ s =>
    let w := waitRx rspMin s.cfg.tRead { s with ph := .rxWait }
    if w.1 then let r := readGot w.2.addr w.2; .ended r.1 r.2
    else .ended Kind.timeout.code (readExpired w.2)

/-! ## The commands -/

/-- PROBE (`43_transactions.md` rule R192). -/
def execProbe (a : Byte) (s : State) : Host.Outcome State Fault Refusal := timed 0x8 0 a (doProbe a) s

/-- `PH <- GAP; Delay(T_GAP)`. -/
def gapDelay (s : State) : State := delay s.cfg.tGap { s with ph := .gap }

/-- The loop of DISCOVER over the candidates from index `i` on (`43_transactions.md` rule R193).
With no candidate `CI` is left alone (DEDUCED, log 11). -/
def discoverFrom : Nat → List Byte → State → Ran (BitVec 3)
  | _, [], s => .ended Kind.discoveryFailed.code (emitError .discoveryFailed s)
  | i, c :: cs, s =>
    (doProbe c { s with ci := BitVec.ofNat 8 i }).andThen fun r s =>
      if r = Kind.none.code then .ended r s
      else discoverFrom (i + 1) cs (if cs.isEmpty then s else gapDelay s)

/-- DISCOVER (`43_transactions.md` rule R193). -/
def execDiscover (s : State) : Host.Outcome State Fault Refusal :=
  timed 0x9 0 0 (fun s => discoverFrom 0 s.cfg.cand s) s

/-- READ (`43_transactions.md` rule R198). -/
def execRead (s : State) : Host.Outcome State Fault Refusal := timed 0xA 0 0 doRead s

/-- `PH <- BACKOFF; Delay(T_BACKOFF)`. -/
def backoffDelay (s : State) : State := delay s.cfg.tBackoff { s with ph := .backoff }

/-- Whether an attempt with outcome `r` ends the retry: it decoded a reading that passes `SUCCESS_PRED`. -/
def satisfied (r : BitVec 3) (s : State) : Bool := r == Kind.none.code && passes s.cfg s.raw

/-- The loop of READ_RETRY: attempt number `att`, with `more` attempts allowed after it (`43_transactions.md` rule
R199). -/
def retryFrom : Nat → Nat → State → Ran (BitVec 3)
  | 0, att, s =>
    (doRead { s with att := BitVec.ofNat 8 att }).andThen fun r s => .ended r { s with nodata := !satisfied r s }
  | more + 1, att, s =>
    (doRead { s with att := BitVec.ofNat 8 att }).andThen fun r s =>
      if satisfied r s then .ended r { s with nodata := false } else retryFrom more (att + 1) (backoffDelay s)

/-- READ_RETRY (`43_transactions.md` rule R199). -/
def execReadRetry (s : State) : Host.Outcome State Fault Refusal :=
  timed 0xB 0 0 (fun s => retryFrom (s.cfg.nAttempts - 1) 1 s) s

end Sys2Proof.Machine
end

