-- ==== Sys2Proof/Machine/Phases.lean ====
section
/-! DEFINITION. The phase level (`00_scope.md` rule R14 b): the sequencer as a state machine over `PH`, one small step per
tick, per byte handed to the serialiser, or per byte received (`10_state.md` rule R30, `42_direction_and_transmit.md` rules
R164, R174). It reads the latched command (`10_state.md` rule R31). -/
namespace Sys2Proof.Machine

/-- The phase-level step stops in a state no rule leads to (`10_state.md` rule R30). -/
def outOfPlace : Host.Outcome State Fault Refusal := .fault .sequencerOutOfPlace

/-- One tick with `TMR` counting (`10_state.md` rule R42). -/
def timerTick (s : State) : State := let s := elapse 1 s; { s with tmr := s.tmr - 1 }

/-- The candidate DISCOVER is at (`10_state.md` rule R32). -/
def candidate (s : State) : Option Byte := s.cfg.cand[s.ci.toNat]?

/-- A probe of `c` starts. -/
def beginProbe (c : Byte) (s : State) : State := startTx (buildProbe c s)

/-- A read attempt starts. -/
def beginRead (s : State) : State := startTx (buildRead s)

/-- `TX_DATA`: the next byte is handed over if the serialiser takes it, else a tick passes
(`42_direction_and_transmit.md` rule R164). -/
def dataStep (s : State) : State :=
  if 8 ≤ s.txi.toNat then enterDrain s
  else
    match (plan s).hand with
    | [] => uartWrite s
    | t :: ts =>
      match t.taken with
      | 0 => serialTick t.ended (setPlan { plan s with hand := ts } s)
      | k + 1 => uartWrite (setPlan { plan s with hand := { t with taken := k } :: ts } s)

/-- `TX_DRAIN`: left when `tx_idle` (`TXPEND = 0`); a serialiser that never becomes idle keeps the block here
(`42_direction_and_transmit.md` rules R164, R167). -/
def drainStep (s : State) : State :=
  if s.txpend = 0 then enterPost s
  else
    match (plan s).drain with
    | e :: es => drainTick e (setPlan { plan s with drain := es } s)
    | [] => if (plan s).idles then lastTick s else elapse 1 s

/-- The lines have been released: SEND ends, the transactions wait (`42_direction_and_transmit.md` rule R168). -/
def afterRelease (s : State) : Host.Outcome State Fault Refusal :=
  match s.op.toNat with
  | 0x6 => .next (finishIdle 0 s)
  | 0x8 | 0x9 => .next { s with ph := .rxWait, tmr := s.cfg.tProbe }
  | 0xA | 0xB => .next { s with ph := .rxWait, tmr := s.cfg.tRead }
  | _ => outOfPlace

/-- How many bytes the latched command waits for in `RX_WAIT` (`43_transactions.md` rules R191, R195). -/
def awaited (s : State) : Option Nat :=
  match s.op.toNat with
  | 0x8 | 0x9 => some 1
  | 0xA | 0xB => some rspMin
  | _ => none

/-- READ_RETRY after an attempt with outcome `r` (`43_transactions.md` rule R199). -/
def afterAttempt (r : BitVec 3) (s : State) : State :=
  if satisfied r s then finishIdle r { s with nodata := false }
  else if s.att.toNat < s.cfg.nAttempts then { s with ph := .backoff, tmr := s.cfg.tBackoff }
  else finishIdle r { s with nodata := true }

/-- DISCOVER after a probe that expired (`43_transactions.md` rule R193). -/
def afterProbe (s : State) : State :=
  if s.ci.toNat + 1 < s.cfg.cand.length then { s with ph := .gap, tmr := s.cfg.tGap }
  else finishIdle Kind.discoveryFailed.code (emitError .discoveryFailed s)

/-- `RX_WAIT` ends with `Got`. -/
def rxGot (s : State) : Host.Outcome State Fault Refusal :=
  match s.op.toNat with
  | 0x8 => .next (finishIdle Kind.none.code (probeGot s.arg s))
  | 0x9 =>
    match candidate s with
    | some c => .next (finishIdle Kind.none.code (probeGot c s))
    | none => outOfPlace
  | 0xA => let r := readGot s.addr s; .next (finishIdle r.1 r.2)
  | 0xB => let r := readGot s.addr s; .next (afterAttempt r.1 r.2)
  | _ => outOfPlace

/-- `RX_WAIT` ends with `Expired`. -/
def rxExpired (s : State) : Host.Outcome State Fault Refusal :=
  match s.op.toNat with
  | 0x8 => .next (finishIdle Kind.timeout.code (probeExpired s))
  | 0x9 => .next (afterProbe (probeExpired s))
  | 0xA => .next (finishIdle Kind.timeout.code (readExpired s))
  | 0xB => .next (afterAttempt Kind.timeout.code (readExpired s))
  | _ => outOfPlace

/-- `RX_WAIT`: the count is looked at first, then a character due now is delivered, then the deadline, then a tick
passes (`42_direction_and_transmit.md` rule R172). -/
def rxStep (s : State) : Host.Outcome State Fault Refusal :=
  match awaited s with
  | none => outOfPlace
  | some n =>
    if n ≤ s.rxq.length then rxGot s
    else
      match s.arrivals with
      | a :: as =>
        if a.time ≤ s.clock then .next (deliver a { s with arrivals := as })
        else if s.tmr = 0 then rxExpired s
        else .next (timerTick s)
      | [] => if s.tmr = 0 then rxExpired s else .next (timerTick s)

/-- `GAP`: followed by the next probe (`42_direction_and_transmit.md` rule R174). -/
def gapStep (s : State) : Host.Outcome State Fault Refusal :=
  if s.tmr = 0 then
    if s.op = 0x9 then
      match s.cfg.cand[s.ci.toNat + 1]? with
      | some c => .next (beginProbe c { s with ci := s.ci + 1 })
      | none => outOfPlace
    else outOfPlace
  else .next (timerTick s)

/-- `BACKOFF`: followed by the next read attempt (`42_direction_and_transmit.md` rule R174). -/
def backoffStep (s : State) : Host.Outcome State Fault Refusal :=
  if s.tmr = 0 then
    if s.op = 0xB ∧ s.att.toNat < s.cfg.nAttempts then .next (beginRead { s with att := s.att + 1 })
    else outOfPlace
  else .next (timerTick s)

/-- One small step of a command in progress. -/
def phaseStep (s : State) : Host.Outcome State Fault Refusal :=
  match s.ph with
  | .idle => outOfPlace
  | .txPre => .next (if s.tmr = 0 then enterData s else timerTick s)
  | .txData => .next (dataStep s)
  | .txDrain => .next (drainStep s)
  | .txPost => if s.tmr = 0 then afterRelease (release s) else .next (timerTick s)
  | .rxWait => rxStep s
  | .gap => gapStep s
  | .backoff => backoffStep s

/-- The first phase of a command that takes time, from its acceptance; `none` for a command that takes none
(`10_state.md` rule R30), DISCOVER with no candidate among them. -/
def beginPhases (i : Instr) (s : State) : Option State :=
  match i with
  | .send => some (startTx (accept 0x6 0 0 s))
  | .probe a => some (beginProbe a (accept 0x8 0 a s))
  | .discover =>
    match s.cfg.cand with
    | [] => none
    | c :: _ => some (beginProbe c { accept 0x9 0 0 s with ci := 0 })
  | .read => some (beginRead (accept 0xA 0 0 s))
  | .readRetry => some (beginRead { accept 0xB 0 0 s with att := 1 })
  | .requestFrame a l h => some (startTx (accept 0x6 0 0 (loadFrame (requestBytes a l h) s)))
  | .nop | .crcInit | .crcByte _ | .encode _ | .verify | .ldtx _ _ | .flushrx | .reservedC _ _ | .reservedD _ _
  | .reservedE _ _ | .reservedF _ _ | .replyFrame _ _ _ _ _ _ => none

end Sys2Proof.Machine
end

