-- ==== Sys2Proof/Machine/WireFrames.lean ====
section
/-! DEFINITION. The meanings of the two wire frames of the opcode table (`30_encoding.md` rules R91, R93; log 8). -/
namespace Sys2Proof.Machine

/-- A request frame is built and sent: ENCODE's assignments, then SEND (`41_frame_codec.md` rule R142,
`42_direction_and_transmit.md` rule R169). -/
def sendLoaded (f : Frame8) (s : State) : Host.Outcome State Fault Refusal :=
  whenReady s (conclude (sendFrame (accept 0x6 0 0 (loadFrame f s))))

/-- REQUEST_FRAME (`41_frame_codec.md` rules R140, R141). -/
def execRequestFrame (a l h : Byte) (s : State) : Host.Outcome State Fault Refusal := sendLoaded (requestBytes a l h) s

/-- A byte arrives whole in the present tick, and `RX_WAIT` looks at the count (`20_memory.md` rule R64,
`42_direction_and_transmit.md` rule R172). -/
def receiveByte (b : Byte) (s : State) : State :=
  let s := deliver ⟨s.clock, s.clock, b⟩ s
  if s.busy && s.ph == .rxWait then
    match awaited s with
    | none => s
    | some n =>
      if n ≤ s.rxq.length then
        match rxGot s with
        | .next t => t
        | .fault _ | .refused _ => s
      else s
  else s

/-- The bytes of a frame arrive in order. -/
def receiveFrame (f : Frame7) (s : State) : Host.Outcome State Fault Refusal :=
  .next (f.toList.foldl (fun s b => receiveByte b s) s)

/-- REPLY_FRAME (`30_encoding.md` rule R93, `41_frame_codec.md` rule R146): its seven bytes arrive. -/
def execReplyFrame (a n d e l h : Byte) (s : State) : Host.Outcome State Fault Refusal :=
  receiveFrame (replyBytes a n d e l h) s

end Sys2Proof.Machine
end

