-- ==== Sys2Proof/Machine/Dispatch.lean ====
section
/-! DEFINITION. What each instruction does: one arm per constructor of `Instr`. -/
namespace Sys2Proof.Machine

def exec (i : Instr) (s : State) : Host.Outcome State Fault Refusal :=
  match i with
  | .nop => Sys2Proof.Machine.execNop s
  | .crcInit => Sys2Proof.Machine.execCrcInit s
  | .crcByte b => Sys2Proof.Machine.execCrcByte b s
  | .encode a => Sys2Proof.Machine.execEncode a s
  | .verify => Sys2Proof.Machine.execVerify s
  | .ldtx k b => Sys2Proof.Machine.execLdtx k b s
  | .send => Sys2Proof.Machine.execSend s
  | .flushrx => Sys2Proof.Machine.execFlushrx s
  | .probe a => Sys2Proof.Machine.execProbe a s
  | .discover => Sys2Proof.Machine.execDiscover s
  | .read => Sys2Proof.Machine.execRead s
  | .readRetry => Sys2Proof.Machine.execReadRetry s
  | .reservedC idx arg => Sys2Proof.Machine.execReservedC idx arg s
  | .reservedD idx arg => Sys2Proof.Machine.execReservedD idx arg s
  | .reservedE idx arg => Sys2Proof.Machine.execReservedE idx arg s
  | .reservedF idx arg => Sys2Proof.Machine.execReservedF idx arg s
  | .requestFrame a l h => Sys2Proof.Machine.execRequestFrame a l h s
  | .replyFrame a n d e l h => Sys2Proof.Machine.execReplyFrame a n d e l h s

end Sys2Proof.Machine
end

