-- ==== Sys2Proof/Machine/Ports.lean ====
section
/-! DEFINITION. The outputs of the block as functions of the state (`10_state.md` rules R45, R47, R48), and the inputs it
takes: a due reset and a due offer. -/
namespace Sys2Proof.Machine

/-! ## Outputs -/

/-- `cmd_ready` (`10_state.md` rule R45). -/
def cmdReady (s : State) : Bool := !s.busy

/-- `tx_idle`, which the serialiser shows (`10_state.md` rule R43). -/
def txIdle (s : State) : Bool := s.txpend == 0

/-- `tx_ready`, which the serialiser shows by the present plan (`10_state.md` rule R45). -/
def txReady (s : State) : Bool :=
  match (plan s).hand with
  | [] => true
  | t :: _ => decide (0 < t.taken)

/-- `tx_valid`: a byte is held out to the serialiser (`42_direction_and_transmit.md` rule R166). -/
def txValid (s : State) : Bool := s.ph == .txData && decide (s.txi.toNat < 8)

/-- `tx_data` while `tx_valid` (`42_direction_and_transmit.md` rule R166). -/
def txData (s : State) : Option Byte := if txValid s then s.txbuf[s.txi.toNat]? else none

/-- The `status` output (`10_state.md` rule R47). -/
def status (s : State) : BitVec 16 :=
  0#2 ++ s.ph.code ++ BitVec.ofBool s.rdis ++ BitVec.ofBool s.de ++ BitVec.ofBool s.nodata ++ BitVec.ofBool s.rspCrcOk
    ++ BitVec.ofBool s.frameOk ++ BitVec.ofBool s.conf ++ BitVec.ofBool s.busy ++ s.err

/-- The level of the pin `de` (`10_state.md` rule R45, P28). -/
def pinDe (s : State) : Bool := if s.de then s.cfg.deLevel else !s.cfg.deLevel

/-- The level of the pin `rdis` (`10_state.md` rule R45, P28). -/
def pinRdis (s : State) : Bool := if s.rdis then s.cfg.rdisLevel else !s.cfg.rdisLevel

/-- `ev_kind` of an event (`10_state.md` rule R48). -/
def Event.portKind : Event → BitVec 3
  | .sent _ => 1
  | .received _ => 2
  | .discovered _ => 3
  | .reading _ => 4
  | .error _ => 5

/-- `ev_data` of an event (`10_state.md` rule R48). DESIGN CHOICE (log 17, unsafe): the rule gives bits 7:0 of
`Discovered`, 15:0 of `Reading` and 2:0 of `Error` and leaves the bits above them open; they are 0 here. -/
def Event.portData : Event → BitVec 64
  | .sent f => packQ f
  | .received r => packP r ++ 0#8
  | .discovered a => a.zeroExtend 64
  | .reading v => v.zeroExtend 64
  | .error code => code.zeroExtend 64

/-- The events presented on the event port in the last step, in order, each for one cycle (`10_state.md` rule R48). -/
def presented (s : State) : List Event := s.trace.drop s.shown

/-- `ev_valid`: some event was presented in the last step (`10_state.md` rules R45, R48). -/
def evValid (s : State) : Bool := !(presented s).isEmpty

/-- `ev_kind` and `ev_data` of the events of the last step, in order (`10_state.md` rules R45, R48). -/
def evPort (s : State) : List (BitVec 3 × BitVec 64) := (presented s).map fun e => (e.portKind, e.portData)

/-! ## Inputs -/

/-- The `done` pulse of the step before is over (`60_exceptions.md` rule R236), and so is the cycle of each event it
presented (`10_state.md` rule R48). -/
def quiet (s : State) : State := { s with done := false, shown := s.trace.length }

/-- Whether `rst` is asserted now. -/
def resetDue (s : State) : Bool :=
  match s.resets with
  | [] => false
  | r :: _ => decide (r.start ≤ s.clock)

/-- The state while `rst` is high (`70_reset_and_hazards.md` rules R260, R261): every element has its reset value, a command
in progress is abandoned, the serialiser is reset too. What is outside the block goes on. -/
def inReset (s : State) : State :=
  { State.resetWith s.cfg with
    clock := s.clock
    epoch := s.clock
    dirAt := if s.de then some s.clock else s.dirAt
    turns := s.turns
    draws := s.draws
    arrivals := s.arrivals
    plans := if s.de then s.plans.tail else s.plans
    offers := s.offers
    resets := s.resets
    level := s.level }

/-- A tick with `rst` high: `RXQ` stays empty, so the characters delivered in it are lost, and `now` stays 0
(`70_reset_and_hazards.md` rule R260). -/
def resetTick (s : State) : State :=
  { inReset s with
    clock := s.clock + 1
    epoch := s.clock + 1
    arrivals := s.arrivals.dropWhile fun a => decide (a.time < s.clock + 1) }

/-- A step with `rst` high: a tick in reset while it is held, else it falls. DESIGN CHOICE (log 7, unsafe): a character due
in the very tick in which `rst` falls comes after the fall, where the spec leaves open which is first. -/
def resetNow (s : State) : State :=
  match s.resets with
  | [] => inReset s
  | r :: rs => if s.clock < r.stop then resetTick s else { inReset s with resets := rs }

/-- What is taken now: a reply frame whenever it is due, a command word or a request frame only while `BUSY = 0`
(`30_encoding.md` rule R101). -/
def dueOffer (s : State) : Option Raw :=
  match s.offers with
  | [] => none
  | o :: _ =>
    if o.time ≤ s.clock then
      match o.raw with
      | .reply _ => some o.raw
      | .command _ | .request _ => if s.busy then none else some o.raw
    else none

/-- The offer is taken. -/
def takeOffer (s : State) : State := { quiet s with offers := s.offers.tail }

/-- Whether commands that take time are run phase by phase: where the model is asked to, and wherever a reset is still to
come, which could fall inside a command (`00_scope.md` rule R14, `70_reset_and_hazards.md` rule R260; log 4). -/
def byPhases (s : State) : Bool := s.level == .phase || !s.resets.isEmpty

end Sys2Proof.Machine
end

