-- ==== Sys2Proof/Machine/Unlisted.lean ====
section
/-! DEFINITION. What bits do that are no row of the opcode table: an illegal command word has its outcome
(`30_encoding.md` rule R108), and bytes on the wire are bytes whatever their shape (`20_memory.md` rule R64,
`42_direction_and_transmit.md` rule R169). -/
namespace Sys2Proof.Machine

/-- A word that is no command is accepted and has the outcome IllegalCommand (`30_encoding.md` rules R107, R108). -/
def illegalWord (w : BitVec 16) (s : State) : Host.Outcome State Fault Refusal :=
  whenReady s (illegal (w.extractLsb' 12 4) (w.extractLsb' 8 4) (w.extractLsb' 0 8) s)

/-- The effect of bits the decoder rejects. -/
def unlisted (r : Raw) (s : State) : Host.Outcome State Fault Refusal :=
  match r with
  | .command w => illegalWord w s
  | .request f => sendLoaded (bytesOfQ f) s
  | .reply f => receiveFrame (bytesOfP f) s

/-- The first phase of a rejected frame that takes time. -/
def beginUnlisted (r : Raw) (s : State) : Option State :=
  match r with
  | .request f => some (startTx (accept 0x6 0 0 (loadFrame (bytesOfQ f) s)))
  | .command _ | .reply _ => none

end Sys2Proof.Machine
end

