-- ==== Sys2Proof/Machine/Step.lean ====
section
/-! DEFINITION. One step of the machine: reset wins (`70_reset_and_hazards.md` rule R260); else a due offer is taken and
run; else a command in progress goes on by one small step, or a tick passes. -/
namespace Sys2Proof.Machine

/-- An offer's bits are decoded and run: as one step, or up to the first phase where the machine goes by phases. -/
def runRaw (r : Raw) (s : State) : Host.Outcome State Fault Refusal :=
  match decode r with
  | .ok i =>
    match byPhases s, beginPhases i s with
    | true, some t => .next t
    | true, none => exec i s
    | false, _ => exec i s
  | .error _ =>
    match byPhases s, beginUnlisted r s with
    | true, some t => .next t
    | true, none => unlisted r s
    | false, _ => unlisted r s

/-- One step; an idle one is one tick (DESIGN CHOICE, log 13). -/
def step (s : State) : Host.Outcome State Fault Refusal :=
  if resetDue s then .next (resetNow s)
  else
    match dueOffer s with
    | some r => runRaw r (takeOffer s)
    | none => if s.busy then phaseStep (quiet s) else .next (elapse 1 (quiet s))

/-- `s` with an instruction offered now, ahead of everything else the host offers. -/
def State.withFetchWord (s : State) (nbits w : Nat) : State :=
  match rawOf nbits w with
  | some r => { s with offers := ⟨s.clock, r⟩ :: s.offers }
  | none => s

end Sys2Proof.Machine
end

