-- ==== Sys2Proof/Safety.lean ====
section
/-! DEFINITION. What claims are stated in: the invariant of the block (`10_state.md` rule R50), the serialiser's time, the
lifetime of a command at the phase level (`00_scope.md` rule R14). -/
namespace Sys2Proof.Machine

/-- The invariants of `10_state.md` rule R50, (a) to (f). -/
structure DirectionSound (s : State) : Prop where
  pair : s.de = s.rdis
  phase : s.de = s.ph.transmitting
  free : s.busy = false → s.ph = .idle
  bound : s.rxq.length ≤ s.cfg.rxqCap
  driven : 0 < s.txpend → s.de = true
  index : s.txi.toNat ≤ 8

/-- The commands that have phases, by their latched `OP` (`10_state.md` rule R30). -/
abbrev sending (op : BitVec 4) : Prop := op = 0x6 ∨ op = 0x8 ∨ op = 0x9 ∨ op = 0xA ∨ op = 0xB

/-- The sequencer's phase belongs to the latched command and its counters (`10_state.md` rules R30 to R33). -/
structure InPlace (s : State) : Prop where
  notIdle : s.ph ≠ .idle
  owner : sending s.op
  waits : s.ph = .rxWait → s.op ≠ 0x6
  gap : s.ph = .gap → s.op = 0x9 ∧ s.ci.toNat + 1 < s.cfg.cand.length
  backoff : s.ph = .backoff → s.op = 0xB ∧ s.att.toNat < s.cfg.nAttempts
  candidate : s.op = 0x9 → s.ci.toNat < s.cfg.cand.length

/-- The invariant of the machine: rule R50, the serialiser idle once it has drained, and a command in progress in its
place. -/
structure Inv (s : State) : Prop where
  sound : DirectionSound s
  drained : s.ph = .txPost → s.txpend = 0
  inPlace : s.busy = true → InPlace s

/-- The serialiser becomes idle in the coming transmission (`42_direction_and_transmit.md` rule R167). -/
abbrev Idles (s : State) : Prop := (plan s).idles = true

/-- The serialiser becomes idle in every transmission the state has a plan for (`60_exceptions.md` rule R249 d). -/
abbrev AlwaysIdles (s : State) : Prop := ∀ p ∈ s.plans, p.idles = true

/-- The ticks in which the serialiser is not ready while `n` more bytes are handed to it. -/
def handTicks : Nat → List SerialTick → Nat
  | _, [] => 0
  | 0, _ :: _ => 0
  | n + 1, t :: ts => if n + 1 ≤ t.taken then 0 else 1 + handTicks (n + 1 - t.taken) ts

/-- `T_TX` of a plan: from the first `UartWrite` to the end of `UartFlush` (`93_implementation_defined.md` U10). -/
def serialTime (p : SerialPlan) : Nat := handTicks 8 p.hand + p.drain.length + 1

/-- The time the lines are asserted for one frame: `T_PRE + T_TX + T_POST` (`42_direction_and_transmit.md` rule R170 d). -/
def assertedTime (cfg : Config) (p : SerialPlan) : Nat := cfg.tPre.toNat + serialTime p + cfg.tPost.toNat

/-- `k` small steps of a command in progress. -/
def phaseRun : Nat → State → Host.Outcome State Fault Refusal
  | 0, s => .next s
  | k + 1, s =>
    match phaseStep s with
    | .next t => phaseRun k t
    | .fault r => .fault r
    | .refused r => .refused r

/-- How many of the coming characters are delivered by time `t`. -/
def arrivedBy (t : Nat) (as : List Arrival) : Nat := (as.filter fun a => decide (a.time ≤ t)).length

/-- The characters come in time order, none in the past, and none straddles a change of the lines (`20_memory.md` rule
R65). -/
structure CleanBus (s : State) : Prop where
  ordered : s.arrivals.Pairwise fun a b => a.time ≤ b.time
  ahead : ∀ a ∈ s.arrivals, s.clock ≤ a.time
  whole : ∀ a ∈ s.arrivals, straddles s a = false

/-- The report events of one transmission that got no byte in time (`43_transactions.md` rule R191). -/
def failedProbeEvents (c : Byte) : List Event := [.sent (request c), .error Kind.timeout.code]

/-! ## What statements compare a next state with -/

/-- Match and mask of each command (`30_encoding.md` rule R102). -/
def commandPatterns : List (BitVec 16 × BitVec 16) :=
  [(0x0000, 0xFFFF), (0x1000, 0xFFFF), (0x2000, 0xFF00), (0x3000, 0xFF00), (0x4000, 0xFFFF), (0x5000, 0xF800),
   (0x6000, 0xFFFF), (0x7000, 0xFFFF), (0x8000, 0xFF00), (0x9000, 0xFFFF), (0xA000, 0xFFFF), (0xB000, 0xFFFF)]

/-- A word selects one of the twelve commands (`30_encoding.md` rule R102). -/
abbrev selects (w : BitVec 16) (p : BitVec 16 × BitVec 16) : Prop := w &&& p.2 = p.1

/-- A legal `OP` with a reserved field that is not zero (`30_encoding.md` rule R108). -/
abbrev reservedFieldSet (op idx : BitVec 4) (arg : Byte) : Prop :=
  op.toNat < 0xC ∧
    ((op ≠ 0x5 ∧ idx ≠ 0) ∨
      (op.toNat ∈ [0x0, 0x1, 0x4, 0x6, 0x7, 0x9, 0xA, 0xB] ∧ arg ≠ 0) ∨ (op = 0x5 ∧ 7 < idx.toNat))

/-- What an illegal command word leaves: the fields latched, code 5, one `Error(5)` event, `done`, and nothing else
(`30_encoding.md` rule R107). -/
def illegalOutcome (op idx : BitVec 4) (arg : Byte) (s : State) : State :=
  { s with op := op, idx := idx, arg := arg, err := 5, trace := s.trace ++ [.error 5], done := true }

/-- When the lines are released, for a transmission that starts now and takes the serialiser `T`
(`42_direction_and_transmit.md` rule R168). -/
def releaseTime (T : Nat) (s : State) : Nat := s.clock + s.cfg.tPre.toNat + T + s.cfg.tPost.toNat

/-- The serialiser's time in the coming transmission: positive, and the one of the plan where the state holds a plan
(`93_implementation_defined.md` U10). -/
abbrev TakesTime (T : Nat) (s : State) : Prop := 0 < T ∧ ∀ p ps, s.plans = p :: ps → T = serialTime p

/-- What a transmission of the frame `f` by the command `op`, `idx`, `arg` leaves when the command then ends with code 0
(`42_direction_and_transmit.md` rules R168, R169): `c` is the CRC register, `q` the queue, `d` the free values drawn, `as`
what is still to arrive. -/
def sentState (op idx : BitVec 4) (arg : Byte) (f : Frame8) (c : Word) (T : Nat) (q : List Byte) (d : Nat)
    (as : List Arrival) (s : State) : State :=
  { s with
    op := op, idx := idx, arg := arg, err := 0, busy := false, done := true, ph := .idle,
    txbuf := f, crc := c, txd := s.txd ++ f.toList, txi := 8, txpend := 0, tmr := 0,
    de := false, rdis := false, dirAt := some (releaseTime T s), clock := releaseTime T s,
    trace := s.trace ++ [.sent f], rxq := q, fresh := 0, missed := 0, draws := d, arrivals := as, plans := s.plans.tail }

/-- The hang: the block waits in `TX_DRAIN` for a serialiser that never becomes idle, the lines asserted
(`42_direction_and_transmit.md` rule R167). -/
structure Hung (s : State) : Prop where
  phase : s.ph = .txDrain
  busy : s.busy = true
  lines : s.de = true ∧ s.rdis = true
  pending : 0 < s.txpend
  never : (plan s).drain = [] ∧ (plan s).idles = false

/-- No coming character straddles a change of the lines at `t` (`20_memory.md` rule R65). -/
abbrev ClearOf (t : Nat) (s : State) : Prop := ∀ a ∈ s.arrivals, straddlesAt (some t) a = false

/-- A transmission that starts now, with the serialiser taking `T`, meets no character at either change of the lines, and
none was queued in this tick. -/
structure QuietTransmit (T : Nat) (s : State) : Prop where
  ordered : s.arrivals.Pairwise fun a b => a.time ≤ b.time
  ahead : ∀ a ∈ s.arrivals, s.clock ≤ a.time
  atStart : ClearOf s.clock s
  atRelease : ClearOf (releaseTime T s) s
  settled : s.fresh = 0

/-- No coming character is delivered in a tick in which `DirTx()` comes after a command acted on it (`20_memory.md` rule R65,
log 18). -/
abbrev Steady (s : State) : Prop := ∀ a ∈ s.arrivals, a.time ∉ s.turns

/-- The bytes of the coming characters that `p` selects, in order (`20_memory.md` rule R74). -/
def bytesComing (p : Nat → Bool) (s : State) : List Byte := (s.arrivals.filter fun a => p a.time).map fun a => a.byte

/-- `n` ms with the receiver enabled: the characters due in them are queued in order, as far as there is room
(`20_memory.md` rules R64, R74, `42_direction_and_transmit.md` rule R165). -/
def listening (n : Nat) (s : State) : State :=
  { s with
    clock := s.clock + n
    rxq := s.rxq ++ (bytesComing (fun t => decide (t < s.clock + n)) s).take (s.cfg.rxqCap - s.rxq.length)
    arrivals := s.arrivals.filter fun a => decide (s.clock + n ≤ a.time) }

/-- `n` ms with the receiver disabled: the characters due in them are lost (`20_memory.md` rule R64 c). -/
def deaf (n : Nat) (s : State) : State :=
  { s with
    clock := s.clock + n
    arrivals := s.arrivals.filter fun a => decide (s.clock + n ≤ a.time) }

/-- What a read that got the seven bytes `r` makes of them, with `rest` left in the queue: its outcome code and the state
(`43_transactions.md` rule R195). -/
def replyTaken (r : Frame7) (rest : List Byte) (s : State) : BitVec 3 × State :=
  let v : State := { s with
    rxq := rest
    rxbuf := #v[r[0], r[1], r[2], r[3], r[4], r[5], r[6], s.rxbuf[7]]
    crc := crc16 [r[0], r[1], r[2], r[3], r[4]]
    rspCrcOk := rspCrcMatches r }
  match decodeReply s.cfg r s.addr with
  | .mismatch => (4, { v with trace := s.trace ++ [.received r, .error 4] })
  | .badCrc => (6, { v with trace := s.trace ++ [.received r, .error 6] })
  | .ok x => (0, { v with raw := x, trace := s.trace ++ [.received r, .reading x] })

/-- PROBE issued for one candidate after another, with `T_GAP` between, until one is answered
(`43_transactions.md` rule R193). -/
def probesUntil : Nat → List Byte → State → Option State
  | _, [], s => some { s with err := 2, trace := s.trace ++ [.error 2] }
  | i, c :: cs, s =>
    match exec (.probe c) { s with ci := BitVec.ofNat 8 i } with
    | .next t => if t.err = 0 then some t else probesUntil (i + 1) cs (if cs.isEmpty then t else delay t.cfg.tGap t)
    | .fault _ => none
    | .refused _ => none

/-- READ issued again and again, with `T_BACKOFF` between, until a reading passes `SUCCESS_PRED` or `more` further
attempts are used up (`43_transactions.md` rule R199). -/
def readsUntil : Nat → Nat → State → Option State
  | more, att, s =>
    match exec .read s with
    | .next t =>
      if t.err = 0 ∧ passes t.cfg t.raw = true then some { t with att := BitVec.ofNat 8 att, nodata := false }
      else
        match more with
        | 0 => some { t with att := BitVec.ofNat 8 att, nodata := true }
        | m + 1 => readsUntil m (att + 1) (delay t.cfg.tBackoff t)
    | .fault _ => none
    | .refused _ => none

end Sys2Proof.Machine
end

