-- ==== Sys2Proof/Certificates/Slice0/Obligations.lean ====
section
/-! DEFINITION. The statements for the provers. Each names the rule of the spec it formalises. A statement that says
`= .next { s with … }` says also that every field it does not name keeps its value. -/
section
open Sys2Proof Sys2Proof.Machine

/-! ## Encoding -/

/-- `30_encoding.md` R101, R102, R92, R94: no bit of an encoding is dropped. -/
def Obligations.DecodeOfEncode : Prop := ∀ i : Instr, i.wellFormed = true → decode (encode i) = .ok i

/-- `30_encoding.md` R102: every word has one meaning, so what decodes is what the encoder writes. -/
def Obligations.EncodeOfDecode : Prop := ∀ (r : Raw) (i : Instr), decode r = .ok i → encode i = r

/-- `30_encoding.md` R102: the match and mask table, its disjointness, and the rest of the words illegal (as R107 says of
an illegal word). -/
def Obligations.CommandWordTable : Prop :=
  ∀ w : BitVec 16,
    (decodeCommand w = .ok .nop ↔ w &&& 0xFFFF = 0x0000) ∧
    (decodeCommand w = .ok .crcInit ↔ w &&& 0xFFFF = 0x1000) ∧
    (∀ b, decodeCommand w = .ok (.crcByte b) ↔ w &&& 0xFF00 = 0x2000 ∧ b = w.extractLsb' 0 8) ∧
    (∀ a, decodeCommand w = .ok (.encode a) ↔ w &&& 0xFF00 = 0x3000 ∧ a = w.extractLsb' 0 8) ∧
    (decodeCommand w = .ok .verify ↔ w &&& 0xFFFF = 0x4000) ∧
    (∀ i b, decodeCommand w = .ok (.ldtx i b) ↔
      w &&& 0xF800 = 0x5000 ∧ i = (w.extractLsb' 8 3).zeroExtend 4 ∧ b = w.extractLsb' 0 8) ∧
    (decodeCommand w = .ok .send ↔ w &&& 0xFFFF = 0x6000) ∧
    (decodeCommand w = .ok .flushrx ↔ w &&& 0xFFFF = 0x7000) ∧
    (∀ a, decodeCommand w = .ok (.probe a) ↔ w &&& 0xFF00 = 0x8000 ∧ a = w.extractLsb' 0 8) ∧
    (decodeCommand w = .ok .discover ↔ w &&& 0xFFFF = 0x9000) ∧
    (decodeCommand w = .ok .read ↔ w &&& 0xFFFF = 0xA000) ∧
    (decodeCommand w = .ok .readRetry ↔ w &&& 0xFFFF = 0xB000) ∧
    (∀ p ∈ commandPatterns, ∀ p' ∈ commandPatterns, selects w p → selects w p' → p = p') ∧
    ((∀ p ∈ commandPatterns, ¬ selects w p) → ∀ s : State, s.busy = false →
      runRaw (.command w) s =
        .next (illegalOutcome (w.extractLsb' 12 4) (w.extractLsb' 8 4) (w.extractLsb' 0 8) s))

/-- `30_encoding.md` R92: the 64-bit pattern, its match and mask, and that there is one request frame per address and no
other. -/
def Obligations.RequestFramePattern : Prop :=
  (∀ a : Byte, packQ (request a) = a ++ 0x0300000001#40 ++ lo8 (requestCrc a) ++ hi8 (requestCrc a)) ∧
  (∀ (f : BitVec 64) (i : Instr), decode (.request f) = .ok i ↔
    f &&& 0x00FFFFFFFFFF0000 = 0x0003000000010000 ∧
      i = .requestFrame (f.extractLsb' 56 8) (f.extractLsb' 8 8) (f.extractLsb' 0 8)) ∧
  (∀ f : BitVec 64, (∃ i, decode (.request f) = .ok i ∧ i.wellFormed = true) ↔ ∃ a, f = packQ (request a)) ∧
  (∀ a b : Byte, packQ (request a) = packQ (request b) → a = b)

/-- `30_encoding.md` R94: the 56-bit pattern of a reply, and what READ accepts of it for a request to `A`. -/
def Obligations.ReplyFramePattern : Prop :=
  (∀ (f : BitVec 56) (i : Instr), decode (.reply f) = .ok i ↔
    f &&& 0x00FF0000000000 = 0x00030000000000 ∧
      i = .replyFrame (f.extractLsb' 48 8) (f.extractLsb' 32 8) (f.extractLsb' 24 8) (f.extractLsb' 16 8)
        (f.extractLsb' 8 8) (f.extractLsb' 0 8)) ∧
  (∀ (f : BitVec 56) (A : Byte) (cfg : Config), (∃ v, decodeReply cfg (bytesOfP f) A = .ok v) ↔
    f &&& 0xFFFF0000000000 = (A.zeroExtend 56 <<< (48 : Nat)) ||| (0x03#56 <<< (40 : Nat)) ∧
      (cfg.rspCrcEnforce = true → rspCrcMatches (bytesOfP f) = true))

/-- `30_encoding.md` R110, R102, R107, R108 (`95_test_vectors.md` V18, V35): words written out by hand. -/
def Obligations.SampleWordsDecode : Prop :=
  decode (.command 0x0000) = .ok .nop ∧ decode (.command 0x1000) = .ok .crcInit ∧
  decode (.command 0x2084) = .ok (.crcByte 0x84) ∧ decode (.command 0x3002) = .ok (.encode 0x02) ∧
  decode (.command 0x5685) = .ok (.ldtx 6 0x85) ∧ decode (.command 0x6000) = .ok .send ∧
  decode (.command 0x8010) = .ok (.probe 0x10) ∧ decode (.command 0xA000) = .ok .read ∧
  decode (.command 0xB000) = .ok .readRetry ∧
  decode (.command 0xD123) = .ok (.reservedD 1 0x23) ∧ decode (.command 0x6001) = .error .reservedField ∧
  decode (.command 0x5800) = .error .indexAboveSeven ∧
  decode (.request 0x0203000000018439) = .ok (.requestFrame 0x02 0x84 0x39) ∧
  decode (.reply 0x020302028A7C83) = .ok (.replyFrame 0x02 0x02 0x02 0x8A 0x7C 0x83)

/-! ## A step -/

/-- `30_encoding.md` R101, `00_scope.md` R14: a step takes the offer that is due and runs the instruction its bits decode
to; `step` adds that the offer is used up and that the `done` pulse and the events of the step before are over. Phase by phase, it runs the
command's first phase. The by-phases switch is the model's own (log 4). -/
def Obligations.StepRunsTheDecodedInstruction : Prop :=
  (∀ (s : State) (o : Offer) (os : List Offer) (i : Instr),
    resetDue s = false → s.offers = o :: os → o.time ≤ s.clock → s.busy = false → decode o.raw = .ok i →
      let u : State := { s with offers := os, done := false, shown := s.trace.length }
      (byPhases s = false → step s = exec i u) ∧
      (byPhases s = true → beginPhases i u = none → step s = exec i u) ∧
      (byPhases s = true → ∀ t, beginPhases i u = some t → step s = .next t)) ∧
  (∀ (s : State) (o : Offer) (os : List Offer) (i : Instr) (f : BitVec 56),
    resetDue s = false → s.offers = o :: os → o.time ≤ s.clock → o.raw = .reply f → decode o.raw = .ok i →
      step s = exec i { s with offers := os, done := false, shown := s.trace.length }) ∧
  (∀ (s : State) (nbits w : Nat) (r : Raw) (i : Instr),
    resetDue s = false → s.busy = false → byPhases s = false → rawOf nbits w = some r → decode r = .ok i →
      step (s.withFetchWord nbits w) = exec i { s with done := false, shown := s.trace.length })

/-- `10_state.md` R36, `30_encoding.md` R101, U9: while `BUSY = 1` no command word is taken, run or queued: the command in
progress goes on, and the offer stays to be taken later. That the same holds of a request frame, as an instruction and as
an offer, is the model's choice (log 8, log 2), and so is that an offer stays until it is taken (log 2). -/
def Obligations.BusyTakesNoCommand : Prop :=
  (∀ (s : State) (i : Instr), s.busy = true → (∀ a n d e l h, i ≠ .replyFrame a n d e l h) → exec i s = .next s) ∧
  (∀ (s : State) (o : Offer) (os : List Offer), s.busy = true → resetDue s = false → s.offers = o :: os →
    (∀ f, o.raw ≠ .reply f) → step s = phaseStep { s with done := false, shown := s.trace.length } ∧
      ∀ t, step s = .next t → t.offers = s.offers)

/-- `30_encoding.md` R107: each reserved `OP`. -/
def Obligations.ReservedOperations : Prop :=
  ∀ (s : State) (idx : BitVec 4) (arg : Byte), s.busy = false →
    exec (.reservedC idx arg) s = .next { s with
      op := 0xC, idx := idx, arg := arg, err := 5, trace := s.trace ++ [.error 5], done := true } ∧
    exec (.reservedD idx arg) s = .next { s with
      op := 0xD, idx := idx, arg := arg, err := 5, trace := s.trace ++ [.error 5], done := true } ∧
    exec (.reservedE idx arg) s = .next { s with
      op := 0xE, idx := idx, arg := arg, err := 5, trace := s.trace ++ [.error 5], done := true } ∧
    exec (.reservedF idx arg) s = .next { s with
      op := 0xF, idx := idx, arg := arg, err := 5, trace := s.trace ++ [.error 5], done := true }

/-- `30_encoding.md` R108: a legal `OP` with a reserved field set has the effect of R107; an LDTX index is never wrapped. -/
def Obligations.NonzeroReservedFields : Prop :=
  ∀ (s : State) (op idx : BitVec 4) (arg : Byte), s.busy = false → reservedFieldSet op idx arg →
    runRaw (.command (commandWord op idx arg)) s = .next { s with
      op := op, idx := idx, arg := arg, err := 5, trace := s.trace ++ [.error 5], done := true }

/-! ## Reset -/

/-- `10_state.md` R49. -/
def Obligations.ResetValues : Prop :=
  ∀ c : Config, let s := State.resetWith c
    s.txbuf = Vector.replicate 8 0 ∧ s.rxbuf = Vector.replicate 8 0 ∧ s.crc = 0xFFFF ∧
    s.de = false ∧ s.rdis = false ∧ s.addr = c.addrDefault ∧ s.conf = false ∧ s.raw = c.rawReset ∧ s.ph = .idle ∧
    s.op = 0 ∧ s.idx = 0 ∧ s.arg = 0 ∧ s.ci = 0 ∧ s.att = 0 ∧ s.txi = 0 ∧ s.err = 0 ∧ s.busy = false ∧
    s.frameOk = false ∧ s.rspCrcOk = false ∧ s.nodata = false ∧ s.rxq = [] ∧ s.tmr = 0 ∧ s.txpend = 0 ∧ s.trace = []

/-- `70_reset_and_hazards.md` R260, R261: reset wins over an offer and over a command in progress; every element takes its
reset value, `now` is 0, there is no `done` and no event, and offers are not taken. While `rst` is high a tick passes in
which `now` stays 0 and the characters delivered are lost; when it falls the pulse is over. That a character due in the
tick of the fall comes after it is the model's choice (log 7), that `State.reset` has the parameters `Config.block` too
(log 3). -/
def Obligations.ResetWinsInAnyState : Prop :=
  State.reset = State.resetWith Config.block ∧
  ∀ s : State, resetDue s = true → ∃ t, step s = .next t ∧
    { t with
      clock := 0, epoch := 0, dirAt := none, turns := [], draws := 0, arrivals := [], plans := [], offers := [],
      resets := [], level := .command } = State.resetWith s.cfg ∧
    now t = 0 ∧ t.done = false ∧ presented t = [] ∧ t.offers = s.offers ∧
    ∀ r rs, s.resets = r :: rs →
      (r.stop ≤ s.clock → t.clock = s.clock ∧ t.arrivals = s.arrivals ∧ t.resets = rs) ∧
      (s.clock < r.stop → t.clock = s.clock + 1 ∧ t.resets = s.resets ∧
        t.arrivals = s.arrivals.dropWhile fun a => decide (a.time < s.clock + 1))

/-! ## The CRC engine -/

/-- `40_crc.md` R126 (b), with `T[x] = crc_step(0, x)`. -/
def Obligations.CrcTableForm : Prop :=
  ∀ (c : Word) (b : Byte), crcStep c b = (c >>> 8) ^^^ crcStep 0 (lo8 (c ^^^ b.zeroExtend 16))

/-- `40_crc.md` R126 (c). -/
def Obligations.CrcIsLinear : Prop :=
  ∀ (c₁ c₂ : Word) (b₁ b₂ : Byte), crcStep (c₁ ^^^ c₂) (b₁ ^^^ b₂) = crcStep c₁ b₁ ^^^ crcStep c₂ b₂

/-- `40_crc.md` R126 (d). -/
def Obligations.CrcResidue : Prop := ∀ s : List Byte, crc16 (s ++ [lo8 (crc16 s), hi8 (crc16 s)]) = 0

/-- `40_crc.md` R126 (e). -/
def Obligations.CrcDetectsOneBit : Prop :=
  ∀ (s t : List Byte) (b : Byte) (k : Nat), k < 8 → crc16 (s ++ [b ^^^ (1 <<< k)] ++ t) ≠ crc16 (s ++ [b] ++ t)

/-- `40_crc.md` R122, R123, R126 (f): the worked values. -/
def Obligations.CrcWorkedValues : Prop :=
  crcStep 0xFFFF 0x02 = 0x813E ∧ crc16 [] = 0xFFFF ∧ crc16 [0x02, 0x03, 0x00, 0x00, 0x00, 0x01] = 0x3984 ∧
  crc16 [0x31, 0x32, 0x33, 0x34, 0x35, 0x36, 0x37, 0x38, 0x39] = 0x4B37 ∧ crc16 [0, 0, 0, 0, 0, 0] = 0x1B00

/-! ## The frame codec -/

/-- `41_frame_codec.md` R141. -/
def Obligations.RequestOfAnAddress : Prop :=
  (∀ a : Byte, ∃ c, c = crc16 [a, 0x03, 0x00, 0x00, 0x00, 0x01] ∧
    (request a).toList = [a, 0x03, 0x00, 0x00, 0x00, 0x01, lo8 c, hi8 c]) ∧
  (∀ a b : Byte, request a = request b → a = b) ∧
  request 0x02 = #v[0x02, 0x03, 0x00, 0x00, 0x00, 0x01, 0x84, 0x39] ∧
  request 0x01 = #v[0x01, 0x03, 0x00, 0x00, 0x00, 0x01, 0x84, 0x0A] ∧
  request 0x10 = #v[0x10, 0x03, 0x00, 0x00, 0x00, 0x01, 0x87, 0x4B]

/-- `41_frame_codec.md` R143: comparing and running all eight bytes agree; every built request is valid; bytes 1 to 5 are
not looked at but through the CRC. -/
def Obligations.FrameValidation : Prop :=
  (∀ f : Frame8, frameOk f = true ↔ crc16 [f[0], f[1], f[2], f[3], f[4], f[5]] = u16 f[7] f[6]) ∧
  (∀ f : Frame8, frameOk f = true ↔ crc16 f.toList = 0x0000) ∧
  (∀ a : Byte, frameOk (request a) = true) ∧
  (∀ b₀ b₁ b₂ b₃ b₄ b₅ : Byte, ∃ l h, frameOk #v[b₀, b₁, b₂, b₃, b₄, b₅, l, h] = true)

/-- `41_frame_codec.md` R146, R147. -/
def Obligations.ReplyDecoding : Prop :=
  ∀ (cfg : Config) (r : Frame7) (a : Byte),
    ((r[0] ≠ a ∨ r[1] ≠ 0x03) → decodeReply cfg r a = .mismatch) ∧
    (r[0] = a → r[1] = 0x03 → cfg.rspCrcEnforce = true → rspCrcMatches r = false → decodeReply cfg r a = .badCrc) ∧
    (r[0] = a → r[1] = 0x03 → (cfg.rspCrcEnforce = false ∨ rspCrcMatches r = true) →
      decodeReply cfg r a = .ok (u16 r[3] r[4])) ∧
    (rspCrcMatches r = true ↔ crc16 [r[0], r[1], r[2], r[3], r[4]] = u16 r[6] r[5]) ∧
    (rspCrcMatches r = true ↔ crc16 r.toList = 0)

/-- `41_frame_codec.md` R148, `70_reset_and_hazards.md` R275: without enforcement any five bytes after the first two decode;
the byte count is never tested. -/
def Obligations.ReplyBytesNotLookedAt : Prop :=
  (∀ (cfg : Config) (a n d e l h : Byte), cfg.rspCrcEnforce = false →
    decodeReply cfg (replyBytes a n d e l h) a = .ok (u16 d e)) ∧
  (∀ (cfg : Config) (a n n' d e l h l' h' x : Byte),
    rspCrcMatches (replyBytes a n d e l h) = rspCrcMatches (replyBytes a n' d e l' h') →
      decodeReply cfg (replyBytes a n d e l h) x = decodeReply cfg (replyBytes a n' d e l' h') x)

/-- `41_frame_codec.md` R150: the exact quotient, its sign, and its range at the reference divisor. -/
def Obligations.SensorValueIsTheQuotient : Prop :=
  (∀ (cfg : Config) (raw : Word), sensorValue cfg raw * (cfg.scaleDiv : Rat) = (intValue cfg raw : Rat)) ∧
  (∀ (cfg : Config) (raw : Word), 0 < sensorValue cfg raw ↔ 0 < intValue cfg raw) ∧
  (∀ (cfg : Config) (raw : Word), cfg.payloadSigned = false → intValue cfg raw = (raw.toNat : Int)) ∧
  (∀ (cfg : Config) (raw : Word), cfg.payloadSigned = true → intValue cfg raw = raw.toInt) ∧
  (∀ (cfg : Config) (raw : Word), cfg.scaleDiv = 100 → cfg.payloadSigned = false →
    0 ≤ sensorValue cfg raw ∧ sensorValue cfg raw ≤ 65535 / 100) ∧
  (∀ (cfg : Config) (raw : Word), cfg.scaleDiv = 100 → cfg.payloadSigned = true →
    -32768 / 100 ≤ sensorValue cfg raw ∧ sensorValue cfg raw ≤ 32767 / 100)

/-- `41_frame_codec.md` R151: the reference predicate in terms of `raw`, and that any other predicate can stand in its
place. -/
def Obligations.SuccessPredicate : Prop :=
  (∀ (cfg : Config) (raw : Word), cfg.successPred = .valuePositive →
    (passes cfg raw = true ↔ 0 < sensorValue cfg raw) ∧
    (cfg.payloadSigned = false → (passes cfg raw = true ↔ raw ≠ 0)) ∧
    (cfg.payloadSigned = true → (passes cfg raw = true ↔ 0x0001 ≤ raw ∧ raw ≤ 0x7FFF))) ∧
  (∀ p : Word → Bool, ∃ q : SuccessPred, ∀ (cfg : Config) (raw : Word), cfg.successPred = q → passes cfg raw = p raw)

/-! ## Outputs -/

/-- `10_state.md` R47, with the eight phase codes of R30. -/
def Obligations.StatusWord : Prop :=
  (∀ s : State, (status s).extractLsb' 0 3 = s.err ∧ (status s).getLsbD 3 = s.busy ∧ (status s).getLsbD 4 = s.conf ∧
    (status s).getLsbD 5 = s.frameOk ∧ (status s).getLsbD 6 = s.rspCrcOk ∧ (status s).getLsbD 7 = s.nodata ∧
    (status s).getLsbD 8 = s.de ∧ (status s).getLsbD 9 = s.rdis ∧ (status s).extractLsb' 10 4 = s.ph.code ∧
    (status s).extractLsb' 14 2 = 0) ∧
  (Phase.idle.code = 0 ∧ Phase.txPre.code = 1 ∧ Phase.txData.code = 2 ∧ Phase.txDrain.code = 3 ∧
    Phase.txPost.code = 4 ∧ Phase.rxWait.code = 5 ∧ Phase.gap.code = 6 ∧ Phase.backoff.code = 7) ∧
  ∀ c : Config, status (State.resetWith c) = 0x0000

/-- `10_state.md` R48 (the bits of the event port that the rule gives), R45 (`cmd_ready`, the direction pins), R43
(`tx_idle`), `42_direction_and_transmit.md` R166 (`tx_valid`, `tx_data`). -/
def Obligations.EventPortAndPins : Prop :=
  (∀ (f : Frame8) (i : Nat) (h : i < 8), (Event.sent f).portKind = 1 ∧
    (Event.sent f).portData.extractLsb' (56 - 8 * i) 8 = f[i]) ∧
  (∀ (r : Frame7) (i : Nat) (h : i < 7), (Event.received r).portKind = 2 ∧
    (Event.received r).portData.extractLsb' (56 - 8 * i) 8 = r[i] ∧
    (Event.received r).portData.extractLsb' 0 8 = 0) ∧
  (∀ a : Byte, (Event.discovered a).portKind = 3 ∧ (Event.discovered a).portData.extractLsb' 0 8 = a) ∧
  (∀ v : Word, (Event.reading v).portKind = 4 ∧ (Event.reading v).portData.extractLsb' 0 16 = v) ∧
  (∀ k : BitVec 3, (Event.error k).portKind = 5 ∧ (Event.error k).portData.extractLsb' 0 3 = k) ∧
  (∀ s : State, (cmdReady s = true ↔ s.busy = false) ∧ (txIdle s = true ↔ s.txpend = 0) ∧
    (s.de = true → pinDe s = s.cfg.deLevel) ∧ (s.de = false → pinDe s = !s.cfg.deLevel) ∧
    (s.rdis = true → pinRdis s = s.cfg.rdisLevel) ∧ (s.rdis = false → pinRdis s = !s.cfg.rdisLevel)) ∧
  (∀ s : State, (txValid s = true ↔ s.ph = .txData ∧ s.txi.toNat < 8) ∧ (txValid s = false → txData s = none) ∧
    ∀ h : s.txi.toNat < 8, txValid s = true → txData s = some s.txbuf[s.txi.toNat])

/-! ## Commands that take no time -/

/-- `40_crc.md` R127. -/
def Obligations.NopResult : Prop :=
  ∀ s : State, s.busy = false → exec .nop s = .next { s with op := 0, idx := 0, arg := 0, err := 0, done := true }

/-- `40_crc.md` R124. -/
def Obligations.CrcInitResult : Prop :=
  ∀ s : State, s.busy = false →
    exec .crcInit s = .next { s with op := 0x1, idx := 0, arg := 0, crc := 0xFFFF, err := 0, done := true } ∧
    ∀ idx arg, ¬ (idx = 0 ∧ arg = 0) →
      runRaw (.command (commandWord 0x1 idx arg)) s = .next (illegalOutcome 0x1 idx arg s)

/-- `40_crc.md` R125. -/
def Obligations.CrcByteResult : Prop :=
  (∀ (s : State) (b : Byte), s.busy = false →
    exec (.crcByte b) s =
      .next { s with op := 0x2, idx := 0, arg := b, crc := crcStep s.crc b, err := 0, done := true } ∧
    ∀ idx, idx ≠ 0 → runRaw (.command (commandWord 0x2 idx b)) s = .next (illegalOutcome 0x2 idx b s)) ∧
  crcStep 0x0000 0x00 = 0x0000 ∧ crcStep 0xFFFF 0x02 = 0x813E

/-- `41_frame_codec.md` R142. -/
def Obligations.EncodeResult : Prop :=
  ∀ (s : State) (a : Byte), s.busy = false →
    exec (.encode a) s = .next { s with
      op := 0x3, idx := 0, arg := a, txbuf := request a, crc := u16 (request a)[7] (request a)[6], err := 0,
      done := true } ∧
    u16 (request a)[7] (request a)[6] = crc16 [a, 0x03, 0x00, 0x00, 0x00, 0x01] ∧
    ∀ idx, idx ≠ 0 → runRaw (.command (commandWord 0x3 idx a)) s = .next (illegalOutcome 0x3 idx a s)

/-- `41_frame_codec.md` R144, with its corner cases: 0 right after reset, 1 right after any ENCODE. -/
def Obligations.VerifyResult : Prop :=
  (∀ s : State, s.busy = false → ∃ c ok,
    c = crc16 [s.txbuf[0], s.txbuf[1], s.txbuf[2], s.txbuf[3], s.txbuf[4], s.txbuf[5]] ∧
    (ok = true ↔ lo8 c = s.txbuf[6] ∧ hi8 c = s.txbuf[7]) ∧
    exec .verify s = .next { s with
      op := 0x4, idx := 0, arg := 0, crc := c, frameOk := ok, err := 0, done := true }) ∧
  (∀ (s : State) (idx : BitVec 4) (arg : Byte), s.busy = false → ¬ (idx = 0 ∧ arg = 0) →
    runRaw (.command (commandWord 0x4 idx arg)) s = .next (illegalOutcome 0x4 idx arg s)) ∧
  (∀ c : Config, ∃ t, exec .verify (State.resetWith c) = .next t ∧ t.frameOk = false ∧ t.crc = 0x1B00) ∧
  (∀ (s : State) (a : Byte), s.busy = false → ∃ t u,
    exec (.encode a) s = .next t ∧ exec .verify t = .next u ∧ u.frameOk = true)

/-- `41_frame_codec.md` R145: an index up to 7 stores one byte; a greater one is illegal and `TXBUF` keeps its bytes. -/
def Obligations.LdtxResult : Prop :=
  ∀ (s : State) (i : BitVec 4) (b : Byte), s.busy = false →
    (∀ h : i.toNat < 8, exec (.ldtx i b) s = .next { s with
      op := 0x5, idx := i, arg := b, txbuf := s.txbuf.set i.toNat b, err := 0, done := true }) ∧
    (7 < i.toNat → exec (.ldtx i b) s = .next (illegalOutcome 0x5 i b s))

/-- `42_direction_and_transmit.md` R173. The count `fresh` is the model's own (log 5). -/
def Obligations.FlushrxResult : Prop :=
  ∀ s : State, s.busy = false →
    (∃ f, exec .flushrx s =
      .next { s with op := 0x7, idx := 0, arg := 0, rxq := [], fresh := f, err := 0, done := true }) ∧
    ∀ idx arg, ¬ (idx = 0 ∧ arg = 0) →
      runRaw (.command (commandWord 0x7 idx arg)) s = .next (illegalOutcome 0x7 idx arg s)

/-! ## SEND and the transmit sequence -/

/-- `42_direction_and_transmit.md` R169, R168: SEND ends after `T_PRE + T_TX + T_POST` with the eight bytes on the wire,
the lines released, one `Sent` event; characters delivered in the transmit span are lost (`20_memory.md` R64 c). -/
def Obligations.SendResult : Prop :=
  ∀ s : State, s.busy = false → Idles s → ∃ T q d as,
    exec .send s = .next (sentState 0x6 0 0 s.txbuf s.crc T q d as s) ∧ TakesTime T s ∧
    (QuietTransmit T s → q = s.rxq ∧ as = s.arrivals.dropWhile fun a => decide (a.time < releaseTime T s))

/-- `42_direction_and_transmit.md` R167, `60_exceptions.md` R249 (d), U6: with a serialiser that never becomes idle every
command that transmits (SEND, PROBE, DISCOVER, READ, READ_RETRY, a request frame) stays in `TX_DRAIN` with the lines
asserted; only reset ends it. With any serialiser such a command ends or comes to that hang, and it hangs only if some
plan never becomes idle (log 6). -/
def Obligations.SendHangs : Prop :=
  (∀ (s b : State) (i : Instr), s.busy = false → beginPhases i s = some b → ¬ Idles s →
    ∃ t, exec i s = .next t ∧ Hung t ∧ t.done = false) ∧
  (∀ (s b : State) (i : Instr), s.busy = false → beginPhases i s = some b → ∃ t, exec i s = .next t ∧
    ((t.busy = false ∧ t.done = true) ∨ (Hung t ∧ t.done = false ∧ ¬ AlwaysIdles s))) ∧
  (∀ s : State, Hung s → resetDue s = false → ∃ t, step s = .next t ∧ Hung t ∧ t.done = false)

/-- `30_encoding.md` R91, `41_frame_codec.md` R140, R142, `42_direction_and_transmit.md` R169: the frame is put in `TXBUF`
with its CRC bytes in `CRC`, then transmitted. That the frame as an instruction means this is log 8. -/
def Obligations.RequestFrameResult : Prop :=
  ∀ (s : State) (a l h : Byte), s.busy = false → Idles s → ∃ T q d as,
    exec (.requestFrame a l h) s =
      .next (sentState 0x6 0 0 #v[a, 0x03, 0x00, 0x00, 0x00, 0x01, l, h] (u16 h l) T q d as s) ∧ TakesTime T s ∧
    (QuietTransmit T s → q = s.rxq ∧ as = s.arrivals.dropWhile fun a => decide (a.time < releaseTime T s))

/-- `42_direction_and_transmit.md` R164: the table, row by row, and that no other transition changes the lines. -/
def Obligations.ArbiterPhases : Prop :=
  (∀ (s b : State) (i : Instr), beginPhases i s = some b →
    b.ph = .txPre ∧ b.tmr = s.cfg.tPre ∧ b.de = true ∧ b.rdis = true) ∧
  (∀ s t : State, phaseStep s = .next t → (t.de = s.de ∧ t.rdis = s.rdis) ∨
    (s.ph = .txPost ∧ s.tmr = 0 ∧ (t.ph = .rxWait ∨ t.ph = .idle) ∧ t.de = false ∧ t.rdis = false) ∨
    ((s.ph = .gap ∨ s.ph = .backoff) ∧ s.tmr = 0 ∧ t.ph = .txPre ∧ t.tmr = s.cfg.tPre ∧ t.de = true ∧ t.rdis = true)) ∧
  ∀ s : State,
    (s.ph = .txPre → s.tmr ≠ 0 → ∃ t, phaseStep s = .next t ∧ t.ph = .txPre ∧ t.tmr = s.tmr - 1 ∧ t.de = s.de ∧
      t.rdis = s.rdis) ∧
    (s.ph = .txPre → s.tmr = 0 → ∃ t, phaseStep s = .next t ∧ t.ph = .txData ∧ t.txi = 0 ∧ t.de = s.de ∧
      t.rdis = s.rdis) ∧
    (s.ph = .txData → s.txi.toNat < 8 → ∃ t, phaseStep s = .next t ∧ t.ph = .txData ∧ t.de = s.de ∧ t.rdis = s.rdis ∧
      (t.txi = s.txi ∨ t.txi = s.txi + 1)) ∧
    (s.ph = .txData → 8 ≤ s.txi.toNat → ∃ t, phaseStep s = .next t ∧ t.ph = .txDrain ∧ t.de = s.de ∧ t.rdis = s.rdis) ∧
    (s.ph = .txDrain → s.txpend ≠ 0 → ∃ t, phaseStep s = .next t ∧ t.ph = .txDrain ∧ t.de = s.de ∧ t.rdis = s.rdis) ∧
    (s.ph = .txDrain → s.txpend = 0 → ∃ t, phaseStep s = .next t ∧ t.ph = .txPost ∧ t.tmr = s.cfg.tPost ∧ t.de = s.de ∧
      t.rdis = s.rdis) ∧
    (s.ph = .txPost → s.tmr ≠ 0 → ∃ t, phaseStep s = .next t ∧ t.ph = .txPost ∧ t.tmr = s.tmr - 1 ∧ t.de = s.de ∧
      t.rdis = s.rdis) ∧
    (s.ph = .txPost → s.tmr = 0 → sending s.op → ∃ t, phaseStep s = .next t ∧ t.de = false ∧ t.rdis = false ∧
      t.trace = s.trace ++ [.sent s.txbuf] ∧ (t.ph = .idle ↔ s.op = 0x6) ∧ (t.ph = .rxWait ↔ s.op ≠ 0x6))

/-- `42_direction_and_transmit.md` R166, R164, `20_memory.md` R73, `10_state.md` R43: a byte goes to the serialiser only in
`TX_DATA`, in index order, the first like every other one only when `tx_ready`, and counts as pending; in a tick in which
it is not ready the block waits, and `TXPEND` drops by the characters that end. When the serialiser is ready and how many
end is its plan (log 6). -/
def Obligations.BytesLeaveInOrder : Prop :=
  (∀ s t : State, phaseStep s = .next t →
    t.txd = s.txd ∨
      s.ph = .txData ∧ txReady s = true ∧ ∃ h : s.txi.toNat < 8,
        t.txd = s.txd ++ [s.txbuf[s.txi.toNat]] ∧ t.txi = s.txi + 1 ∧ t.txpend = s.txpend + 1) ∧
  ∀ s : State, s.ph = .txData → ∀ h : s.txi.toNat < 8,
    (txReady s = true → ∃ ps, phaseStep s = .next { s with
      txd := s.txd ++ [s.txbuf[s.txi.toNat]], txi := s.txi + 1, txpend := s.txpend + 1, plans := ps }) ∧
    (∀ k ts, (plan s).hand = k :: ts → k.taken = 0 → ∃ q f m d as, phaseStep s = .next { s with
      clock := s.clock + 1, txpend := s.txpend - k.ended, plans := { plan s with hand := ts } :: s.plans.tail,
      rxq := q, fresh := f, missed := m, draws := d, arrivals := as })

/-! ## The receive side -/

/-- `20_memory.md` R64, R74, `42_direction_and_transmit.md` R165, R174, `10_state.md` R41, R42, for characters that straddle
no change of the lines (those are R65's): one delivery; a delay of any length, with the receiver enabled and disabled; one
tick of an idle block; one tick of `GAP` and of `BACKOFF`. The counts `fresh` and `missed` are the model's own (log 5);
that a character due at the very end of a span stays pending, that an idle step is one tick, and that `TMR` keeps its
value while the block is idle, is its choice (log 12, log 13, log 19). -/
def Obligations.DeliveryOfAByte : Prop :=
  (∀ (s : State) (a : Arrival), straddles s a = false →
    (s.rdis = false → s.rxq.length < s.cfg.rxqCap →
      ∃ f, deliver a s = { s with rxq := s.rxq ++ [a.byte], fresh := f }) ∧
    (s.rdis = false → s.cfg.rxqCap ≤ s.rxq.length → deliver a s = s) ∧
    (s.rdis = true → ∃ m, deliver a s = { s with missed := m })) ∧
  (∀ (s : State) (T : BitVec 16), CleanBus s →
    (s.rdis = false → ∃ f m, delay T s = { listening T.toNat s with tmr := 0, fresh := f, missed := m }) ∧
    (s.rdis = true → ∃ f m, delay T s = { deaf T.toNat s with tmr := 0, fresh := f, missed := m })) ∧
  (∀ s : State, CleanBus s → s.rdis = false → resetDue s = false → dueOffer s = none →
    (s.busy = false → ∃ f m,
      step s = .next { listening 1 s with done := false, shown := s.trace.length, fresh := f, missed := m }) ∧
    (s.busy = true → (s.ph = .gap ∨ s.ph = .backoff) → s.tmr ≠ 0 → ∃ f m,
      step s = .next { listening 1 s with
        done := false, shown := s.trace.length, tmr := s.tmr - 1, fresh := f, missed := m }))

/-- `20_memory.md` R65, U3: a straddling character queues the byte sent, another, or nothing, and changes nothing else of
the block, one on which a command acts in its tick before a `DirTx()` included (`State.turns`, log 18). Which
of them is the free value of log 5, so the statement holds for each. -/
def Obligations.StraddlingByte : Prop :=
  ∀ (s : State) (a : Arrival), straddles s a = true → ∃ q f,
    deliver a s = { s with rxq := q, fresh := f, draws := s.draws + 1 } ∧
    (q = s.rxq ∨ ∃ b, q = s.rxq ++ [b] ∧ s.rxq.length < s.cfg.rxqCap)

/-- `42_direction_and_transmit.md` R172, on a bus in order with the receiver enabled: `Got` exactly when the count is
reached by the deadline, at the earliest such instant; nothing is consumed, and only time, the queue and `TMR` change. The
queue is what it was and behind it the bytes delivered, in the order delivered (`20_memory.md` R74), up to the `n`th.
`TMR` is what R42 leaves of T when the wait ends; what it does after that is log 19 and not stated here. -/
def Obligations.WaitForBytes : Prop :=
  ∀ (n : Nat) (T : BitVec 16) (s : State), 1 ≤ n → n ≤ s.cfg.rxqCap → s.rdis = false → CleanBus s →
    ∃ got q f m as c, waitRx n T s =
        (got, { s with
          rxq := q, fresh := f, missed := m, arrivals := as, clock := c, tmr := T - BitVec.ofNat 16 (c - s.clock) }) ∧
      (got = true ↔ n ≤ s.rxq.length + arrivedBy (s.clock + T.toNat) s.arrivals) ∧
      (got = false → c = s.clock + T.toNat) ∧
      (got = true → s.clock ≤ c ∧ c ≤ s.clock + T.toNat ∧ n ≤ s.rxq.length + arrivedBy c s.arrivals ∧
        ∀ u, s.clock ≤ u → u < c → s.rxq.length + arrivedBy u s.arrivals < n) ∧
      q = (s.rxq ++ bytesComing (fun t => decide (t ≤ s.clock + T.toNat)) s).take (max s.rxq.length n) ∧
      as = s.arrivals.drop (q.length - s.rxq.length) ∧ s.rxq <+: q ∧ (got = true ↔ n ≤ q.length)

/-! ## The transactions -/

/-- `43_transactions.md` R191, R192: what PROBE leaves when a byte came by the deadline (`got`), and when none did. With no
straddling character the queue then holds the first byte delivered after the release, if one came in time. `TMR` is what
R42 leaves of `T_PROBE` when the wait ends; that it stays so afterwards is log 19 and not stated here. -/
def Obligations.ProbeResult : Prop :=
  ∀ (s : State) (a : Byte), s.busy = false → Idles s → ∃ got T q f d as c,
    exec (.probe a) s = .next { sentState 0x8 0 a (request a) (requestCrc a) T q d as s with
      err := if got then 0 else 3
      addr := if got then a else s.addr
      conf := if got then true else s.conf
      trace := s.trace ++ [.sent (request a), if got then .discovered a else .error 3]
      fresh := f
      clock := c
      tmr := s.cfg.tProbe - BitVec.ofNat 16 (c - releaseTime T s) } ∧
    TakesTime T s ∧ releaseTime T s ≤ c ∧ c ≤ releaseTime T s + s.cfg.tProbe.toNat ∧
    (got = true ↔ q ≠ []) ∧ (got = false → c = releaseTime T s + s.cfg.tProbe.toNat) ∧
    (QuietTransmit T s → Steady s → q = (bytesComing (fun t => decide (releaseTime T s < t ∧
      t ≤ releaseTime T s + s.cfg.tProbe.toNat)) s).take 1)

/-- `43_transactions.md` R192 corner cases (a) to (c), `42_direction_and_transmit.md` R172: on a bus with no straddling
character, PROBE succeeds exactly when some byte is delivered after the release and by the deadline; bytes queued before
the command and bytes delivered before the release do not count. -/
def Obligations.ProbeAnsweredExactly : Prop :=
  ∀ (s : State) (a : Byte) (p : SerialPlan) (ps : List SerialPlan), s.busy = false → s.plans = p :: ps →
    p.idles = true → QuietTransmit (serialTime p) s → Steady s →
    ∃ t, exec (.probe a) s = .next t ∧
      (t.err = 0 ↔ ∃ x ∈ s.arrivals, releaseTime (serialTime p) s < x.time ∧
        x.time ≤ releaseTime (serialTime p) s + s.cfg.tProbe.toNat)

/-- `43_transactions.md` R193, `92_eei_decisions.md` D17: DISCOVER stops at the first candidate that is answered and adopts
it; when none is, the address stays and the outcome is DiscoveryFailed. `TRACE` shows which candidates were tried, in list
order. With candidates it leaves, clock included, exactly what PROBE of one after another leaves, with `T_GAP` between
two and nowhere else (`probesUntil`). That `CI` is left alone where there is no candidate is the model's choice (log 11). -/
def Obligations.DiscoverResult : Prop :=
  ∀ s : State, s.busy = false → AlwaysIdles s → ∃ t, exec .discover s = .next t ∧
    t.busy = false ∧ t.done = true ∧ t.ph = .idle ∧ t.op = 0x9 ∧ t.idx = 0 ∧ t.arg = 0 ∧
    ((∃ (i : Nat) (c : Byte), s.cfg.cand[i]? = some c ∧ t.err = 0 ∧ t.addr = c ∧ t.conf = true ∧
        t.ci = BitVec.ofNat 8 i ∧ t.txbuf = request c ∧
        t.trace = s.trace ++ (s.cfg.cand.take i).flatMap failedProbeEvents ++ [.sent (request c), .discovered c]) ∨
      (t.err = 2 ∧ t.addr = s.addr ∧ t.conf = s.conf ∧
        t.trace = s.trace ++ s.cfg.cand.flatMap failedProbeEvents ++ [.error 2] ∧
        (s.cfg.cand = [] → t = { s with
          op := 0x9, idx := 0, arg := 0, ph := .idle, err := 2, trace := s.trace ++ [.error 2], done := true }))) ∧
    (s.cfg.cand ≠ [] → t.de = false ∧ t.rdis = false ∧ t.txpend = 0 ∧
      ∃ v, probesUntil 0 s.cfg.cand s = some v ∧ t = { v with op := 0x9, idx := 0, arg := 0 }) ∧
    t.rxbuf = s.rxbuf ∧ t.raw = s.raw ∧ t.frameOk = s.frameOk ∧ t.rspCrcOk = s.rspCrcOk ∧ t.nodata = s.nodata ∧
    t.att = s.att ∧ t.cfg = s.cfg

/-- `43_transactions.md` R195, R197, `42_direction_and_transmit.md` R168, R172, `20_memory.md` R74: the four paths of READ.
`w` is the block when the wait has ended, after the request to `ADDR` was transmitted and the lines were released; its
queue is what READ times out on or takes its seven bytes from. With no straddling character that queue holds what was
queued before and behind it the bytes delivered after the release, in order, up to the seventh: so the reply that arrives
then is the one decoded. The serialiser's time `T` is its plan's (log 6). `TMR` is what R42 leaves of `T_READ` when the
wait ends; that it stays so afterwards is log 19 and not stated here. -/
def Obligations.ReadResult : Prop :=
  ∀ s : State, s.busy = false → Idles s → ∃ (T : Nat) (z : State),
    TakesTime T s ∧ transmit (buildRead (accept 0xA 0 0 s)) = .ended () z ∧ z.clock = releaseTime T s ∧
    let w := (waitRx rspMin s.cfg.tRead { z with ph := .rxWait }).2
    let u : State := { sentState 0xA 0 0 (request s.addr) (requestCrc s.addr) T w.rxq w.draws w.arrivals s with
      fresh := w.fresh
      clock := w.clock
      tmr := s.cfg.tRead - BitVec.ofNat 16 (w.clock - releaseTime T s) }
    releaseTime T s ≤ w.clock ∧ w.clock ≤ releaseTime T s + s.cfg.tRead.toNat ∧
    (QuietTransmit T s → Steady s → w.rxq = (s.rxq ++ bytesComing (fun t => decide (releaseTime T s < t ∧
      t ≤ releaseTime T s + s.cfg.tRead.toNat)) s).take (max s.rxq.length 7)) ∧
    ((w.rxq.length < 7 ∧ w.clock = releaseTime T s + s.cfg.tRead.toNat ∧
      exec .read s = .next { u with rxq := [], fresh := 0, err := 3, trace := u.trace ++ [.error 3] }) ∨
    (∃ (r : Frame7) (rest : List Byte), w.rxq = r.toList ++ rest ∧
      let v : State := { u with
        rxq := rest
        fresh := min w.fresh rest.length
        rxbuf := #v[r[0], r[1], r[2], r[3], r[4], r[5], r[6], s.rxbuf[7]]
        crc := crc16 [r[0], r[1], r[2], r[3], r[4]]
        rspCrcOk := rspCrcMatches r }
      (decodeReply s.cfg r s.addr = .mismatch ∧
        exec .read s = .next { v with err := 4, trace := u.trace ++ [.received r, .error 4] }) ∨
      (decodeReply s.cfg r s.addr = .badCrc ∧
        exec .read s = .next { v with err := 6, trace := u.trace ++ [.received r, .error 6] }) ∨
      (∃ x, decodeReply s.cfg r s.addr = .ok x ∧
        exec .read s = .next { v with err := 0, raw := x, trace := u.trace ++ [.received r, .reading x] })))

/-- `43_transactions.md` R198 (a), (b), `60_exceptions.md` R231: on a bus with no straddling character, READ times out
exactly when fewer than 7 bytes are queued by the deadline, the bytes already queued counted. -/
def Obligations.ReadTimesOutExactly : Prop :=
  ∀ (s : State) (p : SerialPlan) (ps : List SerialPlan), s.busy = false → s.plans = p :: ps → p.idles = true →
    QuietTransmit (serialTime p) s → Steady s →
    ∃ t, exec .read s = .next t ∧
      (t.err = 3 ↔ s.rxq.length + (s.arrivals.filter fun x => decide (releaseTime (serialTime p) s < x.time ∧
        x.time ≤ releaseTime (serialTime p) s + s.cfg.tRead.toNat)).length < 7)

/-- `43_transactions.md` R194, R198 (d), `70_reset_and_hazards.md` R272: with seven bytes already queued READ takes them at
the instant of release, whatever the device answers. -/
def Obligations.ReadTakesStaleBytes : Prop :=
  ∀ (s : State) (p : SerialPlan) (ps : List SerialPlan) (r : Frame7) (rest : List Byte), s.busy = false →
    s.plans = p :: ps → p.idles = true → QuietTransmit (serialTime p) s → s.rxq = r.toList ++ rest →
    ∃ t, exec .read s = .next t ∧ t.clock = releaseTime (serialTime p) s ∧ t.rxq = rest ∧
      t.rxbuf = #v[r[0], r[1], r[2], r[3], r[4], r[5], r[6], s.rxbuf[7]] ∧
      (∀ x, decodeReply s.cfg r s.addr = .ok x → t.err = 0 ∧ t.raw = x)

/-- `43_transactions.md` R199, `60_exceptions.md` R234: READ_RETRY ends, its outcome and `NODATA` as the last attempt has
them (`ERR` is the one of the last event, which the last attempt emitted), and what it leaves alone. -/
def Obligations.ReadRetryResult : Prop :=
  ∀ s : State, s.busy = false → AlwaysIdles s → ∃ (t : State) (k : Nat), exec .readRetry s = .next t ∧
    1 ≤ k ∧ k ≤ s.cfg.nAttempts ∧ t.att = BitVec.ofNat 8 k ∧
    t.busy = false ∧ t.done = true ∧ t.ph = .idle ∧ t.de = false ∧ t.rdis = false ∧ t.txpend = 0 ∧
    t.op = 0xB ∧ t.idx = 0 ∧ t.arg = 0 ∧ t.txbuf = request s.addr ∧ t.txd = s.txd ++ (List.replicate k (request s.addr).toList).flatten ∧
    (t.err = 0 ∨ t.err = 3 ∨ t.err = 4 ∨ t.err = 6) ∧
    t.trace.getLast? = some (if t.err = 0 then .reading t.raw else .error t.err) ∧
    (t.nodata = false ↔ t.err = 0 ∧ passes s.cfg t.raw = true) ∧ (t.nodata = true → k = s.cfg.nAttempts) ∧
    s.trace <+: t.trace ∧
    t.addr = s.addr ∧ t.conf = s.conf ∧ t.frameOk = s.frameOk ∧ t.ci = s.ci ∧ t.rxbuf[7] = s.rxbuf[7] ∧ t.cfg = s.cfg

/-- `43_transactions.md` R199: READ_RETRY is READ repeated, with the backoff between attempts. -/
def Obligations.ReadRetryIsRepeatedRead : Prop :=
  ∀ s : State, s.busy = false → AlwaysIdles s →
    ∃ t, readsUntil (s.cfg.nAttempts - 1) 1 s = some t ∧ exec .readRetry s = .next { t with op := 0xB }

/-! ## Replies as instructions -/

/-- `20_memory.md` R64, `30_encoding.md` R93: seven bytes arrive, in any state; while no command waits for them they are
queued up to the capacity, or lost while the receiver is disabled. The frame as an instruction is log 8, the counts
`fresh` and `missed` are the model's own (log 5). -/
def Obligations.ReplyFrameIsDelivered : Prop :=
  ∀ (s : State) (a n d e l h : Byte),
    (∃ t, exec (.replyFrame a n d e l h) s = .next t ∧ t.txbuf = s.txbuf ∧ t.txd = s.txd ∧ t.de = s.de ∧
      t.rdis = s.rdis ∧ t.clock = s.clock ∧ t.cfg = s.cfg) ∧
    (s.dirAt ≠ some s.clock → s.clock ∉ s.turns → s.rdis = false → (s.busy = false ∨ s.ph ≠ .rxWait) → ∃ f,
      exec (.replyFrame a n d e l h) s = .next { s with
        rxq := s.rxq ++ [a, 0x03, n, d, e, l, h].take (s.cfg.rxqCap - s.rxq.length), fresh := f }) ∧
    (s.dirAt ≠ some s.clock → s.rdis = true → (s.busy = false ∨ s.ph ≠ .rxWait) → ∃ m,
      exec (.replyFrame a n d e l h) s = .next { s with missed := m })

/-- `43_transactions.md` R191, R193, R195, R199, `42_direction_and_transmit.md` R172: seven bytes arrive while a command
waits in `RX_WAIT`. READ with an empty queue takes, checks and decodes them, and ends. READ and READ_RETRY with bytes
queued before take the seven oldest at the byte that brings the count to seven (at the first one if they are there), and
the rest of the frame is queued; READ ends with the outcome, READ_RETRY ends with a reading that passes or after its last
attempt and else goes to `BACKOFF`. PROBE and DISCOVER end at the first byte, and the frame is queued. The frame as an
instruction is log 8, the count `fresh` is the model's own (log 5). -/
def Obligations.ReplyFrameAnswersRead : Prop :=
  (∀ (s : State) (a n d e l h : Byte), s.dirAt ≠ some s.clock → s.clock ∉ s.turns → s.busy = true → s.ph = .rxWait →
    s.op = 0xA → s.rdis = false → s.rxq = [] →
    let r : Frame7 := #v[a, 0x03, n, d, e, l, h]
    let v : State := { s with
      rxq := [], fresh := 0, rxbuf := #v[a, 0x03, n, d, e, l, h, s.rxbuf[7]], crc := crc16 [a, 0x03, n, d, e]
      rspCrcOk := rspCrcMatches r, ph := .idle, busy := false, done := true }
    (a ≠ s.addr → exec (.replyFrame a n d e l h) s =
      .next { v with err := 4, trace := s.trace ++ [.received r, .error 4] }) ∧
    (a = s.addr → s.cfg.rspCrcEnforce = true → rspCrcMatches r = false → exec (.replyFrame a n d e l h) s =
      .next { v with err := 6, trace := s.trace ++ [.received r, .error 6] }) ∧
    (a = s.addr → (s.cfg.rspCrcEnforce = false ∨ rspCrcMatches r = true) → exec (.replyFrame a n d e l h) s =
      .next { v with err := 0, raw := u16 d e, trace := s.trace ++ [.received r, .reading (u16 d e)] })) ∧
  ∀ (s : State) (a n d e l h : Byte), s.dirAt ≠ some s.clock → s.clock ∉ s.turns → s.busy = true → s.ph = .rxWait →
    s.rdis = false → s.rxq.length ≤ s.cfg.rxqCap →
    let bytes : List Byte := [a, 0x03, n, d, e, l, h]
    let i := max 1 (7 - s.rxq.length)
    (∀ (r : Frame7) (rest : List Byte),
      s.rxq ++ (bytes.take i).take (s.cfg.rxqCap - s.rxq.length) = r.toList ++ rest →
      let v : State := { (replyTaken r rest s).2 with rxq := rest ++ bytes.drop i }
      let x := (replyTaken r rest s).1
      (s.op = 0xA → ∃ f, exec (.replyFrame a n d e l h) s =
        .next { v with err := x, ph := .idle, busy := false, done := true, fresh := f }) ∧
      (s.op = 0xB → x = 0 → passes s.cfg v.raw = true → ∃ f, exec (.replyFrame a n d e l h) s =
        .next { v with err := x, nodata := false, ph := .idle, busy := false, done := true, fresh := f }) ∧
      (s.op = 0xB → ¬ (x = 0 ∧ passes s.cfg v.raw = true) → s.att.toNat < s.cfg.nAttempts → ∃ f,
        exec (.replyFrame a n d e l h) s = .next { v with ph := .backoff, tmr := s.cfg.tBackoff, fresh := f }) ∧
      (s.op = 0xB → ¬ (x = 0 ∧ passes s.cfg v.raw = true) → s.cfg.nAttempts ≤ s.att.toNat → ∃ f,
        exec (.replyFrame a n d e l h) s =
          .next { v with err := x, nodata := true, ph := .idle, busy := false, done := true, fresh := f })) ∧
    (∀ c : Byte, (s.op = 0x8 ∧ c = s.arg) ∨ (s.op = 0x9 ∧ candidate s = some c) → ∃ f,
      exec (.replyFrame a n d e l h) s = .next { s with
        rxq := s.rxq ++ bytes.take (s.cfg.rxqCap - s.rxq.length), addr := c, conf := true, err := 0, ph := .idle,
        busy := false, done := true, trace := s.trace ++ [.discovered c], fresh := f })

/-! ## Invariants and rules over all instructions -/

/-- `10_state.md` R50 and R49: the machine starts in its invariant, whatever its parameters. -/
def Obligations.InvAfterReset : Prop := Inv State.reset ∧ ∀ c : Config, Inv (State.resetWith c)

/-- `10_state.md` R50: every step keeps the invariants (a) to (f). `Inv` adds to them that a command in progress is in its
place (`10_state.md` R30 to R33), without which they are not inductive. -/
def Obligations.StepKeepsInv : Prop :=
  (∀ s : State, Inv s →
    s.de = s.rdis ∧ (s.de = true ↔ s.ph = .txPre ∨ s.ph = .txData ∨ s.ph = .txDrain ∨ s.ph = .txPost) ∧
    (s.busy = false → s.ph = .idle ∧ s.de = false) ∧ s.rxq.length ≤ s.cfg.rxqCap ∧ (0 < s.txpend → s.de = true) ∧
    s.txi.toNat ≤ 8) ∧
  ∀ s t : State, Inv s → step s = .next t → Inv t

/-- `60_exceptions.md` R249 (a) to (c): errors are outcomes, and the block has no stuck state: in the invariant every step
has a next state. -/
def Obligations.StepNeverStops : Prop := ∀ s : State, Inv s → ∃ t, step s = .next t

/-- `42_direction_and_transmit.md` R175, `60_exceptions.md` R236: at every `done`, and whenever `BUSY = 0`, the lines are in
receive and the phase is `IDLE`. -/
def Obligations.LinesReleasedAtDone : Prop :=
  ∀ s t : State, Inv s → step s = .next t → (t.done = true ∨ t.busy = false) →
    t.busy = false ∧ t.ph = .idle ∧ t.de = false ∧ t.rdis = false

/-- `00_scope.md` R9. -/
def Obligations.ParametersNeverChange : Prop := ∀ s t : State, step s = .next t → t.cfg = s.cfg

/-- `10_state.md` R22, U5: the eighth slot of `RXBUF` keeps its reset value. -/
def Obligations.EighthReplySlotStaysZero : Prop :=
  ∀ s t : State, step s = .next t → s.rxbuf[7] = 0 → t.rxbuf[7] = 0

/-- `10_state.md` R26, R48, R45: but for reset, `CONF` is never cleared and `TRACE` only grows, by exactly the events that
the step presents on the event port, with their kinds and payloads in order; `ev_valid` says whether there is one. -/
def Obligations.ConfirmationAndTraceOnlyGrow : Prop :=
  ∀ s t : State, resetDue s = false → step s = .next t → (s.conf = true → t.conf = true) ∧ s.trace <+: t.trace ∧
    t.trace = s.trace ++ presented t ∧ (evValid t = true ↔ t.trace ≠ s.trace) ∧
    evPort t = (t.trace.drop s.trace.length).map fun e => (e.portKind, e.portData)

/-- `10_state.md` R25: but for reset, only a probe that succeeds changes `ADDR`, to the candidate it reports, and it sets
`CONF`. -/
def Obligations.AddressChangesOnlyByDiscovery : Prop :=
  ∀ s t : State, resetDue s = false → step s = .next t → t.addr ≠ s.addr →
    t.conf = true ∧ ∃ es, t.trace = s.trace ++ es ∧ Event.discovered t.addr ∈ es

/-- `43_transactions.md` R196, `10_state.md` R27: but for reset, only a read that decodes changes `RAW`, to the value it
reports; so no Timeout, mismatch or other failure does. -/
def Obligations.RawChangesOnlyByReading : Prop :=
  ∀ s t : State, resetDue s = false → step s = .next t → t.raw ≠ s.raw →
    ∃ es, t.trace = s.trace ++ es ∧ Event.reading t.raw ∈ es

/-- `00_scope.md` R14: the two levels give the same state: a command walked phase by phase comes, at `done`, to the state
its one step gives. It goes beyond R14 in that a command that hangs (`42_direction_and_transmit.md` R167) comes to the
hang. The two levels as walks and steps are the model's own (log 4). -/
def Obligations.PhasesReachTheCommandsState : Prop :=
  ∀ (s b : State) (i : Instr), s.busy = false → beginPhases i s = some b →
    ∃ (k : Nat) (t : State), phaseRun k b = .next t ∧ exec i s = .next t

end
end

