-- ==== Sys2Proof/Laws/Ops.lean ====
section
/-! SUPPORT. What each shared operation can do, said once: every lemma gives the state after as the state before with named
fields changed, so that a proof that cites it has the frame as well. -/
namespace Sys2Proof.Machine

/-! ## The receive queue -/

/-- A delivery changes the queue, its count of fresh bytes and the draw counter, and nothing else. -/
theorem queueByte_eq (b : Byte) (s : State) :
    ∃ q f, queueByte b s = { s with rxq := q, fresh := f } ∧ s.rxq <+: q ∧ q.length ≤ s.rxq.length + 1 ∧
      (s.rxq.length ≤ s.cfg.rxqCap → q.length ≤ s.cfg.rxqCap) := by
  unfold queueByte
  split
  · exact ⟨s.rxq ++ [b], s.fresh + 1, rfl, List.prefix_append _ _, by simp, fun _ => by simp; omega⟩
  · exact ⟨s.rxq, s.fresh, rfl, List.prefix_refl _, by omega, id⟩

/-- A draw queues at most one byte. -/
theorem drawByte_eq (s : State) :
    ∃ q f, drawByte s = { s with rxq := q, fresh := f, draws := s.draws + 1 } ∧ s.rxq <+: q ∧
      q.length ≤ s.rxq.length + 1 ∧ (s.rxq.length ≤ s.cfg.rxqCap → q.length ≤ s.cfg.rxqCap) := by
  unfold drawByte
  split
  · obtain ⟨q, f, h, hp, h1, hb⟩ := queueByte_eq ‹_› { s with draws := s.draws + 1 }
    exact ⟨q, f, h, hp, h1, hb⟩
  · exact ⟨s.rxq, s.fresh, rfl, List.prefix_refl _, by omega, id⟩

/-- A delivery changes the queue and the model's counts; only a disabled receiver misses it. -/
theorem deliver_eq (a : Arrival) (s : State) :
    ∃ q f m d, deliver a s = { s with rxq := q, fresh := f, missed := m, draws := d } ∧ s.rxq <+: q ∧
      q.length ≤ s.rxq.length + 1 ∧ (s.rxq.length ≤ s.cfg.rxqCap → q.length ≤ s.cfg.rxqCap) ∧
      (s.rdis = false → m = s.missed) := by
  unfold deliver
  split
  · obtain ⟨q, f, h, hp, h1, hb⟩ := drawByte_eq s
    exact ⟨q, f, s.missed, s.draws + 1, h, hp, h1, hb, fun _ => rfl⟩
  · split
    · exact ⟨s.rxq, s.fresh, s.missed + 1, s.draws, rfl, List.prefix_refl _, by omega, id, by simp_all⟩
    · obtain ⟨q, f, h, hp, h1, hb⟩ := queueByte_eq a.byte s
      exact ⟨q, f, s.missed, s.draws, h, hp, h1, hb, fun _ => rfl⟩

/-- While the receiver is disabled, only the last change of the lines can be straddled. -/
theorem straddles_disabled {a : Arrival} {s : State} (hr : s.rdis = true) :
    straddles s a = straddlesAt s.dirAt a := by
  simp [straddles, hr]

/-- While the receiver is disabled, a character that straddles no change of the lines is lost. -/
theorem deliver_lost {a : Arrival} {s : State} (hs : straddles s a = false) (hr : s.rdis = true) :
    deliver a s = { s with missed := s.missed + 1 } := by
  simp [deliver, hs, hr]

/-- While the receiver is enabled, a character that straddles no change of the lines goes to the queue. -/
theorem deliver_queued {a : Arrival} {s : State} (hs : straddles s a = false) (hr : s.rdis = false) :
    deliver a s = queueByte a.byte s := by
  simp [deliver, hs, hr]

theorem queueByte_room {b : Byte} {s : State} (h : s.rxq.length < s.cfg.rxqCap) :
    queueByte b s = { s with rxq := s.rxq ++ [b], fresh := s.fresh + 1 } := by
  simp [queueByte, h]

/-! ## Time -/

/-- What passing time can do to the queue and the characters to come, up to `clock = c`: the queue
grows at its tail within its capacity; with the receiver disabled and no straddling character it stays as it is; a
character leaves the list only when its time has come. -/
structure Passed (cap : Nat) (rdis : Bool) (straddle : Arrival → Bool) (c : Nat) (q₀ : List Byte)
    (as₀ : List Arrival) (q : List Byte) (as : List Arrival) : Prop where
  grows : q₀ <+: q
  bound : q₀.length ≤ cap → q.length ≤ cap
  lost : rdis = true → (∀ a ∈ as₀, straddle a = false) → q = q₀
  suffix : as <:+ as₀
  left : ∀ t, c ≤ t → as.dropWhile (fun a => decide (a.time < t)) = as₀.dropWhile (fun a => decide (a.time < t))

theorem Passed.refl {cap : Nat} {rdis : Bool} {st : Arrival → Bool} {c : Nat} {q : List Byte}
    {as : List Arrival} : Passed cap rdis st c q as q as :=
  ⟨List.prefix_refl _, id, fun _ _ => rfl, List.suffix_refl _, fun _ _ => rfl⟩

theorem Passed.trans {cap : Nat} {rdis : Bool} {st : Arrival → Bool} {c c' : Nat} {q₀ q₁ q₂ : List Byte}
    {as₀ as₁ as₂ : List Arrival} (h : Passed cap rdis st c q₀ as₀ q₁ as₁)
    (h' : Passed cap rdis st c' q₁ as₁ q₂ as₂) (hc : c ≤ c') : Passed cap rdis st c' q₀ as₀ q₂ as₂ where
  grows := h.grows.trans h'.grows
  bound := fun x => h'.bound (h.bound x)
  lost := fun hr ha => by
    have e₁ := h.lost hr ha
    have e₃ := h'.lost hr fun a m => ha a (h.suffix.subset m)
    exact e₃.trans e₁
  suffix := h'.suffix.trans h.suffix
  left := fun t ht => (h'.left t ht).trans (h.left t (by omega))

theorem dropWhile_before (as : List Arrival) {t u : Nat} (h : t ≤ u) :
    (as.dropWhile fun a => decide (a.time < t)).dropWhile (fun a => decide (a.time < u)) =
      as.dropWhile fun a => decide (a.time < u) := by
  induction as with
  | nil => rfl
  | cons a as ih =>
    by_cases ha : a.time < t
    · have : a.time < u := by omega
      simpa [List.dropWhile_cons, ha, this] using ih
    · simp [ha]

theorem deliverBefore_eq (t : Nat) (as : List Arrival) (s : State) :
    ∃ q f m d, deliverBefore t as s = { s with
        rxq := q, fresh := f, missed := m, draws := d, arrivals := as.dropWhile fun a => decide (a.time < t) } ∧
      Passed s.cfg.rxqCap s.rdis (straddlesAt s.dirAt) t s.rxq as q
        (as.dropWhile fun a => decide (a.time < t)) := by
  induction as generalizing s with
  | nil => exact ⟨s.rxq, s.fresh, s.missed, s.draws, rfl, Passed.refl⟩
  | cons a as ih =>
    unfold deliverBefore
    split
    · next ha =>
      obtain ⟨q₁, f₁, m₁, d₁, h₁, hp₁, -, hb₁, -⟩ := deliver_eq a s
      obtain ⟨q, f, m, d, h, hp⟩ := ih (deliver a s)
      have hlost : s.rdis = true → straddlesAt s.dirAt a = false → q₁ = s.rxq := by
        intro hr hs
        have := deliver_lost ((straddles_disabled hr).trans hs) hr
        rw [h₁] at this
        exact congrArg State.rxq this
      rw [h₁] at h hp
      refine ⟨q, f, m, d, by rw [h₁, h]; simp [ha], ?_⟩
      refine ⟨hp₁.trans hp.grows, fun hc => hp.bound (hb₁ hc), fun hr hs => ?_, ?_, fun u hu => ?_⟩
      · have e₁ := hlost hr (hs a List.mem_cons_self)
        have e₃ := hp.lost hr fun b m => hs b (List.mem_cons_of_mem _ m)
        exact e₃.trans e₁
      · exact List.dropWhile_suffix _
      · exact dropWhile_before _ hu
    · next ha =>
      refine ⟨s.rxq, s.fresh, s.missed, s.draws, by simp [ha], ?_⟩
      have : (a :: as).dropWhile (fun a => decide (a.time < t)) = a :: as := by simp [ha]
      rw [this]
      exact Passed.refl

/-- Time passing: the clock, what is still to arrive, the queue and the draw counter, and nothing else. -/
theorem elapse_eq (n : Nat) (s : State) :
    ∃ q f m d as, elapse n s =
        { s with rxq := q, fresh := f, missed := m, draws := d, arrivals := as, clock := s.clock + n } ∧
      Passed s.cfg.rxqCap s.rdis (straddlesAt s.dirAt) (s.clock + n) s.rxq s.arrivals q as ∧
      (0 < n → f = 0 ∧ m = 0 ∧ as = s.arrivals.dropWhile fun a => decide (a.time < s.clock + n)) ∧
      (s.fresh = 0 → f = 0) ∧ (s.missed = 0 → m = 0) := by
  unfold elapse
  split
  · next h => subst h; exact ⟨s.rxq, s.fresh, s.missed, s.draws, s.arrivals, rfl, Passed.refl, by omega, id, id⟩
  · obtain ⟨q, f, m, d, h, hp⟩ := deliverBefore_eq (s.clock + n) s.arrivals s
    exact ⟨q, 0, 0, d, _, by rw [h], hp, fun _ => ⟨rfl, rfl, rfl⟩, fun _ => rfl, fun _ => rfl⟩

theorem delay_eq (T : BitVec 16) (s : State) :
    ∃ q f m d as, delay T s =
        { s with rxq := q, fresh := f, missed := m, draws := d, arrivals := as, clock := s.clock + T.toNat, tmr := 0 } ∧
      Passed s.cfg.rxqCap s.rdis (straddlesAt s.dirAt) (s.clock + T.toNat) s.rxq s.arrivals q as ∧
      (0 < T.toNat → f = 0 ∧ m = 0 ∧ as = s.arrivals.dropWhile fun a => decide (a.time < s.clock + T.toNat)) ∧
      (s.fresh = 0 → f = 0) ∧ (s.missed = 0 → m = 0) ∧ (T.toNat = 0 → as = s.arrivals) := by
  obtain ⟨q, f, m, d, as, h, hp, hn, hf, hm⟩ := elapse_eq T.toNat { s with tmr := T }
  refine ⟨q, f, m, d, as, by unfold delay; rw [h], hp, hn, hf, hm, fun h0 => ?_⟩
  have : elapse T.toNat { s with tmr := T } = { s with tmr := T } := by simp [elapse, h0]
  rw [this] at h
  exact (congrArg State.arrivals h).symm

/-- Time up to `t` passes with nothing delivered. -/
theorem reach_eq (t : Nat) (s : State) :
    ∃ f m c, reach t s = { s with fresh := f, missed := m, clock := c } ∧ c = max s.clock t ∧
      (s.missed = 0 → m = 0) := by
  unfold reach
  split
  · exact ⟨0, 0, t, rfl, by omega, fun _ => rfl⟩
  · exact ⟨s.fresh, s.missed, s.clock, rfl, by omega, id⟩

/-- The wait for `n` bytes: the fields it changes, and what each of its two answers means. -/
theorem waitUntil_eq (n deadline : Nat) (as : List Arrival) (s : State) (has : s.arrivals = as) :
    ∃ q f m d as' c, (waitUntil n deadline as s).2 =
        { s with rxq := q, fresh := f, missed := m, draws := d, arrivals := as', clock := c } ∧
      s.rxq <+: q ∧ (s.rxq.length ≤ s.cfg.rxqCap → q.length ≤ s.cfg.rxqCap) ∧ s.clock ≤ c ∧
      ((waitUntil n deadline as s).1 = true → n ≤ q.length ∧ c ≤ max s.clock deadline) ∧
      ((waitUntil n deadline as s).1 = false → q.length < n ∧ c = max s.clock deadline) ∧
      (s.rdis = false → s.missed = 0 → m = 0) := by
  have got : ∀ s : State, n ≤ s.rxq.length → ∃ q f m d as' c, s =
        { s with rxq := q, fresh := f, missed := m, draws := d, arrivals := as', clock := c } ∧
      s.rxq <+: q ∧ (s.rxq.length ≤ s.cfg.rxqCap → q.length ≤ s.cfg.rxqCap) ∧ s.clock ≤ c ∧
      (true = true → n ≤ q.length ∧ c ≤ max s.clock deadline) ∧
      (true = false → q.length < n ∧ c = max s.clock deadline) ∧ (s.rdis = false → s.missed = 0 → m = 0) :=
    fun s h => ⟨s.rxq, s.fresh, s.missed, s.draws, s.arrivals, s.clock, rfl, List.prefix_refl _, id, by omega,
      fun _ => ⟨h, by omega⟩, by simp, fun _ => id⟩
  have expired : ∀ s : State, ¬ n ≤ s.rxq.length → ∃ q f m d as' c, reach deadline s =
        { s with rxq := q, fresh := f, missed := m, draws := d, arrivals := as', clock := c } ∧
      s.rxq <+: q ∧ (s.rxq.length ≤ s.cfg.rxqCap → q.length ≤ s.cfg.rxqCap) ∧ s.clock ≤ c ∧
      (false = true → n ≤ q.length ∧ c ≤ max s.clock deadline) ∧
      (false = false → q.length < n ∧ c = max s.clock deadline) ∧ (s.rdis = false → s.missed = 0 → m = 0) := by
    intro s hq
    obtain ⟨f, m, c, h, hc, hm⟩ := reach_eq deadline s
    exact ⟨s.rxq, f, m, s.draws, s.arrivals, c, h, List.prefix_refl _, id, by omega, by simp,
      fun _ => ⟨by omega, hc⟩, fun _ => hm⟩
  induction as generalizing s with
  | nil =>
    unfold waitUntil
    split
    · exact got s ‹_›
    · exact expired s ‹_›
  | cons a as ih =>
    unfold waitUntil
    split
    · exact got s ‹_›
    · split
      · obtain ⟨f₁, m₁, c₁, h₁, hc₁, hm₁⟩ := reach_eq a.time { s with arrivals := as }
        obtain ⟨q₂, f₂, m₂, d₂, h₂, hp₂, -, hb₂, hm₂⟩ := deliver_eq a (reach a.time { s with arrivals := as })
        obtain ⟨q, f, m, d, as', c, h, hp, hb, hc, hg, he, hm⟩ :=
          ih (deliver a (reach a.time { s with arrivals := as })) (by rw [h₂, h₁])
        rw [h₁] at h₂ hp₂ hb₂ hm₂
        rw [h₁, h₂] at h hp hb hc hg he hm
        rw [h₁, h₂]
        simp only at hc₁ hm₁ hm₂ hm hc hg he
        refine ⟨q, f, m, d, as', c, h, hp₂.trans hp, fun hx => hb (hb₂ hx), by omega, ?_, ?_,
          fun hr h0 => hm hr ((hm₂ hr).trans (hm₁ h0))⟩
        · intro hx; have := hg hx; omega
        · intro hx; have := he hx; omega
      · exact expired s ‹_›

/-- `WaitRx(n, T)`. -/
theorem waitRx_eq (n : Nat) (T : BitVec 16) (s : State) :
    ∃ q f m d as c tm, (waitRx n T s).2 =
        { s with rxq := q, fresh := f, missed := m, draws := d, arrivals := as, clock := c, tmr := tm } ∧
      s.rxq <+: q ∧ (s.rxq.length ≤ s.cfg.rxqCap → q.length ≤ s.cfg.rxqCap) ∧ s.clock ≤ c ∧
      c ≤ s.clock + T.toNat ∧ tm = T - BitVec.ofNat 16 (c - s.clock) ∧
      ((waitRx n T s).1 = true → n ≤ q.length) ∧
      ((waitRx n T s).1 = false → q.length < n ∧ c = s.clock + T.toNat) ∧
      (s.rdis = false → s.missed = 0 → m = 0) := by
  obtain ⟨q, f, m, d, as, c, h, hp, hb, hc, hg, he, hm⟩ := waitUntil_eq n (s.clock + T.toNat) s.arrivals s rfl
  refine ⟨q, f, m, d, as, c, T - BitVec.ofNat 16 (c - s.clock), ?_, hp, hb, hc, ?_, rfl, ?_, ?_, hm⟩
  · unfold waitRx; simp only [h]
  · cases hw : (waitUntil n (s.clock + T.toNat) s.arrivals s).1
    · have := (he hw).2; omega
    · have := (hg hw).2; omega
  · intro hx; exact (hg hx).1
  · intro hx; have := he hx; exact ⟨this.1, by omega⟩

/-! ## The direction lines -/

theorem redrawn_length (n d : Nat) : (redrawn n d).length ≤ n := by
  induction n generalizing d with
  | zero => simp [redrawn]
  | succ n ih =>
    have := ih (d + 1)
    cases h : Config.straddle d <;> simp [redrawn, h] <;> omega

/-- `DirTx()`: the lines, when they changed, and the fates of the bytes queued in this very tick. -/
theorem dirTx_eq (s : State) :
    ∃ q d, dirTx s = { s with rxq := q, fresh := 0, draws := d, de := true, rdis := true, dirAt := some s.clock } ∧
      q.length ≤ s.rxq.length ∧ (s.fresh = 0 → q = s.rxq ∧ d = s.draws) := by
  refine ⟨s.rxq.take (s.rxq.length - min s.fresh s.rxq.length) ++ redrawn (min s.fresh s.rxq.length) s.draws,
    s.draws + min s.fresh s.rxq.length, rfl, ?_, ?_⟩
  · have := redrawn_length (min s.fresh s.rxq.length) s.draws
    simp [List.length_append, List.length_take]
    omega
  · intro h; simp [h, redrawn]

/-- One draw for each character lost in the tick. -/
theorem drawMissed_eq (n : Nat) (s : State) :
    ∃ q f, drawMissed n s = { s with rxq := q, fresh := f, draws := s.draws + n } ∧ s.rxq <+: q ∧
      q.length ≤ s.rxq.length + n ∧ (s.rxq.length ≤ s.cfg.rxqCap → q.length ≤ s.cfg.rxqCap) := by
  induction n generalizing s with
  | zero => exact ⟨s.rxq, s.fresh, rfl, List.prefix_refl _, by omega, id⟩
  | succ n ih =>
    obtain ⟨q₁, f₁, h₁, hp₁, hl₁, hb₁⟩ := drawByte_eq s
    obtain ⟨q, f, h, hp, hl, hb⟩ := ih (drawByte s)
    rw [h₁] at h hp hl hb
    refine ⟨q, f, ?_, hp₁.trans hp, ?_, fun hx => hb (hb₁ hx)⟩
    · rw [drawMissed, h₁, h]; simp [Nat.add_assoc, Nat.add_comm 1]
    · simp only at hl; omega

/-- `DirRx()`: the lines, when they changed, and the fates of the characters lost in this very tick. -/
theorem dirRx_eq (s : State) :
    ∃ q f, dirRx s = { s with
        rxq := q, fresh := f, draws := s.draws + s.missed, de := false, rdis := false, dirAt := some s.clock, missed := 0 } ∧
      s.rxq <+: q ∧ q.length ≤ s.rxq.length + s.missed ∧ (s.rxq.length ≤ s.cfg.rxqCap → q.length ≤ s.cfg.rxqCap) := by
  obtain ⟨q, f, h, hp, hl, hb⟩ := drawMissed_eq s.missed s
  exact ⟨q, f, by unfold dirRx; rw [h], hp, hl, hb⟩

@[simp] theorem dirRx_keeps (s : State) :
    (dirRx s).txbuf = s.txbuf ∧ (dirRx s).rxbuf = s.rxbuf ∧ (dirRx s).crc = s.crc ∧ (dirRx s).addr = s.addr ∧
    (dirRx s).conf = s.conf ∧ (dirRx s).raw = s.raw ∧ (dirRx s).ph = s.ph ∧ (dirRx s).op = s.op ∧
    (dirRx s).idx = s.idx ∧ (dirRx s).arg = s.arg ∧ (dirRx s).ci = s.ci ∧ (dirRx s).att = s.att ∧
    (dirRx s).txi = s.txi ∧ (dirRx s).err = s.err ∧ (dirRx s).busy = s.busy ∧ (dirRx s).frameOk = s.frameOk ∧
    (dirRx s).rspCrcOk = s.rspCrcOk ∧ (dirRx s).nodata = s.nodata ∧ (dirRx s).tmr = s.tmr ∧
    (dirRx s).txpend = s.txpend ∧ (dirRx s).trace = s.trace ∧ (dirRx s).done = s.done ∧ (dirRx s).txd = s.txd ∧ (dirRx s).shown = s.shown ∧
    (dirRx s).cfg = s.cfg ∧ (dirRx s).clock = s.clock ∧ (dirRx s).epoch = s.epoch ∧ (dirRx s).turns = s.turns ∧ (dirRx s).arrivals = s.arrivals ∧
    (dirRx s).plans = s.plans ∧ (dirRx s).offers = s.offers ∧ (dirRx s).resets = s.resets ∧ (dirRx s).level = s.level := by
  obtain ⟨q, f, h, -⟩ := dirRx_eq s
  rw [h]; simp

/-- `DirRx()` in a tick in which no character was lost. -/
theorem dirRx_none_missed {s : State} (h : s.missed = 0) :
    dirRx s = { s with de := false, rdis := false, dirAt := some s.clock, missed := 0 } := by
  unfold dirRx; rw [h]; rfl

/-! ## The serialiser -/

theorem pendAfter_pos {p e : Nat} (h : 0 < p) : 0 < pendAfter p e := by
  unfold pendAfter; split <;> omega

/-- A tick while bytes are handed over: time passes and `TXPEND` drops by what ended. -/
theorem serialTick_eq (e : Nat) (s : State) :
    ∃ q f m d as, serialTick e s =
        { s with rxq := q, fresh := f, missed := m, draws := d, arrivals := as, clock := s.clock + 1,
                 txpend := s.txpend - e } ∧
      Passed s.cfg.rxqCap s.rdis (straddlesAt s.dirAt) (s.clock + 1) s.rxq s.arrivals q as := by
  obtain ⟨q, f, m, d, as, h, hp, -⟩ := elapse_eq 1 s
  exact ⟨q, f, m, d, as, by unfold serialTick; rw [h], hp⟩

/-- A tick of the drain: time passes and at least one character stays pending. -/
theorem drainTick_eq (e : Nat) (s : State) :
    ∃ q f m d as, drainTick e s =
        { s with rxq := q, fresh := f, missed := m, draws := d, arrivals := as, clock := s.clock + 1,
                 txpend := pendAfter s.txpend e } ∧
      Passed s.cfg.rxqCap s.rdis (straddlesAt s.dirAt) (s.clock + 1) s.rxq s.arrivals q as := by
  obtain ⟨q, f, m, d, as, h, hp, -⟩ := elapse_eq 1 s
  exact ⟨q, f, m, d, as, by unfold drainTick; rw [h], hp⟩

theorem openPlan_eq (s : State) :
    ∃ p d, openPlan s = { s with plans := p :: s.plans.tail, draws := d } ∧ (∀ p' ps, s.plans = p' :: ps → p = p') ∧
      p.idles = (plan s).idles ∧ (s.plans = [] → p = freePlan s.draws) ∧ (s.plans ≠ [] → d = s.draws) := by
  unfold openPlan
  split
  · next h => exact ⟨freePlan s.draws, s.draws + 1, by simp [h], by simp [h], by simp [plan, h, freePlan], fun _ => rfl,
      by simp [h]⟩
  · next p ps h =>
    refine ⟨p, s.draws, ?_, by simp [h], by simp [plan, h], by simp [h], fun _ => rfl⟩
    have : p :: s.plans.tail = s.plans := by simp [h]
    rw [this]

theorem uartWrite_eq {s : State} (h : s.txi.toNat < 8) :
    uartWrite s = { s with txd := s.txd ++ [s.txbuf[s.txi.toNat]], txi := s.txi + 1, txpend := s.txpend + 1 } := by
  simp [uartWrite, h]

/-- Waiting for `tx_ready`: the ticks it takes are those `handTicks` counts. -/
theorem awaitReady_eq (hs : List SerialTick) (s : State) {p : SerialPlan} {ps : List SerialPlan}
    (hp : s.plans = p :: ps) (hh : p.hand = hs) :
    ∃ q f m d as k hand tp, awaitReady hs s =
        { s with rxq := q, fresh := f, missed := m, draws := d, arrivals := as, clock := s.clock + k,
                 plans := { p with hand := hand } :: ps, txpend := tp } ∧
      Passed s.cfg.rxqCap s.rdis (straddlesAt s.dirAt) (s.clock + k) s.rxq s.arrivals q as ∧
      ∀ n, handTicks (n + 1) hs = k + handTicks n hand := by
  induction hs generalizing s p with
  | nil =>
    refine ⟨s.rxq, s.fresh, s.missed, s.draws, s.arrivals, 0, [], s.txpend, ?_, Passed.refl, ?_⟩
    · cases p; simp_all [awaitReady]; cases s; simp_all
    · intro n; cases n <;> rfl
  | cons t ts ih =>
    rcases t with ⟨taken, ended⟩
    have hplan : plan s = p := by simp [plan, hp]
    cases taken with
    | zero =>
      obtain ⟨q₁, f₁, m₁, d₁, as₁, h₁, hp₁⟩ := serialTick_eq ended (setPlan { plan s with hand := ts } s)
      obtain ⟨q, f, m, d, as, k, hand, tp, h, hpass, hn⟩ :=
        ih (serialTick ended (setPlan { plan s with hand := ts } s)) (p := { p with hand := ts })
          (by rw [h₁]; simp [setPlan, hplan, hp]) rfl
      rw [h₁] at h hpass
      refine ⟨q, f, m, d, as, 1 + k, hand, tp, ?_, ?_, ?_⟩
      · simp only [awaitReady]
        rw [h₁, h]
        simp [setPlan, Nat.add_assoc]
      · have := hp₁.trans hpass (by simp [setPlan])
        simpa [setPlan, Nat.add_assoc] using this
      · intro n
        have := hn n
        simp only [handTicks]
        simp [this]; omega
    | succ j =>
      refine ⟨s.rxq, s.fresh, s.missed, s.draws, s.arrivals, 0, ⟨j, ended⟩ :: ts, s.txpend, ?_, Passed.refl, ?_⟩
      · simp [awaitReady, setPlan, hplan, hp]
      · intro n; cases n <;> simp [handTicks]

/-- `n` bytes handed over: the ticks `handTicks` counts, the next `n` bytes of `TXBUF` on `tx_data`, the last of them
pending. -/
theorem writeBytes_eq (n : Nat) (s : State) {p : SerialPlan} {ps : List SerialPlan} (hp : s.plans = p :: ps)
    (hi : s.txi.toNat + n ≤ 8) :
    ∃ q f m d as hand tp, writeBytes n s =
        { s with rxq := q, fresh := f, missed := m, draws := d, arrivals := as, clock := s.clock + handTicks n p.hand,
                 plans := { p with hand := hand } :: ps, txpend := tp, txi := BitVec.ofNat 4 (s.txi.toNat + n),
                 txd := s.txd ++ (s.txbuf.toList.drop s.txi.toNat).take n } ∧
      Passed s.cfg.rxqCap s.rdis (straddlesAt s.dirAt) (s.clock + handTicks n p.hand) s.rxq s.arrivals q as ∧
      (0 < n ∨ 0 < s.txpend → 0 < tp) := by
  induction n generalizing s p with
  | zero =>
    have h0 : handTicks 0 p.hand = 0 := by cases p.hand <;> rfl
    refine ⟨s.rxq, s.fresh, s.missed, s.draws, s.arrivals, p.hand, s.txpend, ?_, ?_, by omega⟩
    · simp [writeBytes, h0, ← hp]
    · rw [h0]; exact Passed.refl
  | succ n ih =>
    have hplan : plan s = p := by simp [plan, hp]
    obtain ⟨q₁, f₁, m₁, d₁, as₁, k, hand₁, tp₁, h₁, hpass₁, hn⟩ := awaitReady_eq (plan s).hand s hp (by rw [hplan])
    have hlt : s.txi.toNat < 8 := by omega
    have hti : (s.txi + 1).toNat = s.txi.toNat + 1 := by rw [BitVec.toNat_add]; simp; omega
    have ht : handTicks (n + 1) p.hand = k + handTicks n hand₁ := by rw [← hn n, hplan]
    have hstep : writeBytes (n + 1) s = writeBytes n (uartWrite (awaitReady (plan s).hand s)) := rfl
    rw [hstep, h₁, uartWrite_eq (by exact hlt)]
    generalize hu : ({ s with
      rxq := q₁, fresh := f₁, missed := m₁, draws := d₁, arrivals := as₁, clock := s.clock + k,
      plans := { p with hand := hand₁ } :: ps, txd := s.txd ++ [s.txbuf[s.txi.toNat]], txi := s.txi + 1,
      txpend := tp₁ + 1 } : State) = u
    obtain ⟨q, f, m, d, as, hand, tp, h, hpass, htp⟩ := ih u (p := { p with hand := hand₁ }) (by rw [← hu])
      (by rw [← hu]; simp only [hti]; omega)
    subst hu
    refine ⟨q, f, m, d, as, hand, tp, ?_, ?_, fun _ => htp (.inr (by simp))⟩
    · have hl : s.txi.toNat < s.txbuf.toList.length := by simpa using hlt
      have hd := List.drop_eq_getElem_cons hl
      rw [h]
      have hm : (s.txi.toNat + 1) % 16 = s.txi.toNat + 1 := Nat.mod_eq_of_lt (by omega)
      simp [ht, hd, hm, Nat.add_assoc, Nat.add_comm 1 n]
    · have := hpass₁.trans hpass (by simp)
      simpa [ht, Nat.add_assoc] using this

/-- The ticks of the drain but the last. -/
theorem drainTicks_eq (es : List Nat) (s : State) {p : SerialPlan} {ps : List SerialPlan} (hp : s.plans = p :: ps)
    (hd : p.drain = es) (hpos : 0 < s.txpend) :
    ∃ q f m d as tp, drainTicks es s =
        { s with rxq := q, fresh := f, missed := m, draws := d, arrivals := as, clock := s.clock + es.length,
                 plans := { p with drain := [] } :: ps, txpend := tp } ∧
      Passed s.cfg.rxqCap s.rdis (straddlesAt s.dirAt) (s.clock + es.length) s.rxq s.arrivals q as ∧ 0 < tp := by
  induction es generalizing s p with
  | nil =>
    refine ⟨s.rxq, s.fresh, s.missed, s.draws, s.arrivals, s.txpend, ?_, Passed.refl, hpos⟩
    cases p; simp_all [drainTicks]; cases s; simp_all
  | cons e es ih =>
    have hplan : plan s = p := by simp [plan, hp]
    obtain ⟨q₁, f₁, m₁, d₁, as₁, h₁, hp₁⟩ := drainTick_eq e (setPlan { plan s with drain := es } s)
    obtain ⟨q, f, m, d, as, tp, h, hpass, htp⟩ :=
      ih (drainTick e (setPlan { plan s with drain := es } s)) (p := { p with drain := es })
        (by rw [h₁]; simp [setPlan, hplan, hp]) rfl (by rw [h₁]; exact pendAfter_pos hpos)
    rw [h₁] at h hpass
    refine ⟨q, f, m, d, as, tp, ?_, ?_, htp⟩
    · simp only [drainTicks]
      rw [h₁, h]
      simp [setPlan, Nat.add_assoc, Nat.add_comm 1]
    · have := hp₁.trans hpass (by simp [setPlan])
      simpa [setPlan, Nat.add_assoc, Nat.add_comm 1] using this

end Sys2Proof.Machine
end

