-- ==== Sys2Proof/Laws/Transmit.lean ====
section
/-! SUPPORT. What the transmit sequence does, said once (`42_direction_and_transmit.md` rule R168): the state after, with
everything it changes. -/
namespace Sys2Proof.Machine

/-- Up to the eighth byte handed over: the lines asserted since the start, the eight bytes on `tx_data`. -/
theorem handOver_eq (s : State) :
    ∃ q₀ q f m d as p tp, handOver s = { s with
        ph := .txDrain, tmr := 0, de := true, rdis := true, dirAt := some s.clock, txi := 8, txpend := tp,
        txd := s.txd ++ s.txbuf.toList, plans := { p with hand := [] } :: s.plans.tail, rxq := q, fresh := f,
        missed := m, draws := d, arrivals := as, clock := s.clock + s.cfg.tPre.toNat + handTicks 8 p.hand } ∧
      Passed s.cfg.rxqCap true (straddlesAt (some s.clock)) (s.clock + s.cfg.tPre.toNat + handTicks 8 p.hand)
        q₀ s.arrivals q as ∧
      q₀.length ≤ s.rxq.length ∧ (s.fresh = 0 → q₀ = s.rxq) ∧ 0 < tp ∧ (∀ p' ps, s.plans = p' :: ps → p = p') ∧
      p.idles = (plan s).idles := by
  obtain ⟨q₀, d₀, h₀, hl₀, hq₀⟩ := dirTx_eq { s with ph := .txPre }
  obtain ⟨q₁, f₁, m₁, d₁, as₁, h₁, hp₁, -⟩ := delay_eq s.cfg.tPre (startTx s)
  have hs : startTx s = { s with
      ph := .txPre, rxq := q₀, fresh := 0, draws := d₀, de := true, rdis := true, dirAt := some s.clock,
      tmr := s.cfg.tPre } := by
    unfold startTx; rw [h₀]
  rw [hs] at h₁ hp₁
  obtain ⟨p, d₂, h₂, hpl, hid, -, -⟩ := openPlan_eq (delay s.cfg.tPre (startTx s))
  rw [hs, h₁] at h₂ hpl hid
  have he : enterData (delay s.cfg.tPre (startTx s)) = { s with
      ph := .txData, rxq := q₁, fresh := f₁, missed := m₁, draws := d₂, arrivals := as₁,
      clock := s.clock + s.cfg.tPre.toNat, tmr := 0, de := true, rdis := true, dirAt := some s.clock,
      plans := p :: s.plans.tail, txi := 0 } := by
    unfold enterData; rw [hs, h₁, h₂]
  unfold handOver
  rw [he]
  generalize hu : ({ s with
      ph := .txData, rxq := q₁, fresh := f₁, missed := m₁, draws := d₂, arrivals := as₁,
      clock := s.clock + s.cfg.tPre.toNat, tmr := 0, de := true, rdis := true, dirAt := some s.clock,
      plans := p :: s.plans.tail, txi := 0 } : State) = u
  have hup : u.plans = p :: s.plans.tail := by rw [← hu]
  have hui : u.txi = 0#4 := by rw [← hu]; rfl
  obtain ⟨q, f, m, d, as, hand, tp, h, hpass, htp⟩ := writeBytes_eq 8 u hup (by rw [hui]; decide)
  have hi0 : (0#4).toNat = 0 := rfl
  have hi8 : BitVec.ofNat 4 (0 + 8) = 8#4 := rfl
  rw [hui, hi0, hi8, List.drop_zero, List.take_of_length_le (by simp)] at h
  subst hu
  refine ⟨q₀, q, f, m, d, as, p, tp, ?_, ?_, hl₀, fun hf => (hq₀ hf).1, htp (.inl (by omega)), ?_, ?_⟩
  · rw [h]
    simp only [enterDrain, setPlan, plan, List.headD_cons, List.tail_cons]
    rfl
  · exact hp₁.trans hpass (by simp)
  · intro p' ps hps; exact hpl p' ps hps
  · simpa [plan] using hid

/-- The transmit sequence with a serialiser that becomes idle. -/
theorem transmit_ended (s : State) (hi : Idles s) :
    ∃ q₀ q f d as T, transmit s = .ended () { s with
        ph := .txPost, tmr := 0, de := false, rdis := false,
        dirAt := some (s.clock + s.cfg.tPre.toNat + T + s.cfg.tPost.toNat), txi := 8, txpend := 0,
        txd := s.txd ++ s.txbuf.toList, trace := s.trace ++ [.sent s.txbuf], plans := s.plans.tail, rxq := q, fresh := f,
        missed := 0, draws := d, arrivals := as, clock := s.clock + s.cfg.tPre.toNat + T + s.cfg.tPost.toNat } ∧
      Passed s.cfg.rxqCap true (straddlesAt (some s.clock)) (s.clock + s.cfg.tPre.toNat + T + s.cfg.tPost.toNat)
        q₀ s.arrivals q as ∧
      q₀.length ≤ s.rxq.length ∧ (s.fresh = 0 → q₀ = s.rxq) ∧ f = 0 ∧ 0 < T ∧
      as = s.arrivals.dropWhile (fun a => decide (a.time < s.clock + s.cfg.tPre.toNat + T + s.cfg.tPost.toNat)) ∧
      (∀ p ps, s.plans = p :: ps → T = serialTime p) := by
  obtain ⟨q₀, q₁, f₁, m₁, d₁, as₁, p, tp, h₁, hp₁, hl₀, hq₀, htp, hpl, hid⟩ := handOver_eq s
  have hpi : p.idles = true := by rw [hid]; exact hi
  unfold transmit
  generalize hu : handOver s = u
  rw [h₁] at hu
  have hup : u.plans = { p with hand := [] } :: s.plans.tail := by rw [← hu]
  have hplan : plan u = { p with hand := [] } := by simp [plan, hup]
  obtain ⟨q₂, f₂, m₂, d₂, as₂, tp₂, h₂, hp₂, htp₂⟩ := drainTicks_eq p.drain u hup rfl (by rw [← hu]; exact htp)
  obtain ⟨q₃, f₃, m₃, d₃, as₃, h₃, hp₃, hn₃, -⟩ := elapse_eq 1 (drainTicks p.drain u)
  obtain ⟨q₄, f₄, m₄, d₄, as₄, h₄, hp₄, hn₄, hf₄, hm₄, hz₄⟩ :=
    delay_eq s.cfg.tPost (enterPost (lastTick (drainTicks p.drain u)))
  have hd : drainTicks (plan u).drain u = drainTicks p.drain u := by rw [hplan]
  have hpd : (plan (drainTicks p.drain u)).idles = true := by rw [h₂]; simpa [plan] using hpi
  simp only [hd, hpd, if_true]
  have hc : (enterPost (lastTick (drainTicks p.drain u))).cfg.tPost = s.cfg.tPost := by
    simp only [enterPost, lastTick]; rw [h₃, h₂, ← hu]
  rw [hc, h₄]
  unfold enterPost lastTick at hp₄ hn₄ hf₄ hm₄ hz₄ ⊢
  rw [h₃, h₂] at hp₄ hn₄ hf₄ hm₄ hz₄ ⊢
  rw [h₂] at hp₃ hn₃
  subst hu
  have hT : s.clock + s.cfg.tPre.toNat + handTicks 8 p.hand + p.drain.length + 1 =
      s.clock + s.cfg.tPre.toNat + serialTime p := by unfold serialTime; omega
  have hpass := ((hp₁.trans hp₂ (by simp)).trans hp₃ (by simp)).trans hp₄ (by simp)
  simp only at hpass hp₄ hn₄ hf₄ hm₄ hz₄ hn₃
  simp only [hT] at hpass hp₄ hn₄ hz₄ hn₃ ⊢
  obtain ⟨hf₃, hm₃, has₃⟩ := hn₃ (by omega)
  have h12 : s.clock + s.cfg.tPre.toNat + handTicks 8 p.hand ≤ s.clock + s.cfg.tPre.toNat + serialTime p := by
    unfold serialTime; omega
  refine ⟨q₀, q₄, f₄, d₄, as₄, serialTime p, ?_, hpass, hl₀, hq₀, hf₄ hf₃, ?_, ?_, ?_⟩
  · rw [release, dirRx_none_missed (by exact hm₄ hm₃)]
    simp [emit]
  · unfold serialTime; omega
  · rcases Nat.eq_zero_or_pos s.cfg.tPost.toNat with h0 | h0
    · rw [hz₄ h0, has₃, h0]
      exact ((hp₁.trans hp₂ (by simp)).left _ (by simp; unfold serialTime; omega))
    · rw [(hn₄ h0).2.2]
      exact (((hp₁.trans hp₂ (by simp)).trans hp₃ (by simp)).left _ (by simp; unfold serialTime; omega))
  · intro p' ps hps; rw [hpl p' ps hps]

end Sys2Proof.Machine
end

