-- ==== Sys2Proof/Laws/Exchange.lean ====
section
/-! SUPPORT. What the inner procedures do, said once: the hang of a transmission, taking a reply, `DoProbe` and `DoRead`
(`42_direction_and_transmit.md` rule R167, `43_transactions.md` rules R191, R195). -/
namespace Sys2Proof.Machine

/-- A transmission whose serialiser never becomes idle. -/
theorem transmit_hung (s : State) (hi : ¬ Idles s) :
    ∃ t, transmit s = .hung t ∧ t.ph = .txDrain ∧ t.de = true ∧ t.rdis = true ∧ 0 < t.txpend ∧ (plan t).drain = [] ∧
      (plan t).idles = false ∧ t.busy = s.busy ∧ t.done = s.done ∧ t.cfg = s.cfg ∧ t.op = s.op ∧ t.ci = s.ci ∧
      t.att = s.att ∧ t.txi = 8 ∧ t.trace = s.trace ∧ t.addr = s.addr ∧ t.conf = s.conf ∧ t.raw = s.raw ∧
      t.rxbuf = s.rxbuf ∧ (s.rxq.length ≤ s.cfg.rxqCap → t.rxq.length ≤ s.cfg.rxqCap) := by
  obtain ⟨q₀, q, f, m, d, as, p, tp, h, hpass, hl₀, -, htp, -, hid⟩ := handOver_eq s
  have hpi : p.idles = false := by rw [hid]; simpa [Idles] using hi
  unfold transmit
  generalize hu : handOver s = u
  rw [h] at hu
  have hup : u.plans = { p with hand := [] } :: s.plans.tail := by rw [← hu]
  have hplan : plan u = { p with hand := [] } := by simp [plan, hup]
  obtain ⟨q₂, f₂, m₂, d₂, as₂, tp₂, h₂, hp₂, htp₂⟩ :=
    drainTicks_eq p.drain u hup rfl (by rw [← hu]; exact htp)
  have hd : drainTicks (plan u).drain u = drainTicks p.drain u := by rw [hplan]
  have hpd : (plan (drainTicks p.drain u)).idles = false := by rw [h₂]; simpa [plan] using hpi
  simp only [hd, hpd, Bool.false_eq_true, if_false]
  refine ⟨_, rfl, ?_⟩
  rw [h₂]
  subst hu
  refine ⟨rfl, rfl, rfl, htp₂, rfl, by simpa [plan] using hpi, rfl, rfl, rfl, rfl, rfl, rfl, rfl, rfl, rfl, rfl, rfl, rfl,
    fun hb => ?_⟩
  exact hp₂.bound (hpass.bound (by omega))

/-- Seven bytes leave the head of the queue for `RXBUF[0..6]`. -/
theorem takeReply_eq (s : State) (r : Frame7) (rest : List Byte) (h : s.rxq = r.toList ++ rest) :
    takeReply s = { s with
      rxq := rest, rxbuf := #v[r[0], r[1], r[2], r[3], r[4], r[5], r[6], s.rxbuf[7]],
      fresh := min s.fresh rest.length } := by
  have hr : r.toList = [r[0], r[1], r[2], r[3], r[4], r[5], r[6]] := by
    apply List.ext_getElem <;> simp
    intro i hi
    match i with
    | 0 | 1 | 2 | 3 | 4 | 5 | 6 => rfl
    | n + 7 => omega
  rw [hr] at h
  have hb : ((((((((s.rxbuf.setIfInBounds 0 r[0]).setIfInBounds 1 r[1]).setIfInBounds 2 r[2]).setIfInBounds 3
      r[3]).setIfInBounds 4 r[4]).setIfInBounds 5 r[5]).setIfInBounds 6 r[6])) =
      #v[r[0], r[1], r[2], r[3], r[4], r[5], r[6], s.rxbuf[7]] := by
    apply Vector.ext
    intro i hi
    match i with
    | 0 | 1 | 2 | 3 | 4 | 5 | 6 | 7 => simp
    | n + 8 => omega
  simp only [takeReply, List.foldl_cons, List.foldl_nil, takeInto, h, List.cons_append, List.nil_append]
  rw [hb]
  congr 1
  simp only [List.length_cons]
  omega

/-- The reply taken, reported, its CRC computed and compared. -/
theorem receiveReply_eq (s : State) (r : Frame7) (rest : List Byte) (h : s.rxq = r.toList ++ rest) :
    receiveReply s = { s with
      rxq := rest, rxbuf := #v[r[0], r[1], r[2], r[3], r[4], r[5], r[6], s.rxbuf[7]], fresh := min s.fresh rest.length,
      trace := s.trace ++ [.received r], crc := replyCrc r, rspCrcOk := rspCrcMatches r } ∧
    replyOf (receiveReply s) = r := by
  have hr : (#v[r[0], r[1], r[2], r[3], r[4], r[5], r[6]] : Frame7) = r := by
    apply Vector.ext
    intro i hi
    match i with
    | 0 | 1 | 2 | 3 | 4 | 5 | 6 => rfl
    | n + 7 => omega
  unfold receiveReply
  rw [takeReply_eq s r rest h]
  simp [replyOf, emit, hr]

/-- The end of a read that got its bytes. -/
theorem readGot_eq (a : Byte) (s : State) (r : Frame7) (rest : List Byte) (h : s.rxq = r.toList ++ rest) :
    ∃ u : State, u = { s with
      rxq := rest, rxbuf := #v[r[0], r[1], r[2], r[3], r[4], r[5], r[6], s.rxbuf[7]], fresh := min s.fresh rest.length,
      trace := s.trace ++ [.received r], crc := replyCrc r, rspCrcOk := rspCrcMatches r } ∧
    readGot a s =
      match decodeReply s.cfg r a with
      | .mismatch => (4, { u with trace := u.trace ++ [.error 4] })
      | .badCrc => (6, { u with trace := u.trace ++ [.error 6] })
      | .ok v => (0, { u with trace := u.trace ++ [.reading v], raw := v }) := by
  obtain ⟨h₁, h₂⟩ := receiveReply_eq s r rest h
  refine ⟨_, rfl, ?_⟩
  unfold readGot
  generalize receiveReply s = v at h₁ h₂
  have hc : v.cfg = s.cfg := by rw [h₁]
  dsimp only
  rw [h₂, hc]
  subst h₁
  cases decodeReply s.cfg r a <;> rfl

/-- A queue of at least seven bytes begins with a reply. -/
theorem reply_at_head {q : List Byte} (h : 7 ≤ q.length) : ∃ (r : Frame7) (rest : List Byte), q = r.toList ++ rest := by
  refine ⟨⟨(q.take 7).toArray, by simp; omega⟩, q.drop 7, ?_⟩
  simp [Vector.toList]

/-- `DoProbe` after its transmission: the wait, and what is made of it. -/
theorem doProbe_ended {c : Byte} {s z : State} (h : transmit (buildProbe c s) = .ended () z) {got : Bool} {w : State}
    (hw : waitRx 1 z.cfg.tProbe { z with ph := .rxWait } = (got, w)) :
    doProbe c s = if got then .ended 0 (probeGot c w) else .ended 3 (probeExpired w) := by
  unfold doProbe
  rw [h]
  simp only [Ran.andThen, hw]
  rfl

/-- `DoProbe` with a serialiser that becomes idle: the state `z` after the transmission, what the wait answers, and the
state that `DoProbe` leaves. -/
theorem doProbe_eq (c : Byte) (s : State) (hi : Idles s) :
    ∃ (got : Bool) (T : Nat) (q : List Byte) (f d : Nat) (as : List Arrival) (ck : Nat) (tm : BitVec 16) (z w : State),
      w = { s with
        ph := .rxWait, tmr := tm, de := false, rdis := false, dirAt := some (releaseTime T s), txi := 8, txpend := 0,
        txbuf := request c, crc := u16 (request c)[7] (request c)[6], txd := s.txd ++ (request c).toList,
        trace := s.trace ++ [.sent (request c)], plans := s.plans.tail, rxq := q, fresh := f, missed := 0, draws := d,
        arrivals := as, clock := ck } ∧
      transmit (buildProbe c s) = .ended () z ∧ z.clock = releaseTime T s ∧
      waitRx 1 s.cfg.tProbe { z with ph := .rxWait } = (got, w) ∧
      doProbe c s = .ended (if got then 0 else 3) { w with
        addr := if got then c else s.addr, conf := if got then true else s.conf,
        trace := s.trace ++ [.sent (request c), if got then .discovered c else .error 3] } ∧
      TakesTime T s ∧ releaseTime T s ≤ ck ∧ ck ≤ releaseTime T s + s.cfg.tProbe.toNat ∧ (got = true ↔ q ≠ []) ∧
      (got = false → ck = releaseTime T s + s.cfg.tProbe.toNat) ∧
      tm = s.cfg.tProbe - BitVec.ofNat 16 (ck - releaseTime T s) ∧ q.length ≤ s.cfg.rxqCap := by
  obtain ⟨q₀, q₁, f₁, d₁, as₁, T, h, hpass, hl, -, -, hT, -, hp⟩ := transmit_ended (buildProbe c s) hi
  generalize hz : ({ buildProbe c s with
    ph := .txPost, tmr := 0, de := false, rdis := false,
    dirAt := some ((buildProbe c s).clock + (buildProbe c s).cfg.tPre.toNat + T + (buildProbe c s).cfg.tPost.toNat),
    txi := 8, txpend := 0, txd := (buildProbe c s).txd ++ (buildProbe c s).txbuf.toList,
    trace := (buildProbe c s).trace ++ [.sent (buildProbe c s).txbuf], plans := (buildProbe c s).plans.tail,
    rxq := q₁, fresh := f₁, missed := 0, draws := d₁, arrivals := as₁,
    clock := (buildProbe c s).clock + (buildProbe c s).cfg.tPre.toNat + T + (buildProbe c s).cfg.tPost.toNat } :
    State) = z at h
  have hc : z.clock = releaseTime T s := by rw [← hz]; rfl
  have hcfg : z.cfg = s.cfg := by rw [← hz]; rfl
  obtain ⟨q, f, m, d, as, ck, tm, hw, hpre, hb, hck, hle, htm, hgot, hexp, hmz⟩ :=
    waitRx_eq 1 s.cfg.tProbe { z with ph := .rxWait }
  obtain rfl := hmz (by rw [← hz]) (by rw [← hz])
  have hcap : q.length ≤ s.cfg.rxqCap := by
    have hb1 : z.rxq.length ≤ z.cfg.rxqCap := by
      rw [← hz]
      exact hpass.bound (by simp [buildProbe, rxClear, loadFrame] at hl ⊢; rw [hl]; simp)
    rw [← hcfg]; exact hb hb1
  generalize hr : waitRx 1 s.cfg.tProbe { z with ph := .rxWait } = r at hw hgot hexp
  obtain ⟨got, w⟩ := r
  simp only at hw hgot hexp hck hle htm
  have hd := doProbe_ended (got := got) (w := w) h (by rw [congrArg Config.tProbe hcfg]; exact hr)
  have hws : w = { s with
      ph := .rxWait, tmr := tm, de := false, rdis := false, dirAt := some (releaseTime T s), txi := 8, txpend := 0,
      txbuf := request c, crc := u16 (request c)[7] (request c)[6], txd := s.txd ++ (request c).toList,
      trace := s.trace ++ [.sent (request c)], plans := s.plans.tail, rxq := q, fresh := f, missed := 0, draws := d,
      arrivals := as, clock := ck } := by
    rw [hw, ← hz]; rfl
  refine ⟨got, T, q, f, d, as, ck, tm, z, w, hws, h, hc, hr, ?_, ⟨hT, hp⟩, by omega, by omega, ?_, ?_, ?_, hcap⟩
  · rw [hd, hws]
    cases got <;> simp [probeGot, probeExpired, emitError, emit, Kind.code]
  · cases got
    · have := (hexp rfl).1
      simp [List.length_eq_zero_iff.mp (show q.length = 0 by omega)]
    · have := hgot rfl
      have : q ≠ [] := by intro h0; simp [h0] at this
      simp [this]
  · intro hg; rw [(hexp hg).2, hc]
  · rw [← hc]; exact htm

/-- `DoRead` after its transmission: the wait, and what is made of it. -/
theorem doRead_ended {s z : State} (h : transmit (buildRead s) = .ended () z) {got : Bool} {w : State}
    (hw : waitRx rspMin z.cfg.tRead { z with ph := .rxWait } = (got, w)) :
    doRead s = if got then .ended (readGot w.addr w).1 (readGot w.addr w).2 else .ended 3 (readExpired w) := by
  unfold doRead
  rw [h]
  simp only [Ran.andThen, hw]
  rfl

/-- `DoRead` with a serialiser that becomes idle: the state `z` after the transmission, the state `w` when the wait has
ended, and what is made of it. -/
theorem doRead_eq (s : State) (hi : Idles s) :
    ∃ (got : Bool) (T : Nat) (q : List Byte) (f d : Nat) (as : List Arrival) (ck : Nat) (tm : BitVec 16) (z w : State),
      w = { s with
        ph := .rxWait, tmr := tm, de := false, rdis := false, dirAt := some (releaseTime T s), txi := 8, txpend := 0,
        txbuf := request s.addr, crc := u16 (request s.addr)[7] (request s.addr)[6],
        txd := s.txd ++ (request s.addr).toList, trace := s.trace ++ [.sent (request s.addr)], plans := s.plans.tail,
        rxq := q, fresh := f, missed := 0, draws := d, arrivals := as, clock := ck } ∧
      transmit (buildRead s) = .ended () z ∧ z.clock = releaseTime T s ∧
      waitRx rspMin s.cfg.tRead { z with ph := .rxWait } = (got, w) ∧
      doRead s = (if got then .ended (readGot s.addr w).1 (readGot s.addr w).2 else .ended 3 (readExpired w)) ∧
      TakesTime T s ∧ releaseTime T s ≤ ck ∧ ck ≤ releaseTime T s + s.cfg.tRead.toNat ∧ (got = true ↔ 7 ≤ q.length) ∧
      (got = false → ck = releaseTime T s + s.cfg.tRead.toNat) ∧
      tm = s.cfg.tRead - BitVec.ofNat 16 (ck - releaseTime T s) ∧
      (s.rxq.length ≤ s.cfg.rxqCap → q.length ≤ s.cfg.rxqCap) := by
  obtain ⟨q₀, q₁, f₁, d₁, as₁, T, h, hpass, hl, -, -, hT, -, hp⟩ := transmit_ended (buildRead s) hi
  generalize hz : ({ buildRead s with
    ph := .txPost, tmr := 0, de := false, rdis := false,
    dirAt := some ((buildRead s).clock + (buildRead s).cfg.tPre.toNat + T + (buildRead s).cfg.tPost.toNat),
    txi := 8, txpend := 0, txd := (buildRead s).txd ++ (buildRead s).txbuf.toList,
    trace := (buildRead s).trace ++ [.sent (buildRead s).txbuf], plans := (buildRead s).plans.tail, rxq := q₁,
    fresh := f₁, missed := 0, draws := d₁, arrivals := as₁,
    clock := (buildRead s).clock + (buildRead s).cfg.tPre.toNat + T + (buildRead s).cfg.tPost.toNat } : State) = z at h
  have hc : z.clock = releaseTime T s := by rw [← hz]; rfl
  have hcfg : z.cfg = s.cfg := by rw [← hz]; rfl
  obtain ⟨q, f, m, d, as, ck, tm, hw, hpre, hb, hck, hle, htm, hgot, hexp, hmz⟩ :=
    waitRx_eq rspMin s.cfg.tRead { z with ph := .rxWait }
  obtain rfl := hmz (by rw [← hz]) (by rw [← hz])
  have hcap : s.rxq.length ≤ s.cfg.rxqCap → q.length ≤ s.cfg.rxqCap := by
    intro h0
    have hb1 : z.rxq.length ≤ z.cfg.rxqCap := by
      rw [← hz]
      exact hpass.bound (Nat.le_trans hl h0)
    rw [← hcfg]; exact hb hb1
  generalize hr : waitRx rspMin s.cfg.tRead { z with ph := .rxWait } = r at hw hgot hexp
  obtain ⟨got, w⟩ := r
  simp only at hw hgot hexp hck hle htm
  have hd := doRead_ended (got := got) (w := w) h (by rw [congrArg Config.tRead hcfg]; exact hr)
  have hwa : w.addr = s.addr := by rw [hw, ← hz]; rfl
  rw [hwa] at hd
  refine ⟨got, T, q, f, d, as, ck, tm, z, w, ?_, h, hc, hr, hd, ⟨hT, hp⟩, by omega, by omega, ?_, ?_, ?_, hcap⟩
  · rw [hw, ← hz]; rfl
  · simp only [rspMin] at hgot hexp
    cases got
    · have := (hexp rfl).1; simp; omega
    · simpa using hgot rfl
  · intro hg; rw [(hexp hg).2, hc]
  · rw [← hc]; exact htm

end Sys2Proof.Machine
end

