-- ==== Sys2Proof/Laws/Commands.lean ====
section
/-! SUPPORT. How a command's meaning comes from its body, case by case of what the body gives, so that a proof rewrites with
these and never lets a match on a whole procedure be evaluated. -/
namespace Sys2Proof.Machine

theorem whenReady_idle {s t : State} (h : s.busy = false) : whenReady s t = .next t := by
  rw [whenReady, h]; rfl

theorem whenReady_busy {s t : State} (h : s.busy = true) : whenReady s t = .next s := by
  rw [whenReady, h]; rfl

/-- A command that takes no time, taken. -/
theorem instant_idle {op idx : BitVec 4} {arg : Byte} {body : State → State} {s : State} (h : s.busy = false) :
    instant op idx arg body s = .next (finish 0 (body (accept op idx arg s))) := whenReady_idle h

/-- The illegal outcome of a command that is taken. -/
theorem illegal_eq {op idx : BitVec 4} {arg : Byte} {s : State} (h : s.busy = false) :
    whenReady s (illegal op idx arg s) = .next (illegalOutcome op idx arg s) := by
  rw [whenReady_idle h]
  cases s
  simp only at h
  subst h
  rfl

/-- A command that takes time and ends. -/
theorem timed_ended {op idx : BitVec 4} {arg : Byte} {body : State → Ran (BitVec 3)} {s t : State} {c : BitVec 3}
    (h : s.busy = false) (hb : body (accept op idx arg s) = .ended c t) :
    timed op idx arg body s = .next (finishIdle c t) := by
  rw [timed, whenReady_idle h, hb]; rfl

/-- A command that takes time and hangs. -/
theorem timed_hung {op idx : BitVec 4} {arg : Byte} {body : State → Ran (BitVec 3)} {s t : State} (h : s.busy = false)
    (hb : body (accept op idx arg s) = .hung t) : timed op idx arg body s = .next t := by
  rw [timed, whenReady_idle h, hb]; rfl

theorem sendFrame_ended {s t : State} (h : transmit s = .ended () t) : sendFrame s = .ended 0 t := by
  unfold sendFrame; rw [h]; rfl

theorem sendFrame_hung {s t : State} (h : transmit s = .hung t) : sendFrame s = .hung t := by
  unfold sendFrame; rw [h]; rfl

theorem sendLoaded_ended {f : Frame8} {s t : State} (h : s.busy = false)
    (ht : transmit (accept 0x6 0 0 (loadFrame f s)) = .ended () t) : sendLoaded f s = .next (finishIdle 0 t) := by
  rw [sendLoaded, whenReady_idle h, sendFrame_ended ht]; rfl

theorem sendLoaded_hung {f : Frame8} {s t : State} (h : s.busy = false)
    (ht : transmit (accept 0x6 0 0 (loadFrame f s)) = .hung t) : sendLoaded f s = .next t := by
  rw [sendLoaded, whenReady_idle h, sendFrame_hung ht]; rfl

theorem doProbe_hung {c : Byte} {s t : State} (h : transmit (buildProbe c s) = .hung t) : doProbe c s = .hung t := by
  unfold doProbe; rw [h]; rfl

theorem doRead_hung {s t : State} (h : transmit (buildRead s) = .hung t) : doRead s = .hung t := by
  unfold doRead; rw [h]; rfl

/-! ## DISCOVER, one candidate -/

theorem discoverFrom_hung {i : Nat} {c : Byte} {cs : List Byte} {s t : State}
    (h : doProbe c { s with ci := BitVec.ofNat 8 i } = .hung t) : discoverFrom i (c :: cs) s = .hung t := by
  rw [discoverFrom, h]; rfl

theorem discoverFrom_got {i : Nat} {c : Byte} {cs : List Byte} {s t : State}
    (h : doProbe c { s with ci := BitVec.ofNat 8 i } = .ended 0 t) : discoverFrom i (c :: cs) s = .ended 0 t := by
  rw [discoverFrom, h]; simp [Ran.andThen, Kind.code]

theorem discoverFrom_last {i : Nat} {c : Byte} {s t : State}
    (h : doProbe c { s with ci := BitVec.ofNat 8 i } = .ended 3 t) :
    discoverFrom i [c] s = .ended 2 (emit (.error 2) t) := by
  rw [discoverFrom, h]; simp [Ran.andThen, Kind.code, discoverFrom, emitError]

theorem discoverFrom_next {i : Nat} {c c' : Byte} {cs : List Byte} {s t : State}
    (h : doProbe c { s with ci := BitVec.ofNat 8 i } = .ended 3 t) :
    discoverFrom i (c :: c' :: cs) s = discoverFrom (i + 1) (c' :: cs) (gapDelay t) := by
  rw [discoverFrom, h]; simp [Ran.andThen, Kind.code]

/-! ## READ_RETRY, one attempt -/

theorem retryFrom_hung {more att : Nat} {s t : State} (h : doRead { s with att := BitVec.ofNat 8 att } = .hung t) :
    retryFrom more att s = .hung t := by
  cases more <;> rw [retryFrom, h] <;> rfl

theorem retryFrom_satisfied {more att : Nat} {s t : State} {r : BitVec 3}
    (h : doRead { s with att := BitVec.ofNat 8 att } = .ended r t) (hs : satisfied r t = true) :
    retryFrom more att s = .ended r { t with nodata := false } := by
  cases more <;> rw [retryFrom, h] <;> simp [Ran.andThen, hs]

theorem retryFrom_last {att : Nat} {s t : State} {r : BitVec 3}
    (h : doRead { s with att := BitVec.ofNat 8 att } = .ended r t) (hs : satisfied r t = false) :
    retryFrom 0 att s = .ended r { t with nodata := true } := by
  rw [retryFrom, h]; simp [Ran.andThen, hs]

theorem retryFrom_next {more att : Nat} {s t : State} {r : BitVec 3}
    (h : doRead { s with att := BitVec.ofNat 8 att } = .ended r t) (hs : satisfied r t = false) :
    retryFrom (more + 1) att s = retryFrom more (att + 1) (backoffDelay t) := by
  rw [retryFrom, h]; simp [Ran.andThen, hs]

end Sys2Proof.Machine
end

