-- ==== Sys2Proof/Laws/PerInstr.lean ====
section
/-! SUPPORT. For every instruction: the bits the encoder writes match the instruction's row of the opcode table
(`30_encoding.md` rules R92, R94, R102, R107). -/
namespace Sys2Proof.Laws.RowMatch

/-- Match and mask of an instruction's row. -/
def row : Instr → Raw × Raw
  | .nop => (.command 0x0000, .command 0xFFFF)
  | .crcInit => (.command 0x1000, .command 0xFFFF)
  | .crcByte _ => (.command 0x2000, .command 0xFF00)
  | .encode _ => (.command 0x3000, .command 0xFF00)
  | .verify => (.command 0x4000, .command 0xFFFF)
  | .ldtx _ _ => (.command 0x5000, .command 0xF800)
  | .send => (.command 0x6000, .command 0xFFFF)
  | .flushrx => (.command 0x7000, .command 0xFFFF)
  | .probe _ => (.command 0x8000, .command 0xFF00)
  | .discover => (.command 0x9000, .command 0xFFFF)
  | .read => (.command 0xA000, .command 0xFFFF)
  | .readRetry => (.command 0xB000, .command 0xFFFF)
  | .reservedC _ _ => (.command 0xC000, .command 0xF000)
  | .reservedD _ _ => (.command 0xD000, .command 0xF000)
  | .reservedE _ _ => (.command 0xE000, .command 0xF000)
  | .reservedF _ _ => (.command 0xF000, .command 0xF000)
  | .requestFrame _ _ _ => (.request 0x0003000000010000, .request 0x00FFFFFFFFFF0000)
  | .replyFrame _ _ _ _ _ _ => (.reply 0x00030000000000, .reply 0x00FF0000000000)

/-- Bits under a mask equal the match. -/
def Selected : Raw → Raw × Raw → Prop
  | .command w, (.command m, .command k) => w &&& k = m
  | .request w, (.request m, .request k) => w &&& k = m
  | .reply w, (.reply m, .reply k) => w &&& k = m
  | _, _ => False

/-- A well-formed instruction's encoding matches its row. -/
def Statement (i : Instr) : Prop := i.wellFormed = true → Selected (encode i) (row i)

/-- A command word's fields do not disturb the bits of `OP`. -/
theorem commandWord_op (op idx : BitVec 4) (arg : Byte) : commandWord op idx arg &&& 0xF000 = commandWord op 0 0 := by
  apply BitVec.eq_of_getLsbD_eq
  intro i hi
  simp only [commandWord, BitVec.getLsbD_and, BitVec.getLsbD_append]
  interval_cases i <;> simp

/-- With `IDX = 0` the operand does not disturb the high byte. -/
theorem commandWord_high (op : BitVec 4) (arg : Byte) : commandWord op 0 arg &&& 0xFF00 = commandWord op 0 0 := by
  apply BitVec.eq_of_getLsbD_eq
  intro i hi
  simp only [commandWord, BitVec.getLsbD_and, BitVec.getLsbD_append]
  interval_cases i <;> simp

theorem nop : Statement .nop := fun _ => by show commandWord 0x0 0 0 &&& 0xFFFF = 0x0000; decide
theorem crcInit : Statement .crcInit := fun _ => by show commandWord 0x1 0 0 &&& 0xFFFF = 0x1000; decide
theorem crcByte (b : Byte) : Statement (.crcByte b) := fun _ => (commandWord_high 2 b).trans (by decide)
theorem encode (a : Byte) : Statement (.encode a) := fun _ => (commandWord_high 3 a).trans (by decide)
theorem verify : Statement .verify := fun _ => by show commandWord 0x4 0 0 &&& 0xFFFF = 0x4000; decide

theorem ldtx (i : BitVec 4) (b : Byte) : Statement (.ldtx i b) := by
  intro h
  have hi : i[3] = false := by
    simp only [Instr.wellFormed, decide_eq_true_eq] at h
    revert h; revert i; decide
  show commandWord 5 i b &&& 0xF800 = 0x5000
  apply BitVec.eq_of_getLsbD_eq
  intro k hk
  simp only [commandWord, BitVec.getLsbD_and, BitVec.getLsbD_append]
  interval_cases k <;> simp [hi]

theorem send : Statement .send := fun _ => by show commandWord 0x6 0 0 &&& 0xFFFF = 0x6000; decide
theorem flushrx : Statement .flushrx := fun _ => by show commandWord 0x7 0 0 &&& 0xFFFF = 0x7000; decide
theorem probe (a : Byte) : Statement (.probe a) := fun _ => (commandWord_high 8 a).trans (by decide)
theorem discover : Statement .discover := fun _ => by show commandWord 0x9 0 0 &&& 0xFFFF = 0x9000; decide
theorem read : Statement .read := fun _ => by show commandWord 0xA 0 0 &&& 0xFFFF = 0xA000; decide
theorem readRetry : Statement .readRetry := fun _ => by show commandWord 0xB 0 0 &&& 0xFFFF = 0xB000; decide
theorem reservedC (idx : BitVec 4) (arg : Byte) : Statement (.reservedC idx arg) := fun _ => commandWord_op 0xC idx arg
theorem reservedD (idx : BitVec 4) (arg : Byte) : Statement (.reservedD idx arg) := fun _ => commandWord_op 0xD idx arg
theorem reservedE (idx : BitVec 4) (arg : Byte) : Statement (.reservedE idx arg) := fun _ => commandWord_op 0xE idx arg
theorem reservedF (idx : BitVec 4) (arg : Byte) : Statement (.reservedF idx arg) := fun _ => commandWord_op 0xF idx arg

theorem requestFrame (a l h : Byte) : Statement (.requestFrame a l h) := by
  intro _
  show (a ++ 0x0300000001#40 ++ l ++ h : BitVec 64) &&& 0x00FFFFFFFFFF0000 = 0x0003000000010000
  apply BitVec.eq_of_getLsbD_eq
  intro k hk
  simp only [BitVec.getLsbD_and, BitVec.getLsbD_append]
  interval_cases k <;> simp

theorem replyFrame (a n d e l h : Byte) : Statement (.replyFrame a n d e l h) := by
  intro _
  show (a ++ 0x03#8 ++ n ++ d ++ e ++ l ++ h : BitVec 56) &&& 0x00FF0000000000 = 0x00030000000000
  apply BitVec.eq_of_getLsbD_eq
  intro k hk
  simp only [BitVec.getLsbD_and, BitVec.getLsbD_append]
  interval_cases k <;> simp

end Sys2Proof.Laws.RowMatch
end

