-- ==== Sys2Proof/Laws/State.lean ====
section
/-! SUPPORT. For each plain update of the state, what every field is after it: a simp lemma for each field, so that no
proof unfolds a record update. -/
namespace Sys2Proof.Machine

@[simp] theorem emit_changes (e : Event) (s : State) :
    (emit e s).trace = s.trace ++ [e] :=
  by simp [emit]

@[simp] theorem emit_keeps (e : Event) (s : State) :
    (emit e s).txbuf = s.txbuf ∧ (emit e s).rxbuf = s.rxbuf ∧ (emit e s).crc = s.crc ∧ (emit e s).de = s.de ∧
    (emit e s).rdis = s.rdis ∧ (emit e s).addr = s.addr ∧ (emit e s).conf = s.conf ∧ (emit e s).raw = s.raw ∧
    (emit e s).ph = s.ph ∧ (emit e s).op = s.op ∧ (emit e s).idx = s.idx ∧ (emit e s).arg = s.arg ∧
    (emit e s).ci = s.ci ∧ (emit e s).att = s.att ∧ (emit e s).txi = s.txi ∧ (emit e s).err = s.err ∧
    (emit e s).busy = s.busy ∧ (emit e s).frameOk = s.frameOk ∧ (emit e s).rspCrcOk = s.rspCrcOk ∧
    (emit e s).nodata = s.nodata ∧ (emit e s).rxq = s.rxq ∧ (emit e s).tmr = s.tmr ∧
    (emit e s).txpend = s.txpend ∧ (emit e s).done = s.done ∧ (emit e s).txd = s.txd ∧ (emit e s).shown = s.shown ∧ (emit e s).cfg = s.cfg
    ∧ (emit e s).clock = s.clock ∧ (emit e s).epoch = s.epoch ∧ (emit e s).dirAt = s.dirAt ∧
    (emit e s).fresh = s.fresh ∧ (emit e s).missed = s.missed ∧ (emit e s).turns = s.turns ∧ (emit e s).draws = s.draws ∧ (emit e s).arrivals = s.arrivals ∧
    (emit e s).plans = s.plans ∧ (emit e s).offers = s.offers ∧ (emit e s).resets = s.resets ∧
    (emit e s).level = s.level := by
  simp [emit]

@[simp] theorem emitError_changes (k : Kind) (s : State) :
    (emitError k s).trace = s.trace ++ [.error k.code] :=
  by simp [emitError, emit]

@[simp] theorem emitError_keeps (k : Kind) (s : State) :
    (emitError k s).txbuf = s.txbuf ∧ (emitError k s).rxbuf = s.rxbuf ∧ (emitError k s).crc = s.crc ∧
    (emitError k s).de = s.de ∧ (emitError k s).rdis = s.rdis ∧ (emitError k s).addr = s.addr ∧
    (emitError k s).conf = s.conf ∧ (emitError k s).raw = s.raw ∧ (emitError k s).ph = s.ph ∧
    (emitError k s).op = s.op ∧ (emitError k s).idx = s.idx ∧ (emitError k s).arg = s.arg ∧
    (emitError k s).ci = s.ci ∧ (emitError k s).att = s.att ∧ (emitError k s).txi = s.txi ∧
    (emitError k s).err = s.err ∧ (emitError k s).busy = s.busy ∧ (emitError k s).frameOk = s.frameOk ∧
    (emitError k s).rspCrcOk = s.rspCrcOk ∧ (emitError k s).nodata = s.nodata ∧ (emitError k s).rxq = s.rxq ∧
    (emitError k s).tmr = s.tmr ∧ (emitError k s).txpend = s.txpend ∧ (emitError k s).done = s.done ∧
    (emitError k s).txd = s.txd ∧ (emitError k s).shown = s.shown ∧ (emitError k s).cfg = s.cfg ∧ (emitError k s).clock = s.clock ∧
    (emitError k s).epoch = s.epoch ∧ (emitError k s).dirAt = s.dirAt ∧ (emitError k s).fresh = s.fresh ∧ (emitError k s).missed = s.missed ∧ (emitError k s).turns = s.turns ∧
    (emitError k s).draws = s.draws ∧ (emitError k s).arrivals = s.arrivals ∧ (emitError k s).plans = s.plans
    ∧ (emitError k s).offers = s.offers ∧ (emitError k s).resets = s.resets ∧ (emitError k s).level = s.level := by
  simp [emitError, emit]

@[simp] theorem accept_changes (op idx : BitVec 4) (arg : Byte) (s : State) :
    (accept op idx arg s).op = op ∧ (accept op idx arg s).idx = idx ∧ (accept op idx arg s).arg = arg ∧
    (accept op idx arg s).busy = true ∧ (accept op idx arg s).done = false :=
  by simp [accept]

@[simp] theorem accept_keeps (op idx : BitVec 4) (arg : Byte) (s : State) :
    (accept op idx arg s).txbuf = s.txbuf ∧ (accept op idx arg s).rxbuf = s.rxbuf ∧
    (accept op idx arg s).crc = s.crc ∧ (accept op idx arg s).de = s.de ∧ (accept op idx arg s).rdis = s.rdis
    ∧ (accept op idx arg s).addr = s.addr ∧ (accept op idx arg s).conf = s.conf ∧
    (accept op idx arg s).raw = s.raw ∧ (accept op idx arg s).ph = s.ph ∧ (accept op idx arg s).ci = s.ci ∧
    (accept op idx arg s).att = s.att ∧ (accept op idx arg s).txi = s.txi ∧ (accept op idx arg s).err = s.err
    ∧ (accept op idx arg s).frameOk = s.frameOk ∧ (accept op idx arg s).rspCrcOk = s.rspCrcOk ∧
    (accept op idx arg s).nodata = s.nodata ∧ (accept op idx arg s).rxq = s.rxq ∧
    (accept op idx arg s).tmr = s.tmr ∧ (accept op idx arg s).txpend = s.txpend ∧
    (accept op idx arg s).trace = s.trace ∧ (accept op idx arg s).txd = s.txd ∧ (accept op idx arg s).shown = s.shown ∧
    (accept op idx arg s).cfg = s.cfg ∧ (accept op idx arg s).clock = s.clock ∧
    (accept op idx arg s).epoch = s.epoch ∧ (accept op idx arg s).dirAt = s.dirAt ∧
    (accept op idx arg s).fresh = s.fresh ∧ (accept op idx arg s).missed = s.missed ∧ (accept op idx arg s).turns = s.turns ∧ (accept op idx arg s).draws = s.draws ∧
    (accept op idx arg s).arrivals = s.arrivals ∧ (accept op idx arg s).plans = s.plans ∧
    (accept op idx arg s).offers = s.offers ∧ (accept op idx arg s).resets = s.resets ∧
    (accept op idx arg s).level = s.level := by
  simp [accept]

@[simp] theorem finish_changes (c : BitVec 3) (s : State) :
    (finish c s).err = c ∧ (finish c s).busy = false ∧ (finish c s).done = true :=
  by simp [finish]

@[simp] theorem finish_keeps (c : BitVec 3) (s : State) :
    (finish c s).txbuf = s.txbuf ∧ (finish c s).rxbuf = s.rxbuf ∧ (finish c s).crc = s.crc ∧
    (finish c s).de = s.de ∧ (finish c s).rdis = s.rdis ∧ (finish c s).addr = s.addr ∧
    (finish c s).conf = s.conf ∧ (finish c s).raw = s.raw ∧ (finish c s).ph = s.ph ∧ (finish c s).op = s.op ∧
    (finish c s).idx = s.idx ∧ (finish c s).arg = s.arg ∧ (finish c s).ci = s.ci ∧ (finish c s).att = s.att ∧
    (finish c s).txi = s.txi ∧ (finish c s).frameOk = s.frameOk ∧ (finish c s).rspCrcOk = s.rspCrcOk ∧
    (finish c s).nodata = s.nodata ∧ (finish c s).rxq = s.rxq ∧ (finish c s).tmr = s.tmr ∧
    (finish c s).txpend = s.txpend ∧ (finish c s).trace = s.trace ∧ (finish c s).txd = s.txd ∧ (finish c s).shown = s.shown ∧
    (finish c s).cfg = s.cfg ∧ (finish c s).clock = s.clock ∧ (finish c s).epoch = s.epoch ∧
    (finish c s).dirAt = s.dirAt ∧ (finish c s).fresh = s.fresh ∧ (finish c s).missed = s.missed ∧ (finish c s).turns = s.turns ∧ (finish c s).draws = s.draws ∧
    (finish c s).arrivals = s.arrivals ∧ (finish c s).plans = s.plans ∧ (finish c s).offers = s.offers ∧
    (finish c s).resets = s.resets ∧ (finish c s).level = s.level := by
  simp [finish]

@[simp] theorem finishIdle_changes (c : BitVec 3) (s : State) :
    (finishIdle c s).err = c ∧ (finishIdle c s).busy = false ∧ (finishIdle c s).done = true ∧
    (finishIdle c s).ph = .idle :=
  by simp [finishIdle, finish]

@[simp] theorem finishIdle_keeps (c : BitVec 3) (s : State) :
    (finishIdle c s).txbuf = s.txbuf ∧ (finishIdle c s).rxbuf = s.rxbuf ∧ (finishIdle c s).crc = s.crc ∧
    (finishIdle c s).de = s.de ∧ (finishIdle c s).rdis = s.rdis ∧ (finishIdle c s).addr = s.addr ∧
    (finishIdle c s).conf = s.conf ∧ (finishIdle c s).raw = s.raw ∧ (finishIdle c s).op = s.op ∧
    (finishIdle c s).idx = s.idx ∧ (finishIdle c s).arg = s.arg ∧ (finishIdle c s).ci = s.ci ∧
    (finishIdle c s).att = s.att ∧ (finishIdle c s).txi = s.txi ∧ (finishIdle c s).frameOk = s.frameOk ∧
    (finishIdle c s).rspCrcOk = s.rspCrcOk ∧ (finishIdle c s).nodata = s.nodata ∧ (finishIdle c s).rxq = s.rxq
    ∧ (finishIdle c s).tmr = s.tmr ∧ (finishIdle c s).txpend = s.txpend ∧ (finishIdle c s).trace = s.trace ∧
    (finishIdle c s).txd = s.txd ∧ (finishIdle c s).shown = s.shown ∧ (finishIdle c s).cfg = s.cfg ∧ (finishIdle c s).clock = s.clock ∧
    (finishIdle c s).epoch = s.epoch ∧ (finishIdle c s).dirAt = s.dirAt ∧ (finishIdle c s).fresh = s.fresh ∧ (finishIdle c s).missed = s.missed ∧ (finishIdle c s).turns = s.turns ∧
    (finishIdle c s).draws = s.draws ∧ (finishIdle c s).arrivals = s.arrivals ∧
    (finishIdle c s).plans = s.plans ∧ (finishIdle c s).offers = s.offers ∧ (finishIdle c s).resets = s.resets
    ∧ (finishIdle c s).level = s.level := by
  simp [finishIdle, finish]

@[simp] theorem rxClear_changes (s : State) :
    (rxClear s).rxq = [] ∧ (rxClear s).fresh = 0 :=
  by simp [rxClear]

@[simp] theorem rxClear_keeps (s : State) :
    (rxClear s).txbuf = s.txbuf ∧ (rxClear s).rxbuf = s.rxbuf ∧ (rxClear s).crc = s.crc ∧
    (rxClear s).de = s.de ∧ (rxClear s).rdis = s.rdis ∧ (rxClear s).addr = s.addr ∧ (rxClear s).conf = s.conf
    ∧ (rxClear s).raw = s.raw ∧ (rxClear s).ph = s.ph ∧ (rxClear s).op = s.op ∧ (rxClear s).idx = s.idx ∧
    (rxClear s).arg = s.arg ∧ (rxClear s).ci = s.ci ∧ (rxClear s).att = s.att ∧ (rxClear s).txi = s.txi ∧
    (rxClear s).err = s.err ∧ (rxClear s).busy = s.busy ∧ (rxClear s).frameOk = s.frameOk ∧
    (rxClear s).rspCrcOk = s.rspCrcOk ∧ (rxClear s).nodata = s.nodata ∧ (rxClear s).tmr = s.tmr ∧
    (rxClear s).txpend = s.txpend ∧ (rxClear s).trace = s.trace ∧ (rxClear s).done = s.done ∧
    (rxClear s).txd = s.txd ∧ (rxClear s).shown = s.shown ∧ (rxClear s).cfg = s.cfg ∧ (rxClear s).clock = s.clock ∧
    (rxClear s).epoch = s.epoch ∧ (rxClear s).dirAt = s.dirAt ∧ (rxClear s).missed = s.missed ∧ (rxClear s).turns = s.turns ∧ (rxClear s).draws = s.draws ∧
    (rxClear s).arrivals = s.arrivals ∧ (rxClear s).plans = s.plans ∧ (rxClear s).offers = s.offers ∧
    (rxClear s).resets = s.resets ∧ (rxClear s).level = s.level := by
  simp [rxClear]

@[simp] theorem dirRx_changes (s : State) :
    (dirRx s).de = false ∧ (dirRx s).rdis = false ∧ (dirRx s).dirAt = some s.clock ∧ (dirRx s).missed = 0 := by
  simp [dirRx]

@[simp] theorem setPlan_changes (p : SerialPlan) (s : State) :
    (setPlan p s).plans = p :: s.plans.tail :=
  by simp [setPlan]

@[simp] theorem setPlan_keeps (p : SerialPlan) (s : State) :
    (setPlan p s).txbuf = s.txbuf ∧ (setPlan p s).rxbuf = s.rxbuf ∧ (setPlan p s).crc = s.crc ∧
    (setPlan p s).de = s.de ∧ (setPlan p s).rdis = s.rdis ∧ (setPlan p s).addr = s.addr ∧
    (setPlan p s).conf = s.conf ∧ (setPlan p s).raw = s.raw ∧ (setPlan p s).ph = s.ph ∧
    (setPlan p s).op = s.op ∧ (setPlan p s).idx = s.idx ∧ (setPlan p s).arg = s.arg ∧ (setPlan p s).ci = s.ci
    ∧ (setPlan p s).att = s.att ∧ (setPlan p s).txi = s.txi ∧ (setPlan p s).err = s.err ∧
    (setPlan p s).busy = s.busy ∧ (setPlan p s).frameOk = s.frameOk ∧ (setPlan p s).rspCrcOk = s.rspCrcOk ∧
    (setPlan p s).nodata = s.nodata ∧ (setPlan p s).rxq = s.rxq ∧ (setPlan p s).tmr = s.tmr ∧
    (setPlan p s).txpend = s.txpend ∧ (setPlan p s).trace = s.trace ∧ (setPlan p s).done = s.done ∧
    (setPlan p s).txd = s.txd ∧ (setPlan p s).shown = s.shown ∧ (setPlan p s).cfg = s.cfg ∧ (setPlan p s).clock = s.clock ∧
    (setPlan p s).epoch = s.epoch ∧ (setPlan p s).dirAt = s.dirAt ∧ (setPlan p s).fresh = s.fresh ∧ (setPlan p s).missed = s.missed ∧ (setPlan p s).turns = s.turns ∧
    (setPlan p s).draws = s.draws ∧ (setPlan p s).arrivals = s.arrivals ∧ (setPlan p s).offers = s.offers ∧
    (setPlan p s).resets = s.resets ∧ (setPlan p s).level = s.level := by
  simp [setPlan]

@[simp] theorem enterPost_changes (s : State) :
    (enterPost s).ph = .txPost ∧ (enterPost s).tmr = s.cfg.tPost :=
  by simp [enterPost]

@[simp] theorem enterPost_keeps (s : State) :
    (enterPost s).txbuf = s.txbuf ∧ (enterPost s).rxbuf = s.rxbuf ∧ (enterPost s).crc = s.crc ∧
    (enterPost s).de = s.de ∧ (enterPost s).rdis = s.rdis ∧ (enterPost s).addr = s.addr ∧
    (enterPost s).conf = s.conf ∧ (enterPost s).raw = s.raw ∧ (enterPost s).op = s.op ∧
    (enterPost s).idx = s.idx ∧ (enterPost s).arg = s.arg ∧ (enterPost s).ci = s.ci ∧
    (enterPost s).att = s.att ∧ (enterPost s).txi = s.txi ∧ (enterPost s).err = s.err ∧
    (enterPost s).busy = s.busy ∧ (enterPost s).frameOk = s.frameOk ∧ (enterPost s).rspCrcOk = s.rspCrcOk ∧
    (enterPost s).nodata = s.nodata ∧ (enterPost s).rxq = s.rxq ∧ (enterPost s).txpend = s.txpend ∧
    (enterPost s).trace = s.trace ∧ (enterPost s).done = s.done ∧ (enterPost s).txd = s.txd ∧ (enterPost s).shown = s.shown ∧
    (enterPost s).cfg = s.cfg ∧ (enterPost s).clock = s.clock ∧ (enterPost s).epoch = s.epoch ∧
    (enterPost s).dirAt = s.dirAt ∧ (enterPost s).fresh = s.fresh ∧ (enterPost s).missed = s.missed ∧ (enterPost s).turns = s.turns ∧ (enterPost s).draws = s.draws ∧
    (enterPost s).arrivals = s.arrivals ∧ (enterPost s).plans = s.plans ∧ (enterPost s).offers = s.offers ∧
    (enterPost s).resets = s.resets ∧ (enterPost s).level = s.level := by
  simp [enterPost]

@[simp] theorem loadFrame_changes (f : Frame8) (s : State) :
    (loadFrame f s).txbuf = f ∧ (loadFrame f s).crc = u16 f[7] f[6] :=
  by simp [loadFrame]

@[simp] theorem loadFrame_keeps (f : Frame8) (s : State) :
    (loadFrame f s).rxbuf = s.rxbuf ∧ (loadFrame f s).de = s.de ∧ (loadFrame f s).rdis = s.rdis ∧
    (loadFrame f s).addr = s.addr ∧ (loadFrame f s).conf = s.conf ∧ (loadFrame f s).raw = s.raw ∧
    (loadFrame f s).ph = s.ph ∧ (loadFrame f s).op = s.op ∧ (loadFrame f s).idx = s.idx ∧
    (loadFrame f s).arg = s.arg ∧ (loadFrame f s).ci = s.ci ∧ (loadFrame f s).att = s.att ∧
    (loadFrame f s).txi = s.txi ∧ (loadFrame f s).err = s.err ∧ (loadFrame f s).busy = s.busy ∧
    (loadFrame f s).frameOk = s.frameOk ∧ (loadFrame f s).rspCrcOk = s.rspCrcOk ∧
    (loadFrame f s).nodata = s.nodata ∧ (loadFrame f s).rxq = s.rxq ∧ (loadFrame f s).tmr = s.tmr ∧
    (loadFrame f s).txpend = s.txpend ∧ (loadFrame f s).trace = s.trace ∧ (loadFrame f s).done = s.done ∧
    (loadFrame f s).txd = s.txd ∧ (loadFrame f s).shown = s.shown ∧ (loadFrame f s).cfg = s.cfg ∧ (loadFrame f s).clock = s.clock ∧
    (loadFrame f s).epoch = s.epoch ∧ (loadFrame f s).dirAt = s.dirAt ∧ (loadFrame f s).fresh = s.fresh ∧ (loadFrame f s).missed = s.missed ∧ (loadFrame f s).turns = s.turns ∧
    (loadFrame f s).draws = s.draws ∧ (loadFrame f s).arrivals = s.arrivals ∧ (loadFrame f s).plans = s.plans
    ∧ (loadFrame f s).offers = s.offers ∧ (loadFrame f s).resets = s.resets ∧ (loadFrame f s).level = s.level := by
  simp [loadFrame]

@[simp] theorem quiet_changes (s : State) :
    (quiet s).done = false ∧ (quiet s).shown = s.trace.length :=
  by simp [quiet]

@[simp] theorem quiet_keeps (s : State) :
    (quiet s).txbuf = s.txbuf ∧ (quiet s).rxbuf = s.rxbuf ∧ (quiet s).crc = s.crc ∧ (quiet s).de = s.de ∧
    (quiet s).rdis = s.rdis ∧ (quiet s).addr = s.addr ∧ (quiet s).conf = s.conf ∧ (quiet s).raw = s.raw ∧
    (quiet s).ph = s.ph ∧ (quiet s).op = s.op ∧ (quiet s).idx = s.idx ∧ (quiet s).arg = s.arg ∧
    (quiet s).ci = s.ci ∧ (quiet s).att = s.att ∧ (quiet s).txi = s.txi ∧ (quiet s).err = s.err ∧
    (quiet s).busy = s.busy ∧ (quiet s).frameOk = s.frameOk ∧ (quiet s).rspCrcOk = s.rspCrcOk ∧
    (quiet s).nodata = s.nodata ∧ (quiet s).rxq = s.rxq ∧ (quiet s).tmr = s.tmr ∧ (quiet s).txpend = s.txpend
    ∧ (quiet s).trace = s.trace ∧ (quiet s).txd = s.txd ∧ (quiet s).cfg = s.cfg ∧ (quiet s).clock = s.clock ∧
    (quiet s).epoch = s.epoch ∧ (quiet s).dirAt = s.dirAt ∧ (quiet s).fresh = s.fresh ∧ (quiet s).missed = s.missed ∧ (quiet s).turns = s.turns ∧
    (quiet s).draws = s.draws ∧ (quiet s).arrivals = s.arrivals ∧ (quiet s).plans = s.plans ∧
    (quiet s).offers = s.offers ∧ (quiet s).resets = s.resets ∧ (quiet s).level = s.level := by
  simp [quiet]

@[simp] theorem takeOffer_changes (s : State) :
    (takeOffer s).done = false ∧ (takeOffer s).shown = s.trace.length ∧ (takeOffer s).offers = s.offers.tail :=
  by simp [takeOffer, quiet]

@[simp] theorem takeOffer_keeps (s : State) :
    (takeOffer s).txbuf = s.txbuf ∧ (takeOffer s).rxbuf = s.rxbuf ∧ (takeOffer s).crc = s.crc ∧
    (takeOffer s).de = s.de ∧ (takeOffer s).rdis = s.rdis ∧ (takeOffer s).addr = s.addr ∧
    (takeOffer s).conf = s.conf ∧ (takeOffer s).raw = s.raw ∧ (takeOffer s).ph = s.ph ∧
    (takeOffer s).op = s.op ∧ (takeOffer s).idx = s.idx ∧ (takeOffer s).arg = s.arg ∧ (takeOffer s).ci = s.ci
    ∧ (takeOffer s).att = s.att ∧ (takeOffer s).txi = s.txi ∧ (takeOffer s).err = s.err ∧
    (takeOffer s).busy = s.busy ∧ (takeOffer s).frameOk = s.frameOk ∧ (takeOffer s).rspCrcOk = s.rspCrcOk ∧
    (takeOffer s).nodata = s.nodata ∧ (takeOffer s).rxq = s.rxq ∧ (takeOffer s).tmr = s.tmr ∧
    (takeOffer s).txpend = s.txpend ∧ (takeOffer s).trace = s.trace ∧ (takeOffer s).txd = s.txd ∧
    (takeOffer s).cfg = s.cfg ∧ (takeOffer s).clock = s.clock ∧ (takeOffer s).epoch = s.epoch ∧
    (takeOffer s).dirAt = s.dirAt ∧ (takeOffer s).fresh = s.fresh ∧ (takeOffer s).missed = s.missed ∧ (takeOffer s).turns = s.turns ∧ (takeOffer s).draws = s.draws ∧
    (takeOffer s).arrivals = s.arrivals ∧ (takeOffer s).plans = s.plans ∧ (takeOffer s).resets = s.resets ∧
    (takeOffer s).level = s.level := by
  simp [takeOffer, quiet]

end Sys2Proof.Machine
end

