-- ==== Sys2Proof/Laws/Step.lean ====
section
/-! SUPPORT. What a step can do, said once: the cases of `step` and of `runRaw`. -/
namespace Sys2Proof.Machine

/-- A step resets, runs an offer, goes on with a command in progress, or lets a tick pass. -/
theorem step_cases {s t : State} (h : step s = .next t) :
    (resetDue s = true ∧ t = resetNow s) ∨
    (resetDue s = false ∧ ∃ r, dueOffer s = some r ∧ runRaw r (takeOffer s) = .next t) ∨
    (resetDue s = false ∧ dueOffer s = none ∧ s.busy = true ∧ phaseStep (quiet s) = .next t) ∨
    (resetDue s = false ∧ dueOffer s = none ∧ s.busy = false ∧ t = elapse 1 (quiet s)) := by
  unfold step at h
  split at h
  · next hr => exact .inl ⟨hr, by simpa using h.symm⟩
  · next hr =>
    have hr : resetDue s = false := by simpa using hr
    split at h
    · next r hd => exact .inr (.inl ⟨hr, r, hd, h⟩)
    · next hd =>
      split at h
      · next hb => exact .inr (.inr (.inl ⟨hr, hd, hb, h⟩))
      · next hb => exact .inr (.inr (.inr ⟨hr, hd, by simpa using hb, by simpa using h.symm⟩))

/-- An offer's bits are run by `exec`, begun phase by phase, or have the effect of bits the decoder rejects. -/
theorem runRaw_cases {r : Raw} {s t : State} (h : runRaw r s = .next t) :
    (∃ i, decode r = .ok i ∧ (exec i s = .next t ∨ byPhases s = true ∧ beginPhases i s = some t)) ∨
    (∃ e, decode r = .error e ∧ (unlisted r s = .next t ∨ byPhases s = true ∧ beginUnlisted r s = some t)) := by
  unfold runRaw at h
  split at h
  · next i hd =>
    refine .inl ⟨i, hd, ?_⟩
    split at h
    · next u hp hb =>
      obtain rfl : u = t := by simpa using h
      exact .inr ⟨hp, hb⟩
    · exact .inl h
    · exact .inl h
  · next e hd =>
    refine .inr ⟨e, hd, ?_⟩
    split at h
    · next u hp hb =>
      obtain rfl : u = t := by simpa using h
      exact .inr ⟨hp, hb⟩
    · exact .inl h
    · exact .inl h

end Sys2Proof.Machine
end

