-- ==== Sys2Proof/Tests/Slice0.lean ====
section
/-! SUPPORT. The model's own tests: expected values from `spec/95_test_vectors.md` (V numbers) and the worked examples of
the rules; and for each statement with hypotheses a concrete state that meets them. -/
namespace Sys2Proof.Tests
open Sys2Proof.Machine

-- One test after another: side by side, their threads' stacks exceed the memory a check may use.
set_option Elab.async false

/-! ## A small block -/

/-- The reference parameters, with values for the open ones as the vectors use them. -/
def cfgT : Config where
  tPre := 10
  tPost := 10
  tProbe := 500
  tGap := 500
  tRead := 1000
  tBackoff := 1000
  nAttempts := 3
  scaleDiv := 100
  baud := 9600
  charBits := 10
  cand := [0x01, 0x02, 0x10, 0x11]
  addrDefault := 0x02
  rawReset := 0x1234
  payloadSigned := false
  successPred := .valuePositive
  rspCrcEnforce := false
  rxqCap := 8
  deLevel := true
  rdisLevel := true
  attempts_pos := by decide
  attempts_le := by decide
  scale_pos := by decide
  cand_le := by decide
  cap_ge := by decide

/-- A serialiser that takes 9 ms. -/
def plan9 : SerialPlan := ⟨[⟨1, 0⟩, ⟨1, 1⟩, ⟨1, 1⟩, ⟨1, 1⟩, ⟨1, 1⟩, ⟨1, 1⟩, ⟨1, 1⟩], [1], true⟩

/-- After reset, with that serialiser. -/
def idle : State := { State.resetWith cfgT with plans := List.replicate 6 plan9 }

/-- The bytes delivered one a millisecond from `t` on. -/
def bus (t : Nat) (bs : List Byte) : List Arrival := bs.mapIdx fun i b => ⟨t + i - 1, t + i, b⟩

/-- What `exec` leaves, seen through `f`. -/
def after {α : Type} (i : Instr) (s : State) (f : State → α) : Option α :=
  match exec i s with
  | .next t => some (f t)
  | .fault _ => none
  | .refused _ => none

/-- What a step leaves, seen through `f`. -/
def stepped {α : Type} (s : State) (f : State → α) : Option α :=
  match step s with
  | .next t => some (f t)
  | .fault _ => none
  | .refused _ => none

/-- SEND in a phase of the transmit sequence. -/
def sendingIn (ph : Phase) (tmr : BitVec 16) (txi : BitVec 4) (pend : Nat) : State :=
  { idle with busy := true, op := 0x6, ph := ph, tmr := tmr, txi := txi, txpend := pend, de := true, rdis := true }

/-- The phase-level step of a state, if it has one. -/
def phaseNext (s : State) : Option State :=
  match phaseStep s with
  | .next t => some t
  | .fault _ => none
  | .refused _ => none

/-! ## Well-formedness -/

theorem test_ldtx_index_eight_is_ill_formed : (Instr.ldtx 8 0).wellFormed = false := by decide +kernel
theorem test_request_with_swapped_crc_is_ill_formed : (Instr.requestFrame 0x02 0x39 0x84).wellFormed = false := by decide +kernel
theorem test_request_with_its_crc_is_well_formed : (Instr.requestFrame 0x02 0x84 0x39).wellFormed = true := by decide +kernel

/-! ## Decoding: words written out from the encodings (V18, V35, R91, R93) -/

theorem test_decode_nop : decode (.command 0b0000_0000_00000000) = .ok .nop := by decide +kernel
theorem test_decode_crcInit : decode (.command 0b0001_0000_00000000) = .ok .crcInit := by decide +kernel
theorem test_decode_crcByte : decode (.command 0b0010_0000_10000100) = .ok (.crcByte 0x84) := by decide +kernel
theorem test_decode_encode : decode (.command 0b0011_0000_00000010) = .ok (.encode 0x02) := by decide +kernel
theorem test_decode_verify : decode (.command 0b0100_0000_00000000) = .ok .verify := by decide +kernel
theorem test_decode_ldtx : decode (.command 0b0101_0110_10000101) = .ok (.ldtx 6 0x85) := by decide +kernel
theorem test_decode_send : decode (.command 0b0110_0000_00000000) = .ok .send := by decide +kernel
theorem test_decode_flushrx : decode (.command 0b0111_0000_00000000) = .ok .flushrx := by decide +kernel
theorem test_decode_probe : decode (.command 0b1000_0000_00010000) = .ok (.probe 0x10) := by decide +kernel
theorem test_decode_discover : decode (.command 0b1001_0000_00000000) = .ok .discover := by decide +kernel
theorem test_decode_read : decode (.command 0b1010_0000_00000000) = .ok .read := by decide +kernel
theorem test_decode_readRetry : decode (.command 0b1011_0000_00000000) = .ok .readRetry := by decide +kernel
theorem test_decode_reservedC : decode (.command 0b1100_0000_00000000) = .ok (.reservedC 0 0) := by decide +kernel
theorem test_decode_reservedD : decode (.command 0b1101_0001_00100011) = .ok (.reservedD 1 0x23) := by decide +kernel
theorem test_decode_reservedE : decode (.command 0b1110_0000_00000000) = .ok (.reservedE 0 0) := by decide +kernel
theorem test_decode_reservedF : decode (.command 0b1111_1111_11111111) = .ok (.reservedF 0xF 0xFF) := by decide +kernel
theorem test_decode_request :
    decode (.request 0b00000010_00000011_00000000_00000000_00000000_00000001_10000100_00111001) =
      .ok (.requestFrame 0x02 0x84 0x39) := by decide +kernel
theorem test_decode_reply :
    decode (.reply 0b00000010_00000011_00000010_00000010_10001010_01111100_10000011) =
      .ok (.replyFrame 0x02 0x02 0x02 0x8A 0x7C 0x83) := by decide +kernel
theorem test_decode_rejects :
    ([0x0001, 0x0100, 0x1001, 0x4010, 0x6001, 0x7100, 0x9001, 0xA0FF, 0xB100, 0x2184, 0x3102, 0x8110].map
      fun w => decode (.command w)) = List.replicate 12 (.error .reservedField) := by decide +kernel
theorem test_decode_rejects_index :
    decode (.command 0x5800) = .error .indexAboveSeven ∧ decode (.command 0x5F00) = .error .indexAboveSeven := by decide +kernel
theorem test_decode_rejects_frames :
    decode (.request 0x0203000000028439) = .error .notRequestShape ∧
      decode (.reply 0x02830230F10000) = .error .notReplyShape := by decide +kernel

/-! ## The CRC and the codec (V2, V3, V4, V5, V7, V14, V17) -/

theorem test_crc_table_entries :
    [0x00, 0x01, 0x02, 0x03, 0x10, 0x7F, 0x80, 0xFD, 0xFE, 0xFF].map crcTable =
      [0x0000, 0xC0C1, 0xC181, 0x0140, 0xCC01, 0xE041, 0xA001, 0x81C1, 0x8081, 0x4040] := by decide +kernel
theorem test_crc_degenerate_inputs :
    crc16 [0x00] = 0x40BF ∧ crc16 [0xFF] = 0x00FF ∧ crc16 [1, 2, 3] = 0x6161 ∧
      crc16 [0, 0, 0, 0, 0, 0, 0, 0] = 0x0B40 := by decide +kernel
theorem test_requests : [0x00, 0x7F, 0xF7, 0xFF].map requestCrc = [0xDB85, 0x148E, 0x9C90, 0xD491] := by decide +kernel
theorem test_swapped_crc_is_no_residue : crc16 [0x02, 0x03, 0x00, 0x00, 0x00, 0x01, 0x39, 0x84] = 0x21B1 := by decide +kernel
theorem test_signed_reading :
    intValue { cfgT with payloadSigned := true } 0xFFFF = -1 ∧ intValue cfgT 0xFFFF = 65535 := by decide +kernel
theorem test_success_boundaries :
    ([0x0000, 0x0001, 0x7FFF, 0x8000, 0xFFFF].map (passes cfgT) = [false, true, true, true, true]) ∧
      ([0x0000, 0x0001, 0x7FFF, 0x8000, 0xFFFF].map (passes { cfgT with payloadSigned := true })) =
        [false, true, true, false, false] := by decide +kernel

/-! ## One instruction at a time -/

theorem test_nop : after .nop { idle with err := 3, crc := 7 } (fun t => (t.err, t.crc, t.done)) = some (0, 7, true) := by
  decide +kernel
theorem test_crcInit : after .crcInit { idle with crc := 7 } (fun t => (t.crc, t.op)) = some (0xFFFF, 1) := by
  decide +kernel
/-- V8. -/
theorem test_crcByte : after (.crcByte 0x02) idle (fun t => (t.crc, t.arg)) = some (0x813E, 0x02) := by decide +kernel
/-- V10. -/
theorem test_encode : after (.encode 0x02) idle (fun t => (t.txbuf.toList, t.crc, t.addr)) =
    some ([0x02, 0x03, 0x00, 0x00, 0x00, 0x01, 0x84, 0x39], 0x3984, 0x02) := by decide +kernel
/-- V11, from reset. -/
theorem test_verify_zero_frame : after .verify idle (fun t => (t.crc, status t)) = some (0x1B00, 0x0000) := by
  decide +kernel
/-- V11, after `ENCODE 0x10`. -/
theorem test_verify_good_frame :
    after .verify { idle with txbuf := request 0x10 } (fun t => (t.crc, status t)) = some (0x4B87, 0x0020) := by
  decide +kernel
/-- V12. -/
theorem test_ldtx : after (.ldtx 6 0x85) { idle with txbuf := request 0x02 } (fun t => (t.txbuf.toList, t.crc)) =
    some ([0x02, 0x03, 0x00, 0x00, 0x00, 0x01, 0x85, 0x39], 0xFFFF) := by decide +kernel
theorem test_ldtx_index_eight : after (.ldtx 8 0) idle (fun t => (status t, t.trace, t.txbuf == idle.txbuf, t.idx)) =
    some (0x0005, [.error 5], true, 8) := by decide +kernel
/-- V22. -/
theorem test_send :
    after .send { idle with txbuf := request 0x02, arrivals := [⟨14, 15, 0x5A⟩] }
      (fun t => (now t, status t, t.txd, t.rxq, t.trace.length)) =
    some (29, 0x0000, [0x02, 0x03, 0x00, 0x00, 0x00, 0x01, 0x84, 0x39], [], 1) := by decide +kernel
/-- V23. -/
theorem test_flushrx : after .flushrx { idle with rxq := [0x10, 0x03, 0x02] } (fun t => (t.rxq, t.rxbuf.toList)) =
    some ([], [0, 0, 0, 0, 0, 0, 0, 0]) := by decide +kernel
/-- V25 (a). -/
theorem test_probe_noise :
    after (.probe 0x20) { idle with addr := 0x05, rxq := [0x99, 0x98], arrivals := [⟨299, 300, 0xFF⟩] }
      (fun t => (t.addr, status t, t.rxq, t.crc, now t)) = some (0x20, 0x0010, [0xFF], 0xBB82, 300) := by
  decide +kernel
/-- V25 (b). -/
theorem test_probe_blind_window :
    after (.probe 0x20) { idle with addr := 0x05, arrivals := [⟨24, 25, 0xFF⟩] }
      (fun t => (t.addr, status t, t.rxq, now t)) = some (0x05, 0x0003, [], 529) := by decide +kernel
/-- R193's example. -/
theorem test_discover : after .discover { idle with arrivals := [⟨2097, 2098, 0x10⟩] }
    (fun t => (t.addr, t.conf, t.err, t.ci, now t)) = some (0x10, true, 0, 2, 2098) := by decide +kernel
theorem test_discover_fails : after .discover idle (fun t => (t.addr, t.conf, t.err, t.trace.length, now t)) =
    some (0x02, false, 2, 9, 4 * 529 + 3 * 500) := by decide +kernel
/-- V29: the seventh byte exactly at the deadline. -/
theorem test_read_at_the_deadline :
    after .read { idle with arrivals := bus 40 [0x02, 0x03, 0x02, 0x02, 0x8A, 0x7C] ++ [⟨1028, 1029, 0x83⟩] }
      (fun t => (t.raw, t.err, now t, t.rspCrcOk, t.crc)) = some (0x028A, 0, 1029, true, 0x837C) := by decide +kernel
/-- V20. -/
theorem test_read_from_another_address :
    after .read { idle with arrivals := bus 40 [0x03, 0x03, 0x02, 0x02, 0x8A, 0x41, 0x43] }
      (fun t => (t.raw, status t, t.crc, t.rxbuf.toList, now t)) =
    some (0x1234, 0x0044, 0x4341, [0x03, 0x03, 0x02, 0x02, 0x8A, 0x41, 0x43, 0x00], 46) := by decide +kernel
/-- R199 (c). -/
theorem test_readRetry_times_out : after .readRetry idle (fun t => (t.raw, t.err, t.nodata, now t, t.att)) =
    some (0x1234, 3, true, 5087, 3) := by decide +kernel
/-- R199 (a). -/
theorem test_readRetry_stops_early :
    after .readRetry { idle with arrivals := bus 40 [0x02, 0x03, 0x02, 0x02, 0x8A, 0x7C, 0x83] }
      (fun t => (t.raw, t.err, t.nodata, now t, t.att)) = some (0x028A, 0, false, 46, 1) := by decide +kernel
/-- V35. -/
theorem test_reserved_operations :
    [Instr.reservedC 0 0, .reservedD 1 0x23, .reservedE 0 0, .reservedF 0xF 0xFF].map
      (fun i => after i idle (fun t => (status t, t.trace))) = List.replicate 4 (some (0x0005, [.error 5])) := by
  decide +kernel
theorem test_requestFrame : after (.requestFrame 0x02 0x84 0x39) idle (fun t => (t.txd, t.crc, now t)) =
    some ([0x02, 0x03, 0x00, 0x00, 0x00, 0x01, 0x84, 0x39], 0x3984, 29) := by decide +kernel
/-- V34: a full queue keeps its oldest bytes. -/
theorem test_replyFrame_overflow : after (.replyFrame 3 5 6 7 8 9) { idle with rxq := [0, 1, 2] } (fun t => t.rxq) =
    some [0, 1, 2, 3, 3, 5, 6, 7] := by decide +kernel

/-! ## Steps -/

/-- READ in its wait. -/
def waiting : State := { idle with busy := true, ph := .rxWait, op := 0xA, tmr := 1000 }

theorem test_replyFrame_answers_read : after (.replyFrame 0x02 0x02 0x02 0x8A 0x7C 0x83) waiting
    (fun t => (t.raw, status t, t.rxq, t.done)) = some (0x028A, 0x0040, [], true) := by decide +kernel
theorem test_step_of_a_table_word : stepped (idle.withFetchWord 16 0x3002) (fun t => (t.crc, t.offers)) =
    some (0x3984, []) := by decide +kernel
/-- V36. -/
theorem test_reset_in_mid_transmission :
    stepped { idle with busy := true, ph := .txData, de := true, rdis := true, txpend := 3, clock := 14, resets := [⟨14, 14⟩] }
      (fun t => (status t, t.txpend, now t, t.done, t.trace)) = some (0x0000, 0, 0, false, []) := by decide +kernel
/-- `rst` held for two ticks: a byte delivered while it is high is lost, and `now` is 0 in it and after it falls (R260). -/
def heldReset : State :=
  { waiting with clock := 14, resets := [⟨14, 16⟩], arrivals := [⟨13, 14, 1⟩, ⟨14, 15, 2⟩, ⟨15, 16, 3⟩] }
theorem test_reset_held : stepped heldReset (fun t => (now t, t.clock, t.rxq, t.arrivals.length, resetDue t)) =
    some (0, 15, [], 2, true) := by decide +kernel
theorem test_reset_falls : stepped { heldReset with clock := 16, arrivals := [⟨15, 16, 3⟩] }
    (fun t => (now t, t.clock, t.rxq, t.arrivals.length, resetDue t)) = some (0, 16, [], 1, false) := by decide +kernel
/-- V22: the status seen in the leading settle delay. -/
theorem test_phase_level_status :
    stepped { idle with level := .phase, offers := [⟨0, .command 0x6000⟩] } (fun t => (status t, t.tmr)) =
      some (0x0708, 10) := by decide +kernel

/-- R48: a step that reads shows `Received` and then `Reading` on the event port, and an idle step shows nothing. -/
theorem test_event_port : stepped (waiting.withFetchWord 56 0x020302028A7C83) (fun t => (evValid t, evPort t)) =
    some (true, [(2, 0x020302028A7C8300), (4, 0x028A)]) ∧
    stepped { idle with trace := [.discovered 1] } (fun t => (evValid t, t.trace.length)) = some (false, 1) := by
  decide +kernel

/-! ## Witnesses: states and operands that meet the hypotheses of the statements -/

theorem witness_DecodeOfEncode : (Instr.ldtx 7 0xFF).wellFormed = true ∧ (Instr.reservedF 0xF 0xFF).wellFormed = true ∧
    (Instr.requestFrame 0xFF 0x91 0xD4).wellFormed = true := by decide +kernel

theorem witness_EncodeOfDecode : decode (.command 0x57FF) = .ok (.ldtx 7 0xFF) := by decide +kernel

theorem witness_CommandWordTable : (∀ p ∈ commandPatterns, ¬ selects 0x5800 p) ∧ (∀ p ∈ commandPatterns, ¬ selects 0xC000 p) ∧
    selects 0x57FF (0x5000, 0xF800) ∧ idle.busy = false :=
  ⟨by simp [commandPatterns], by simp [commandPatterns], by decide, rfl⟩

theorem witness_StepRuns_command : resetDue { idle with offers := [⟨0, .command 0x3002⟩] } = false ∧
    idle.busy = false ∧ decode (.command 0x3002) = .ok (.encode 0x02) ∧ byPhases idle = false := by decide +kernel
theorem witness_StepRuns_phases : byPhases { idle with level := .phase } = true ∧
    byPhases { idle with resets := [⟨99, 99⟩] } = true ∧ resetDue { idle with resets := [⟨99, 99⟩] } = false ∧
    (beginPhases .send { idle with level := .phase }).isSome ∧ beginPhases .nop { idle with level := .phase } = none := by
  decide +kernel
theorem witness_StepRuns_reply : resetDue waiting = false ∧
    decode (.reply 0x020302028A7C83) = .ok (.replyFrame 0x02 0x02 0x02 0x8A 0x7C 0x83) := by decide +kernel
theorem witness_StepRuns_tableWord : rawOf 56 0x00030000000000 = some (.reply 0x00030000000000) ∧
    decode (.reply 0x00030000000000) = .ok (.replyFrame 0 0 0 0 0 0) ∧ byPhases idle = false := by decide +kernel

theorem witness_BusyTakesNoCommand : waiting.busy = true ∧ resetDue waiting = false ∧
    (∀ f, Raw.command 0x0000 ≠ .reply f) ∧ (∀ a n d e l h, Instr.send ≠ .replyFrame a n d e l h) := by
  refine ⟨rfl, rfl, ?_, ?_⟩ <;> intros <;> simp

/-- For the statements whose one hypothesis is that no command is in progress. -/
theorem witness_not_busy : idle.busy = false := rfl

theorem witness_NonzeroReservedFields : reservedFieldSet 0x2 1 0x84 ∧ reservedFieldSet 0x6 0 0x01 ∧
    reservedFieldSet 0x5 8 0x00 ∧ reservedFieldSet 0xB 0xF 0xFF := by decide +kernel

theorem witness_ResetWinsInAnyState : resetDue { waiting with clock := 14, resets := [⟨14, 14⟩] } = true ∧
    resetDue heldReset = true ∧ heldReset.clock < 16 := by decide +kernel

theorem witness_CrcDetectsOneBit : (0 : Nat) < 8 ∧ (7 : Nat) < 8 := by decide +kernel

theorem witness_ReplyDecoding :
    let r : Frame7 := #v[0x02, 0x03, 0x02, 0x02, 0x8B, 0x7C, 0x83]
    r[0] = 0x02 ∧ r[1] = 0x03 ∧ r[0] ≠ 0x03 ∧ { cfgT with rspCrcEnforce := true }.rspCrcEnforce = true ∧
      rspCrcMatches r = false ∧ rspCrcMatches #v[0x02, 0x03, 0x02, 0x02, 0x8A, 0x7C, 0x83] = true ∧
      cfgT.rspCrcEnforce = false := by decide +kernel

theorem witness_ReplyBytesNotLookedAt : cfgT.rspCrcEnforce = false ∧
    rspCrcMatches (replyBytes 2 2 2 0x8A 0x7C 0x83) = rspCrcMatches (replyBytes 2 5 2 0x8A 0xCD 0x42) := by decide +kernel

theorem witness_SensorValue : cfgT.payloadSigned = false ∧ cfgT.scaleDiv = 100 ∧
    { cfgT with payloadSigned := true }.payloadSigned = true ∧ { cfgT with payloadSigned := true }.scaleDiv = 100 := by decide +kernel

theorem witness_SuccessPredicate : cfgT.successPred = .valuePositive ∧
    { cfgT with successPred := .accepts [0xFFFF] }.successPred = .accepts [0xFFFF] := by decide +kernel

theorem witness_EventPortAndPins : (7 : Nat) < 8 ∧ (6 : Nat) < 7 ∧ idle.de = false ∧ { idle with de := true }.de = true ∧
    { idle with rdis := true }.rdis = true ∧
    txValid (sendingIn .txData 0 7 7) = true ∧ txValid (sendingIn .txData 0 8 8) = false := by decide +kernel

theorem witness_LdtxResult : (7 : BitVec 4).toNat < 8 ∧ 7 < (8 : BitVec 4).toNat := by decide +kernel

/-- For RequestFrameResult, SendResult, ProbeResult, ReadResult (`Idles`) and for DiscoverResult, ReadRetryResult,
ReadRetryIsRepeatedRead (`AlwaysIdles`): with a plan, and with none. -/
theorem witness_not_busy_and_idles : (idle.busy = false ∧ Idles idle ∧ AlwaysIdles idle) ∧
    ((State.resetWith cfgT).busy = false ∧ Idles (State.resetWith cfgT) ∧ AlwaysIdles (State.resetWith cfgT)) := by
  decide +kernel

/-- A bus that delivers in the transmit span, right after the release and at the two deadlines. -/
def quietBus : State :=
  { idle with arrivals := [⟨14, 15, 0x5A⟩, ⟨29, 30, 0x02⟩, ⟨528, 529, 0x03⟩, ⟨1028, 1029, 0x02⟩] }

/-- The same with a whole reply queued before. -/
def staleBus : State := { quietBus with rxq := [2, 3, 2, 2, 0x8A, 0x7C, 0x83] }

/-- For SendResult, RequestFrameResult, ProbeResult, ReadResult, ProbeAnsweredExactly and ReadTimesOutExactly. -/
theorem witness_quiet_transmit : quietBus.busy = false ∧ quietBus.plans = plan9 :: List.replicate 5 plan9 ∧
    plan9.idles = true ∧ QuietTransmit (serialTime plan9) quietBus ∧ Steady quietBus ∧ Steady { quietBus with turns := [7] } :=
  ⟨rfl, rfl, rfl, ⟨by decide +kernel, by decide +kernel, by decide +kernel, by decide +kernel, by decide +kernel⟩,
    by decide +kernel, by decide +kernel⟩

theorem witness_ReadTakesStaleBytes : staleBus.busy = false ∧ staleBus.plans = plan9 :: List.replicate 5 plan9 ∧
    plan9.idles = true ∧ QuietTransmit (serialTime plan9) staleBus ∧
    staleBus.rxq = (#v[2, 3, 2, 2, 0x8A, 0x7C, 0x83] : Frame7).toList ++ [] ∧
    decodeReply cfgT #v[2, 3, 2, 2, 0x8A, 0x7C, 0x83] staleBus.addr = .ok 0x028A :=
  ⟨rfl, rfl, rfl, ⟨by decide +kernel, by decide +kernel, by decide +kernel, by decide +kernel, by decide +kernel⟩,
    by decide +kernel, by decide +kernel⟩

/-- A serialiser that never becomes idle. -/
def endless : State := { idle with plans := [⟨[], [], false⟩] }

/-- The hang. -/
def hung : State :=
  { endless with busy := true, ph := .txDrain, de := true, rdis := true, txpend := 8, txi := 8, op := 0x6 }

theorem witness_SendHangs : ¬ Idles endless ∧ endless.busy = false ∧
    (∀ i ∈ [Instr.send, .probe 5, .discover, .read, .readRetry, .requestFrame 2 0x84 0x39], (beginPhases i endless).isSome) ∧ Hung hung ∧ resetDue hung = false :=
  ⟨by decide +kernel, rfl, by decide +kernel, ⟨rfl, rfl, ⟨rfl, rfl⟩, by decide +kernel, ⟨rfl, rfl⟩⟩, rfl⟩

theorem witness_ArbiterPhases : (sendingIn .txPre 1 0 0).tmr ≠ 0 ∧ (sendingIn .txPre 0 0 0).tmr = 0 ∧
    (sendingIn .txData 0 7 7).txi.toNat < 8 ∧ 8 ≤ (sendingIn .txData 0 8 8).txi.toNat ∧
    (sendingIn .txDrain 0 8 1).txpend ≠ 0 ∧ (sendingIn .txDrain 0 8 0).txpend = 0 ∧ sending (sendingIn .txPost 0 8 0).op ∧
    (beginPhases .send idle).isSome := by decide +kernel

/-- A serialiser that is not ready now: one of two pending characters ends in the tick, or the last one. -/
def notReady (ended : Nat) (s : State) : State := { s with plans := [⟨[⟨0, ended⟩, ⟨8, 0⟩], [], true⟩] }

/-- R166, R164: byte 0 too waits for `tx_ready`. -/
theorem test_first_byte_waits :
    (phaseNext (notReady 0 (sendingIn .txData 0 0 0))).map (fun t => (t.txd, t.txi, t.clock, txReady t, txData t)) =
      some ([], 0, 1, true, some 0x00) := by decide +kernel
/-- R43: between two bytes the serialiser can become idle. -/
theorem test_serialiser_idle_between_bytes :
    (phaseNext (notReady 1 (sendingIn .txData 0 3 1))).map (fun t => (t.txpend, txIdle t, t.txi)) = some (0, true, 3) := by
  decide +kernel
/-- R65: a character lost in the tick of a `DirRx()` is drawn there. -/
theorem test_reply_in_the_tick_of_release :
    after (.replyFrame 2 2 2 0x8A 0x7C 0x83) (sendingIn .txPost 0 8 0) (fun t => (t.rxq, t.missed)) = some ([], 7) ∧
    (dirRx { sendingIn .txPost 0 8 0 with missed := 7 }).draws = 7 := by
  refine ⟨by decide +kernel, ?_⟩
  obtain ⟨q, f, h, -⟩ := dirRx_eq { sendingIn .txPost 0 8 0 with missed := 7 }
  rw [h]; rfl

theorem witness_BytesLeaveInOrder : txReady (sendingIn .txData 0 0 0) = true ∧
    (plan (notReady 1 (sendingIn .txData 0 7 1))).hand = [⟨0, 1⟩, ⟨8, 0⟩] ∧ (sendingIn .txData 0 7 7).txi.toNat < 8 ∧
    (phaseNext (sendingIn .txData 0 0 0)).map (fun t => t.txd) = some [0x00] ∧
    (phaseNext (sendingIn .txPost 0 8 0)).map (fun t => (t.ph, t.de)) = some (.idle, false) := by decide +kernel

theorem witness_DeliveryOfAByte : straddles idle ⟨3, 4, 0⟩ = false ∧ straddles { idle with dirAt := some 3 } ⟨3, 4, 0⟩ = false ∧
    idle.rdis = false ∧ idle.rxq.length < idle.cfg.rxqCap ∧
    { idle with rxq := List.replicate 8 0 }.cfg.rxqCap ≤ { idle with rxq := List.replicate 8 (0 : Byte) }.rxq.length ∧
    { idle with rdis := true }.rdis = true := by decide +kernel

/-- For the clauses of DeliveryOfAByte in which time passes: idle, in `GAP` and in `BACKOFF`, and with the receiver
disabled. -/
theorem witness_time_passes : CleanBus quietBus ∧ quietBus.rdis = false ∧ resetDue quietBus = false ∧
    dueOffer quietBus = none ∧ quietBus.busy = false ∧ CleanBus { quietBus with rdis := true } ∧
    resetDue { quietBus with busy := true, ph := .gap, tmr := 1 } = false ∧
    dueOffer { quietBus with busy := true, ph := .backoff, tmr := 1 } = none :=
  ⟨⟨by decide +kernel, by decide +kernel, by decide +kernel⟩, rfl, rfl, rfl, rfl,
    ⟨by decide +kernel, by decide +kernel, by decide +kernel⟩, rfl, rfl⟩
theorem test_time_passes : ((delay 30 quietBus).rxq, (delay 31 quietBus).rxq, (delay 600 quietBus).rxq) =
    ([0x5A], [0x5A, 0x02], [0x5A, 0x02, 0x03]) := by decide +kernel

theorem witness_StraddlingByte : straddles { idle with dirAt := some 4 } ⟨3, 4, 0⟩ = true ∧
    straddles { idle with dirAt := some 4 } ⟨3, 5, 0⟩ = true ∧ straddles { idle with turns := [4] } ⟨3, 4, 0⟩ = true := by
  decide +kernel

theorem witness_WaitForBytes : CleanBus quietBus ∧ quietBus.rdis = false ∧ 1 ≤ 7 ∧ 7 ≤ quietBus.cfg.rxqCap :=
  ⟨⟨by decide +kernel, by decide +kernel, by decide +kernel⟩, rfl, by decide +kernel, by decide +kernel⟩

theorem witness_ReplyFrameIsDelivered : idle.dirAt ≠ some idle.clock ∧ idle.clock ∉ idle.turns ∧ idle.rdis = false ∧ idle.busy = false ∧
    (sendingIn .txPre 1 0 0).rdis = true ∧ (sendingIn .txPre 1 0 0).ph ≠ .rxWait := by decide +kernel

theorem witness_ReplyFrameAnswersRead : waiting.dirAt ≠ some waiting.clock ∧ waiting.clock ∉ waiting.turns ∧ waiting.busy = true ∧ waiting.ph = .rxWait ∧
    waiting.op = 0xA ∧ waiting.rdis = false ∧ waiting.rxq = [] ∧ (2 : Byte) = waiting.addr ∧ (3 : Byte) ≠ waiting.addr ∧
    { waiting with cfg := { cfgT with rspCrcEnforce := true } }.cfg.rspCrcEnforce = true := by decide +kernel

/-- READ, READ_RETRY, PROBE and DISCOVER in their wait, with bytes queued before. -/
def waitingWith (op : BitVec 4) (att : BitVec 8) (q : List Byte) : State :=
  { waiting with op := op, att := att, arg := 0x20, ci := 3, rxq := q }

/-- For the wider clauses of ReplyFrameAnswersRead: one byte queued, seven, and a full queue; a reading that passes and
one that does not, before and at the last attempt. -/
theorem witness_ReplyFrameAnswersRead_queued :
    [(0x02 : Byte)] ++ ([0x03, 0x03, 0x02, 0x8A, 0x00, 0x00, 0x00].take 6).take 7 =
      (#v[0x02, 0x03, 0x03, 0x02, 0x8A, 0x00, 0x00] : Frame7).toList ++ [] ∧
    (replyTaken #v[0x02, 0x03, 0x03, 0x02, 0x8A, 0x00, 0x00] [] (waitingWith 0xB 1 [0x02])).1 = 0 ∧
    (replyTaken #v[0x05, 0x03, 0x03, 0x02, 0x8A, 0x00, 0x00] [] (waitingWith 0xB 1 [0x05])).1 = 4 ∧
    (waitingWith 0xB 1 [0x02]).att.toNat < cfgT.nAttempts ∧ cfgT.nAttempts ≤ (waitingWith 0xB 3 [0x02]).att.toNat ∧
    candidate (waitingWith 0x9 0 []) = some 0x11 ∧ (waitingWith 0xA 0 (List.replicate 8 0)).rxq.length ≤ cfgT.rxqCap := by
  decide +kernel
theorem test_reply_behind_a_stale_byte :
    after (.replyFrame 0x03 0x02 0x8A 0 0 0xEE) (waitingWith 0xA 0 [0x02]) (fun t => (t.raw, t.err, t.rxq, t.busy)) =
      some (0x028A, 0, [0xEE], false) := by decide +kernel
theorem test_reply_sends_retry_to_backoff :
    after (.replyFrame 0x05 0x02 0x02 0x8A 0 0) (waitingWith 0xB 1 []) (fun t => (t.ph, t.tmr, t.rxq, t.trace.length)) =
      some (.backoff, 1000, [], 2) := by decide +kernel
theorem test_reply_answers_discover :
    after (.replyFrame 0x11 0x02 0x02 0x8A 0 0) (waitingWith 0x9 0 []) (fun t => (t.addr, t.conf, t.busy, t.rxq.length)) =
      some (0x11, true, false, 7) := by decide +kernel

theorem witness_Inv : Inv idle ∧ Inv waiting ∧ Inv hung ∧ Inv (sendingIn .txPost 0 8 0) := by
  refine ⟨⟨⟨?_, ?_, ?_, ?_, ?_, ?_⟩, ?_, ?_⟩, ⟨⟨?_, ?_, ?_, ?_, ?_, ?_⟩, ?_, ?_⟩, ⟨⟨?_, ?_, ?_, ?_, ?_, ?_⟩, ?_, ?_⟩,
    ⟨⟨?_, ?_, ?_, ?_, ?_, ?_⟩, ?_, ?_⟩⟩ <;>
  first
    | decide +kernel
    | exact fun h => absurd h (by decide +kernel)
    | exact fun _ => ⟨by decide +kernel, by decide +kernel, by decide +kernel, by decide +kernel, by decide +kernel, by decide +kernel⟩

/-- Steps from states in the invariant: one finishes a command, one changes `ADDR`, `CONF` and `TRACE`, one changes `RAW`. -/
theorem witness_steps : stepped (idle.withFetchWord 16 0x0000) (fun t => t.done) = some true ∧
    stepped ({ idle with arrivals := [⟨39, 40, 1⟩] }.withFetchWord 16 0x8010) (fun t => (t.addr, t.conf, t.trace.length)) =
      some (0x10, true, 2) ∧
    stepped (waiting.withFetchWord 56 0x020302028A7C83) (fun t => (t.raw, t.done)) = some (0x028A, true) ∧
    resetDue waiting = false ∧ waiting.rxbuf[7] = 0 := by decide +kernel

theorem witness_PhasesReachTheCommandsState : idle.busy = false ∧ (beginPhases .discover idle).isSome ∧
    (beginPhases .readRetry idle).isSome ∧ (beginPhases (.requestFrame 2 0x84 0x39) idle).isSome := by decide +kernel

end Sys2Proof.Tests
end

/-! # The scope: the two levels of a command agree, and no step changes the parameters (`00_scope.md` R9, R14)

A walk of small steps is the reflexive and transitive closure of `phaseStep`. Each shared operation of the command level
(`delay`, `writeBytes`, `drainTicks`, `waitRx`) is met by a walk; the procedures `transmit`, `doProbe` and `doRead` are
assembled from those, and the loops of DISCOVER and READ_RETRY follow by induction. -/
namespace Sys2Proof.Machine

/-! ## Walks of small steps -/

/-- Some number of small steps leads from one state to the other. -/
def Walks : State → State → Prop := Relation.ReflTransGen fun s t => phaseStep s = .next t

/-- A walk leads to a state whose small step has the outcome `o`. -/
def Leads (s : State) (o : Host.Outcome State Fault Refusal) : Prop := ∃ u, Walks s u ∧ phaseStep u = o

theorem Walks.refl (s : State) : Walks s s := Relation.ReflTransGen.refl

theorem Walks.trans {s t u : State} (h : Walks s t) (h' : Walks t u) : Walks s u := Relation.ReflTransGen.trans h h'

theorem Walks.step {s t u : State} (h : phaseStep s = .next t) (h' : Walks t u) : Walks s u :=
  Relation.ReflTransGen.head h h'

theorem Walks.leads {s u : State} {o : Host.Outcome State Fault Refusal} (h : Walks s u) (ho : phaseStep u = o) :
    Leads s o := ⟨u, h, ho⟩

theorem Leads.after {s t : State} {o : Host.Outcome State Fault Refusal} (h : Walks s t) : Leads t o → Leads s o
  | ⟨u, hu, ho⟩ => ⟨u, h.trans hu, ho⟩

theorem Leads.walks {s t : State} : Leads s (.next t) → Walks s t
  | ⟨_, hu, ho⟩ => hu.trans (.step ho (.refl t))

/-- A walk is a run of `phaseStep` for some number of steps. -/
theorem Walks.phaseRun {s t : State} (h : Walks s t) : ∃ k, phaseRun k s = .next t := by
  induction h using Relation.ReflTransGen.head_induction_on with
  | refl => exact ⟨0, rfl⟩
  | head h _ ih =>
    obtain ⟨k, hk⟩ := ih
    exact ⟨k + 1, by rw [Machine.phaseRun, h]; exact hk⟩

/-- What every small step keeps, a walk keeps. -/
theorem Walks.keeps {α : Type} {f : State → α} (hf : ∀ s t, phaseStep s = .next t → f t = f s) {s t : State}
    (h : Walks s t) : f t = f s := by
  induction h with
  | refl => rfl
  | tail _ h ih => exact (hf _ _ h).trans ih

/-! ## Time passing tick by tick -/

/-- The timer, the clock, what is still to arrive and the counts of the present tick, set: a delivery looks at none of
them. -/
def booked (x : BitVec 16) (c : Nat) (l : List Arrival) (f m : Nat) (s : State) : State :=
  { s with tmr := x, clock := c, arrivals := l, fresh := f, missed := m }

theorem queueByte_booked (b : Byte) (x : BitVec 16) (c : Nat) (l : List Arrival) (f m : Nat) (s : State) :
    ∃ i, (queueByte b s).fresh = s.fresh + i ∧ (queueByte b s).missed = s.missed ∧
      queueByte b (booked x c l f m s) = booked x c l (f + i) m (queueByte b s) := by
  by_cases h : s.rxq.length < s.cfg.rxqCap
  · have h' : (booked x c l f m s).rxq.length < (booked x c l f m s).cfg.rxqCap := h
    rw [queueByte_room h, queueByte_room h']
    exact ⟨1, rfl, rfl, rfl⟩
  · have h' : ¬ (booked x c l f m s).rxq.length < (booked x c l f m s).cfg.rxqCap := h
    rw [queueByte, queueByte, if_neg h, if_neg h']
    exact ⟨0, rfl, rfl, rfl⟩

theorem drawByte_booked (x : BitVec 16) (c : Nat) (l : List Arrival) (f m : Nat) (s : State) :
    ∃ i, (drawByte s).fresh = s.fresh + i ∧ (drawByte s).missed = s.missed ∧
      drawByte (booked x c l f m s) = booked x c l (f + i) m (drawByte s) := by
  unfold drawByte
  rw [show (booked x c l f m s).draws = s.draws from rfl]
  cases Config.straddle s.draws with
  | none => exact ⟨0, rfl, rfl, rfl⟩
  | some b => exact queueByte_booked b x c l f m { s with draws := s.draws + 1 }

/-- A delivery does the same whatever the timer, the clock, the coming characters and the counts are, and adds to the
counts. -/
theorem deliver_booked (a : Arrival) (x : BitVec 16) (c : Nat) (l : List Arrival) (f m : Nat) (s : State) :
    ∃ i j, (deliver a s).fresh = s.fresh + i ∧ (deliver a s).missed = s.missed + j ∧
      deliver a (booked x c l f m s) = booked x c l (f + i) (m + j) (deliver a s) := by
  unfold deliver
  rw [show straddles (booked x c l f m s) a = straddles s a from rfl, show (booked x c l f m s).rdis = s.rdis from rfl]
  by_cases hs : straddles s a = true
  · obtain ⟨i, hi⟩ := drawByte_booked x c l f m s
    rw [if_pos hs, if_pos hs]
    exact ⟨i, 0, hi⟩
  · rw [if_neg hs, if_neg hs]
    by_cases hr : s.rdis = true
    · rw [if_pos hr, if_pos hr]
      exact ⟨0, 1, rfl, rfl, rfl⟩
    · obtain ⟨i, hi⟩ := queueByte_booked a.byte x c l f m s
      rw [if_neg hr, if_neg hr]
      exact ⟨i, 0, hi⟩

/-- What is left of a state without those fields. -/
def unbooked (s : State) : State := booked 0 0 [] 0 0 s

theorem eq_of_unbooked {s t : State} (h : unbooked s = unbooked t) (hx : s.tmr = t.tmr) (hc : s.clock = t.clock)
    (hl : s.arrivals = t.arrivals) (hf : s.fresh = t.fresh) (hm : s.missed = t.missed) : s = t :=
  calc s = booked s.tmr s.clock s.arrivals s.fresh s.missed (unbooked s) := rfl
    _ = booked t.tmr t.clock t.arrivals t.fresh t.missed (unbooked t) := by rw [h, hx, hc, hl, hf, hm]
    _ = t := rfl

theorem unbooked_deliver (a : Arrival) (s : State) : unbooked (deliver a (unbooked s)) = unbooked (deliver a s) := by
  obtain ⟨i, j, -, -, h⟩ := deliver_booked a 0 0 [] 0 0 s
  unfold unbooked
  rw [h]
  rfl

theorem deliver_congr (a : Arrival) {s t : State} (h : unbooked s = unbooked t) :
    unbooked (deliver a s) = unbooked (deliver a t) := by
  rw [← unbooked_deliver a s, h, unbooked_deliver]

theorem deliverBefore_congr (u : Nat) (as : List Arrival) {s t : State} (h : unbooked s = unbooked t) :
    unbooked (deliverBefore u as s) = unbooked (deliverBefore u as t) := by
  induction as generalizing s t with
  | nil => exact h
  | cons a as ih =>
    unfold deliverBefore
    split
    · exact ih (deliver_congr a h)
    · exact h

/-- Delivering up to `t` and then up to `u` is delivering up to `u`. -/
theorem deliverBefore_twice {t u : Nat} (htu : t ≤ u) (as : List Arrival) (s : State) :
    unbooked (deliverBefore u (as.dropWhile fun a => decide (a.time < t)) (deliverBefore t as s)) =
      unbooked (deliverBefore u as s) := by
  induction as generalizing s with
  | nil => rfl
  | cons a as ih =>
    by_cases ha : a.time < t
    · have hu : a.time < u := by omega
      simp only [deliverBefore, ha, hu, if_true, decide_true, List.dropWhile_cons_of_pos]
      exact ih _
    · have hd : deliverBefore t (a :: as) s = { s with arrivals := a :: as } := if_neg ha
      rw [List.dropWhile_cons_of_neg (by simpa using ha), hd]
      exact deliverBefore_congr u (a :: as) rfl

/-- What time does to all but those fields is done by the deliveries. -/
theorem unbooked_elapse {n : Nat} (hn : n ≠ 0) (s : State) :
    unbooked (elapse n s) = unbooked (deliverBefore (s.clock + n) s.arrivals s) := by
  rw [elapse, if_neg hn]; rfl

/-- What time does to those fields. -/
theorem elapse_booked {n : Nat} (hn : n ≠ 0) (s : State) :
    (elapse n s).tmr = s.tmr ∧ (elapse n s).clock = s.clock + n ∧
      (elapse n s).arrivals = (s.arrivals.dropWhile fun a => decide (a.time < s.clock + n)) ∧
      (elapse n s).fresh = 0 ∧ (elapse n s).missed = 0 := by
  obtain ⟨q, f, m, d, as, h, -, hpos, -⟩ := elapse_eq n s
  obtain ⟨hf, hm, has⟩ := hpos (by omega)
  rw [h]
  exact ⟨rfl, rfl, has, hf, hm⟩

/-- A state is the one after `n` ms if it agrees in those fields, and in the rest with what the deliveries leave. -/
theorem eq_elapse {n : Nat} (hn : n ≠ 0) {s t : State}
    (h : unbooked t = unbooked (deliverBefore (s.clock + n) s.arrivals s)) (hx : t.tmr = s.tmr)
    (hc : t.clock = s.clock + n) (hl : t.arrivals = s.arrivals.dropWhile fun a => decide (a.time < s.clock + n))
    (hf : t.fresh = 0) (hm : t.missed = 0) : t = elapse n s := by
  obtain ⟨hx', hc', hl', hf', hm'⟩ := elapse_booked hn s
  exact eq_of_unbooked (h.trans (unbooked_elapse hn s).symm) (hx.trans hx'.symm) (hc.trans hc'.symm) (hl.trans hl'.symm)
    (hf.trans hf'.symm) (hm.trans hm'.symm)

/-- Time takes no notice of the timer. -/
theorem elapse_tmr (n : Nat) (s : State) (x : BitVec 16) :
    { elapse n s with tmr := x } = elapse n { s with tmr := x } := by
  by_cases hn : n = 0
  · subst hn; rfl
  · obtain ⟨-, hc, hl, hf, hm⟩ := elapse_booked hn s
    exact eq_elapse hn ((unbooked_elapse hn s).trans (deliverBefore_congr _ _ rfl)) rfl hc hl hf hm

/-- Time passes tick by tick. -/
theorem elapse_succ (n : Nat) (s : State) : elapse n (elapse 1 s) = elapse (n + 1) s := by
  by_cases hn : n = 0
  · subst hn; rfl
  · obtain ⟨hx₁, hc₁, hl₁, -, -⟩ := elapse_booked one_ne_zero s
    obtain ⟨hx, hc, hl, hf, hm⟩ := elapse_booked hn (elapse 1 s)
    have hadd : s.clock + 1 + n = s.clock + (n + 1) := by omega
    rw [hc₁, hadd] at hc
    rw [hc₁, hl₁, hadd, dropWhile_before _ (by omega)] at hl
    refine eq_elapse (by omega) ?_ (hx.trans hx₁) hc hl hf hm
    rw [unbooked_elapse hn, hc₁, hl₁, hadd, deliverBefore_congr _ _ (unbooked_elapse one_ne_zero s)]
    exact deliverBefore_twice (by omega) _ _

/-- A delay is its time with the timer at 0. -/
theorem delay_eq_elapse (T : BitVec 16) (s : State) : delay T s = elapse T.toNat { s with tmr := 0 } :=
  elapse_tmr T.toNat { s with tmr := T } 0

theorem timerTick_eq (s : State) : timerTick s = { elapse 1 s with tmr := s.tmr - 1 } := by
  rw [timerTick, (elapse_booked one_ne_zero s).1]

/-- A timer that has not run out has one tick more than after the next tick. -/
theorem toNat_eq_succ_pred {x : BitVec 16} (h : x ≠ 0) : x.toNat = (x - 1).toNat + 1 := by
  have hx : x.toNat ≠ 0 := fun h0 => h (BitVec.eq_of_toNat_eq h0)
  bv_omega

/-- A delay is one tick with the timer counting, and the rest of the delay. -/
theorem delay_tick {s : State} (h : s.tmr ≠ 0) : delay s.tmr s = delay (s.tmr - 1) (timerTick s) := by
  have ht : { timerTick s with tmr := 0 } = elapse 1 { s with tmr := 0 } := elapse_tmr 1 s 0
  rw [delay_eq_elapse, delay_eq_elapse, ht, elapse_succ, ← toNat_eq_succ_pred h]

/-- A phase in which the timer counts down to what follows. -/
def Phase.counting (p : Phase) : Prop := p = .txPre ∨ p = .txPost ∨ p = .gap ∨ p = .backoff

theorem phaseStep_counting {s : State} (hp : s.ph.counting) (h : s.tmr ≠ 0) : phaseStep s = .next (timerTick s) := by
  rcases hp with hp | hp | hp | hp <;> simp only [phaseStep, gapStep, backoffStep, hp, if_neg h]

theorem timerTick_ph (s : State) : (timerTick s).ph = s.ph := by
  obtain ⟨q, f, m, d, as, h, -⟩ := elapse_eq 1 s
  rw [timerTick_eq, h]

theorem timerTick_tmr (s : State) : (timerTick s).tmr = s.tmr - 1 := by rw [timerTick_eq]

/-- A phase in which the timer counts down is a delay. -/
theorem walks_delay (s : State) (hp : s.ph.counting) : Walks s (delay s.tmr s) := by
  induction hn : s.tmr.toNat generalizing s with
  | zero =>
    have h0 : s.tmr = 0 := BitVec.eq_of_toNat_eq hn
    have hd : delay s.tmr s = s := by rw [delay_eq_elapse, hn, ← h0]; rfl
    rw [hd]
    exact .refl s
  | succ n ih =>
    have h0 : s.tmr ≠ 0 := by rintro h; simp [h] at hn
    have hn' : (timerTick s).tmr.toNat = n := by
      have := toNat_eq_succ_pred h0
      rw [timerTick_tmr]; omega
    rw [delay_tick h0, ← timerTick_tmr]
    exact .step (phaseStep_counting hp h0) (ih _ (by rwa [timerTick_ph]) hn')

/-! ## The transmit sequence -/

theorem phaseStep_txData {s : State} (hp : s.ph = .txData) : phaseStep s = .next (dataStep s) := by
  rw [phaseStep, hp]

theorem phaseStep_txDrain {s : State} (hp : s.ph = .txDrain) : phaseStep s = .next (drainStep s) := by
  rw [phaseStep, hp]

/-- Waiting for `tx_ready` and handing a byte over, tick by tick. -/
theorem walks_awaitReady (hs : List SerialTick) (s : State) (hp : s.ph = .txData) (hi : s.txi.toNat < 8)
    (hh : (plan s).hand = hs) : Walks s (uartWrite (awaitReady hs s)) := by
  induction hs generalizing s with
  | nil =>
    have hstep : phaseStep s = .next (dataStep s) := phaseStep_txData hp
    rw [dataStep, if_neg (by omega), hh] at hstep
    exact .step hstep (.refl _)
  | cons t ts ih =>
    have hstep : phaseStep s = .next (dataStep s) := phaseStep_txData hp
    rw [dataStep, if_neg (by omega), hh] at hstep
    obtain ⟨taken, ended⟩ := t
    cases taken with
    | zero =>
      obtain ⟨q, f, m, d, as, h, -⟩ := serialTick_eq ended (setPlan { plan s with hand := ts } s)
      refine .step hstep (ih (serialTick ended (setPlan { plan s with hand := ts } s)) ?_ ?_ ?_)
      · rw [h]; exact hp
      · rw [h]; exact hi
      · rw [h]; rfl
    | succ k => exact .step hstep (.refl _)

/-- The bytes that are left are handed over, and the drain begins. -/
theorem walks_writeBytes (n : Nat) (s : State) {p : SerialPlan} {ps : List SerialPlan} (hpl : s.plans = p :: ps)
    (hp : s.ph = .txData) (hi : s.txi.toNat + n = 8) : Walks s (enterDrain (writeBytes n s)) := by
  induction n generalizing s p with
  | zero =>
    have hstep : phaseStep s = .next (enterDrain s) := by rw [phaseStep_txData hp, dataStep, if_pos (by omega)]
    exact .step hstep (.refl _)
  | succ n ih =>
    have hlt : s.txi.toNat < 8 := by omega
    have hw := walks_awaitReady (plan s).hand s hp hlt rfl
    obtain ⟨q, f, m, d, as, k, hand, tp, h, -⟩ := awaitReady_eq (plan s).hand s hpl (by simp [plan, hpl])
    have hstep : writeBytes (n + 1) s = writeBytes n (uartWrite (awaitReady (plan s).hand s)) := rfl
    rw [hstep]
    generalize awaitReady (plan s).hand s = v at h hw
    have hvp : v.ph = .txData := by rw [h]; exact hp
    have hvi : v.txi = s.txi := by rw [h]
    have hvl : v.plans = { p with hand := hand } :: ps := by rw [h]
    have hu := uartWrite_eq (s := v) (by rwa [hvi])
    refine hw.trans (ih _ (by rw [hu]; exact hvl) (by rw [hu]; exact hvp) ?_)
    have hti : (uartWrite v).txi = s.txi + 1 :=
      (congrArg State.txi hu).trans (congrArg (· + 1) hvi)
    rw [hti]
    bv_omega

/-- From the assertion of the lines to the start of the drain. -/
theorem walks_handOver (s : State) : Walks (startTx s) (handOver s) := by
  have hpre : Walks (startTx s) (delay s.cfg.tPre (startTx s)) := walks_delay (startTx s) (.inl rfl)
  unfold handOver
  generalize hd : delay s.cfg.tPre (startTx s) = d at hpre
  obtain ⟨q, f, m, dr, as, h, -⟩ := delay_eq s.cfg.tPre (startTx s)
  rw [hd] at h
  have hp : d.ph = .txPre := by rw [h]; rfl
  have ht : d.tmr = 0 := by rw [h]
  have hstep : phaseStep d = .next (enterData d) := by simp only [phaseStep, hp, ht, if_pos]
  obtain ⟨p, c, ho, -⟩ := openPlan_eq d
  refine hpre.trans (.step hstep (walks_writeBytes 8 (enterData d) (p := p) (ps := d.plans.tail) ?_ rfl rfl))
  rw [enterData, ho]

/-- The ticks of the drain but the last. -/
theorem walks_drainTicks (es : List Nat) (s : State) (hp : s.ph = .txDrain) (hpos : 0 < s.txpend)
    (hd : (plan s).drain = es) : Walks s (drainTicks es s) := by
  induction es generalizing s with
  | nil => exact .refl s
  | cons e es ih =>
    have hstep : phaseStep s = .next (drainStep s) := phaseStep_txDrain hp
    rw [drainStep, if_neg (by omega), hd] at hstep
    obtain ⟨q, f, m, d, as, h, -⟩ := drainTick_eq e (setPlan { plan s with drain := es } s)
    refine .step hstep (ih (drainTick e (setPlan { plan s with drain := es } s)) ?_ ?_ ?_)
    · rw [h]; exact hp
    · rw [h]; exact pendAfter_pos hpos
    · rw [h]; rfl

/-- The state of the transmit sequence in which only the serialiser's last tick is left, if it has one. -/
def drained (s : State) : State := drainTicks (plan (handOver s)).drain (handOver s)

theorem transmit_eq (s : State) : transmit s =
    if (plan (drained s)).idles = true then
      .ended () (release (delay (enterPost (lastTick (drained s))).cfg.tPost (enterPost (lastTick (drained s)))))
    else .hung (drained s) := by
  unfold transmit drained
  rfl

theorem drained_spec (s : State) : (drained s).ph = .txDrain ∧ 0 < (drained s).txpend ∧ (plan (drained s)).drain = [] ∧
    Walks (startTx s) (drained s) := by
  obtain ⟨q₀, q, f, m, d, as, p, tp, h, -, -, -, htp, -⟩ := handOver_eq s
  have hw := walks_handOver s
  unfold drained
  generalize handOver s = u at h hw
  have hpl : u.plans = { p with hand := [] } :: s.plans.tail := by rw [h]
  have hp : u.ph = .txDrain := by rw [h]
  have hpos : 0 < u.txpend := by rw [h]; exact htp
  have hplan : plan u = { p with hand := [] } := by simp [plan, hpl]
  have hd := walks_drainTicks _ u hp hpos rfl
  obtain ⟨q₂, f₂, m₂, d₂, as₂, tp₂, h₂, -, htp₂⟩ := drainTicks_eq (plan u).drain u hpl (by rw [hplan]) hpos
  refine ⟨?_, ?_, ?_, hw.trans hd⟩
  · rw [h₂]; exact hp
  · rw [h₂]; exact htp₂
  · rw [h₂]; rfl

/-- A transmission that hangs, tick by tick. -/
theorem walks_transmit {s t : State} (h : transmit s = .hung t) : Walks (startTx s) t := by
  obtain ⟨-, -, -, hw⟩ := drained_spec s
  rw [transmit_eq] at h
  generalize drained s = v at h hw
  split at h
  · cases h
  · cases h; exact hw

/-- A transmission that ends, tick by tick. -/
theorem leads_transmit {s t : State} (h : transmit s = .ended () t) : Leads (startTx s) (afterRelease t) := by
  obtain ⟨hp, hpos, hdr, hw⟩ := drained_spec s
  rw [transmit_eq] at h
  generalize drained s = v at h hp hpos hdr hw
  split at h
  · next hi =>
    cases h
    obtain ⟨q, f, m, d, as, he, -⟩ := elapse_eq 1 v
    have hlp : (lastTick v).ph = .txDrain := by rw [lastTick, he]; exact hp
    have hlast : phaseStep v = .next (lastTick v) := by
      rw [phaseStep_txDrain hp, drainStep, if_neg (by omega), hdr]; simp only [hi, if_true]
    have hpost : phaseStep (lastTick v) = .next (enterPost (lastTick v)) := by
      rw [phaseStep_txDrain hlp, drainStep, if_pos (by rfl)]
    have hdelay := walks_delay (enterPost (lastTick v)) (.inr (.inl rfl))
    refine (hw.trans (.step hlast (.step hpost hdelay))).leads ?_
    obtain ⟨q', f', m', d', as', hd', -⟩ := delay_eq (enterPost (lastTick v)).tmr (enterPost (lastTick v))
    have hp' : (delay (enterPost (lastTick v)).tmr (enterPost (lastTick v))).ph = .txPost := by rw [hd']; rfl
    simp only [phaseStep, hp', show (delay _ _).tmr = 0 from rfl, if_pos]
    rfl
  · cases h

/-! ## The wait -/

/-- A command in progress waits for `n` bytes. -/
structure Waiting (n : Nat) (s : State) : Prop where
  phase : s.ph = .rxWait
  count : awaited s = some n

/-- The timer holds what remains until `d`. -/
def withTimer (d : Nat) (s : State) : State := { s with tmr := BitVec.ofNat 16 (d - s.clock) }

/-- How `RX_WAIT` ends. -/
def rxEnd (got : Bool) (s : State) : Host.Outcome State Fault Refusal := if got then rxGot s else rxExpired s

theorem phaseStep_rxWait {s : State} (hp : s.ph = .rxWait) : phaseStep s = rxStep s := by
  rw [phaseStep, hp]

theorem Waiting.got {n : Nat} {s : State} (h : Waiting n s) (hq : n ≤ s.rxq.length) : phaseStep s = rxGot s := by
  rw [phaseStep_rxWait h.phase, rxStep, h.count]
  exact if_pos hq

theorem Waiting.delivers {n : Nat} {s : State} (h : Waiting n s) (hq : ¬ n ≤ s.rxq.length) {a : Arrival}
    {as : List Arrival} (ha : s.arrivals = a :: as) (hdue : a.time ≤ s.clock) :
    phaseStep s = .next (deliver a { s with arrivals := as }) := by
  rw [phaseStep_rxWait h.phase, rxStep, h.count]
  simp only [if_neg hq, ha, if_pos hdue]

/-- With no character due, the timer is looked at. -/
theorem Waiting.counts {n : Nat} {s : State} (h : Waiting n s) (hq : ¬ n ≤ s.rxq.length)
    (hl : ∀ a ∈ s.arrivals.head?, s.clock < a.time) :
    phaseStep s = if s.tmr = 0 then rxExpired s else .next (timerTick s) := by
  rw [phaseStep_rxWait h.phase, rxStep, h.count]
  simp only [if_neg hq]
  split
  · next a as ha => exact if_neg (by have := hl a (by simp [ha]); omega)
  · rfl

theorem deliver_withTimer (a : Arrival) (d : Nat) (s : State) :
    deliver a (withTimer d s) = withTimer d (deliver a s) := by
  obtain ⟨i, j, hf, hm, h⟩ :=
    deliver_booked a (BitVec.ofNat 16 (d - s.clock)) s.clock s.arrivals s.fresh s.missed s
  obtain ⟨q, f, m, dr, hs, -⟩ := deliver_eq a s
  rw [← hf, ← hm] at h
  have hc : (deliver a s).clock = s.clock := by rw [hs]
  have hl : (deliver a s).arrivals = s.arrivals := by rw [hs]
  calc deliver a (withTimer d s)
      = booked (BitVec.ofNat 16 (d - s.clock)) s.clock s.arrivals (deliver a s).fresh (deliver a s).missed
          (deliver a s) := h
    _ = withTimer d (deliver a s) := by rw [← hc, ← hl]; rfl

/-- A tick in which no character is due. -/
theorem elapse_one_silent {s : State} (hl : ∀ a ∈ s.arrivals.head?, s.clock < a.time) :
    elapse 1 s = reach (s.clock + 1) s := by
  have hd : deliverBefore (s.clock + 1) s.arrivals s = s := by
    cases ha : s.arrivals with
    | nil => rw [deliverBefore, ← ha]
    | cons a as =>
      have := hl a (by simp [ha])
      rw [deliverBefore, if_neg (by omega), ← ha]
  rw [elapse, if_neg one_ne_zero, hd, reach, if_pos (by omega)]

theorem reach_reach {t u : Nat} (h : t ≤ u) (s : State) : reach u (reach t s) = reach u s := by
  unfold reach
  by_cases ht : s.clock < t
  · have hu : s.clock < u := by omega
    rw [if_pos ht, if_pos hu]
    by_cases htu : t < u
    · rw [if_pos htu]
    · obtain rfl : t = u := by omega
      rw [if_neg htu]
  · rw [if_neg ht]

theorem reach_arrivals (t : Nat) (s : State) (l : List Arrival) :
    reach t { s with arrivals := l } = { reach t s with arrivals := l } := by
  unfold reach; split <;> rfl

theorem Waiting.reach {n : Nat} {s : State} (h : Waiting n s) (t : Nat) : Waiting n (reach t s) := by
  obtain ⟨f, m, c, hr, -⟩ := reach_eq t s
  rw [hr]
  exact ⟨h.phase, h.count⟩

theorem Waiting.deliver {n : Nat} {s : State} (h : Waiting n s) (a : Arrival) : Waiting n (deliver a s) := by
  obtain ⟨q, f, m, d, hd, -⟩ := deliver_eq a s
  rw [hd]
  exact ⟨h.phase, h.count⟩

theorem Waiting.withTimer {n : Nat} {s : State} (h : Waiting n s) (d : Nat) : Waiting n (withTimer d s) :=
  ⟨h.phase, h.count⟩

/-- The wait up to `t`, before which no character comes, tick by tick. -/
theorem walks_reach {n t d : Nat} {s : State} (h : Waiting n s) (hq : ¬ n ≤ s.rxq.length)
    (hl : ∀ a ∈ s.arrivals.head?, t ≤ a.time) (ht : t ≤ d) (hd : d - s.clock < 65536) :
    Walks (withTimer d s) (withTimer d (reach t s)) := by
  induction hk : t - s.clock generalizing s with
  | zero =>
    have : reach t s = s := by rw [reach, if_neg (by omega)]
    rw [this]
    exact .refl _
  | succ k ih =>
    have hlt : ∀ a ∈ s.arrivals.head?, s.clock < a.time := fun a ha => by have := hl a ha; omega
    have hne : (withTimer d s).tmr ≠ 0 := by
      intro h0
      have := congrArg BitVec.toNat h0
      simp [withTimer] at this
      omega
    have hstep := (h.withTimer d).counts hq hlt
    rw [if_neg hne] at hstep
    have htick : timerTick (withTimer d s) = withTimer d (reach (s.clock + 1) s) := by
      have hlt' : s.clock < s.clock + 1 := by omega
      have htmr : BitVec.ofNat 16 (d - s.clock) - 1 = BitVec.ofNat 16 (d - (s.clock + 1)) := by
        apply BitVec.eq_of_toNat_eq
        simp only [BitVec.toNat_sub, BitVec.toNat_ofNat, BitVec.ofNat_eq_ofNat]
        omega
      rw [timerTick_eq, elapse_one_silent (s := withTimer d s) hlt]
      simp only [reach, withTimer, hlt', if_true, htmr]
    rw [htick] at hstep
    have hr : Walks (withTimer d (reach (s.clock + 1) s)) (withTimer d (reach t (reach (s.clock + 1) s))) := by
      refine ih (h.reach _) ?_ ?_ ?_ ?_ <;> simp only [reach, Nat.lt_succ_self, if_true]
      · exact hq
      · exact hl
      · omega
      · omega
    rw [reach_reach (by omega)] at hr
    exact .step hstep hr

/-- No character comes before the deadline. -/
theorem leads_expired {n d : Nat} {s : State} (h : Waiting n s) (hq : ¬ n ≤ s.rxq.length)
    (hl : ∀ a ∈ s.arrivals.head?, d < a.time) (hc : s.clock ≤ d) (hd : d - s.clock < 65536) :
    Leads (withTimer d s) (rxExpired (withTimer d (reach d s))) := by
  refine (walks_reach h hq (fun a ha => (hl a ha).le) le_rfl hd).leads ?_
  obtain ⟨f, m, c, hr, hcm, -⟩ := reach_eq d s
  have hc' : (reach d s).clock = d := by rw [hr]; simp only; omega
  have h0 : (withTimer d (reach d s)).tmr = 0 := by simp [withTimer, hc']
  rw [((h.reach d).withTimer d).counts (by rw [hr]; exact hq) ?_, if_pos h0]
  intro a ha
  rw [show (withTimer d (reach d s)).clock = d from hc']
  refine hl a ?_
  rw [hr] at ha; exact ha

/-- The wait until the deadline `d`, tick by tick and character by character. -/
theorem leads_waitUntil {n d : Nat} {as : List Arrival} {s w : State} {got : Bool} (h : Waiting n s)
    (has : s.arrivals = as) (hc : s.clock ≤ d) (hd : d - s.clock < 65536) (hw : waitUntil n d as s = (got, w)) :
    Leads (withTimer d s) (rxEnd got (withTimer d w)) := by
  induction as generalizing s with
  | nil =>
    unfold waitUntil at hw
    split at hw <;> cases hw
    · next hq => exact (Walks.refl _).leads ((h.withTimer d).got hq)
    · next hq => exact leads_expired h hq (by simp [has]) hc hd
  | cons a as ih =>
    unfold waitUntil at hw
    split at hw
    · next hq => cases hw; exact (Walks.refl _).leads ((h.withTimer d).got hq)
    · next hq =>
      split at hw
      · next ha =>
        have hreach := walks_reach (t := a.time) h hq (by simp [has]) ha hd
        obtain ⟨f, m, c, hr, hcm, -⟩ := reach_eq a.time s
        have hstep := ((h.reach a.time).withTimer d).delivers (a := a) (as := as) (by rw [hr]; exact hq)
          (by rw [hr]; exact has) (by rw [hr]; show a.time ≤ c; omega)
        have hv : ({ withTimer d (reach a.time s) with arrivals := as } : State) =
            withTimer d (reach a.time { s with arrivals := as }) :=
          congrArg (withTimer d) (reach_arrivals a.time s as).symm
        rw [hv, deliver_withTimer] at hstep
        have hwait : Waiting n (reach a.time { s with arrivals := as }) :=
          Waiting.reach (s := { s with arrivals := as }) ⟨h.phase, h.count⟩ a.time
        have hvc : (reach a.time { s with arrivals := as }).clock = c :=
          (congrArg State.clock (reach_arrivals a.time s as)).trans (congrArg State.clock hr)
        have hvl : (reach a.time { s with arrivals := as }).arrivals = as :=
          congrArg State.arrivals (reach_arrivals a.time s as)
        generalize reach a.time { s with arrivals := as } = v at hw hstep hwait hvc hvl
        obtain ⟨q, f', m', dr, hdel, -⟩ := deliver_eq a v
        have hdc : (deliver a v).clock = c := by rw [hdel]; exact hvc
        have hdl : (deliver a v).arrivals = as := by rw [hdel]; exact hvl
        exact (ih (hwait.deliver a) hdl (by omega) (by omega) hw).after (hreach.trans (.step hstep (.refl _)))
      · next ha => cases hw; exact leads_expired h hq (by simp [has]; omega) hc hd

/-- `WaitRx(n, T)`, tick by tick and character by character. -/
theorem leads_waitRx {n : Nat} {T : BitVec 16} {s w : State} {got : Bool} (h : Waiting n s)
    (hw : waitRx n T s = (got, w)) : Leads { s with tmr := T } (rxEnd got w) := by
  have hT : T.toNat < 65536 := T.isLt
  obtain ⟨q, f, m, dr, as, c, hu, -, -, hc, hg, he, -⟩ := waitUntil_eq n (s.clock + T.toNat) s.arrivals s rfl
  unfold waitRx at hw
  generalize hr : waitUntil n (s.clock + T.toNat) s.arrivals s = r at hw hu hg he
  obtain ⟨got', u⟩ := r
  cases hw
  have huc : u.clock = c := congrArg State.clock hu
  have hle : c ≤ s.clock + T.toNat := by
    cases got' with
    | true => have := (hg rfl).2; omega
    | false => have := (he rfl).2; omega
  have hlead := leads_waitUntil h rfl (by omega) (by omega) hr
  have hs : withTimer (s.clock + T.toNat) s = { s with tmr := T } := by
    rw [withTimer, Nat.add_sub_cancel_left, BitVec.ofNat_toNat, BitVec.setWidth_eq]
  have htmr : BitVec.ofNat 16 (s.clock + T.toNat - u.clock) = T - BitVec.ofNat 16 (u.clock - s.clock) := by
    apply BitVec.eq_of_toNat_eq
    simp only [BitVec.toNat_sub, BitVec.toNat_ofNat]
    omega
  rw [hs, withTimer, htmr] at hlead
  exact hlead

/-! ## The procedures -/

/-- The latched command, its counters, the parameters and the current address are the same. -/
structure SameCommand (s t : State) : Prop where
  op : t.op = s.op
  arg : t.arg = s.arg
  ci : t.ci = s.ci
  att : t.att = s.att
  cfg : t.cfg = s.cfg
  addr : t.addr = s.addr

theorem SameCommand.refl (s : State) : SameCommand s s := ⟨rfl, rfl, rfl, rfl, rfl, rfl⟩

theorem SameCommand.trans {s t u : State} (h : SameCommand s t) (h' : SameCommand t u) : SameCommand s u :=
  ⟨h'.op.trans h.op, h'.arg.trans h.arg, h'.ci.trans h.ci, h'.att.trans h.att, h'.cfg.trans h.cfg, h'.addr.trans h.addr⟩

theorem delay_sameCommand (T : BitVec 16) (s : State) : SameCommand s (delay T s) := by
  obtain ⟨q, f, m, d, as, h, -⟩ := delay_eq T s
  rw [h]
  exact ⟨rfl, rfl, rfl, rfl, rfl, rfl⟩

theorem gapDelay_sameCommand (s : State) : SameCommand s (gapDelay s) := by
  obtain ⟨h₁, h₂, h₃, h₄, h₅, h₆⟩ := delay_sameCommand s.cfg.tGap { s with ph := .gap }
  exact ⟨h₁, h₂, h₃, h₄, h₅, h₆⟩

theorem backoffDelay_sameCommand (s : State) : SameCommand s (backoffDelay s) := by
  obtain ⟨h₁, h₂, h₃, h₄, h₅, h₆⟩ := delay_sameCommand s.cfg.tBackoff { s with ph := .backoff }
  exact ⟨h₁, h₂, h₃, h₄, h₅, h₆⟩

theorem transmit_sameCommand {s t : State} (h : transmit s = .ended () t) : SameCommand s t := by
  by_cases hi : Idles s
  · obtain ⟨q₀, q, f, d, as, T, ht, -⟩ := transmit_ended s hi
    rw [h] at ht
    cases ht
    exact ⟨rfl, rfl, rfl, rfl, rfl, rfl⟩
  · obtain ⟨u, hu, -⟩ := transmit_hung s hi
    rw [h] at hu
    cases hu

theorem waitRx_sameCommand {n : Nat} {T : BitVec 16} {s w : State} {got : Bool} (h : waitRx n T s = (got, w)) :
    SameCommand s w := by
  obtain ⟨q, f, m, d, as, c, tm, hw, -⟩ := waitRx_eq n T s
  obtain rfl : w = _ := (congrArg Prod.snd h).symm.trans hw
  exact ⟨rfl, rfl, rfl, rfl, rfl, rfl⟩

theorem takeInto_sameCommand (i : Nat) (s : State) : SameCommand s (takeInto i s) := by
  unfold takeInto
  split
  · exact .refl s
  · exact ⟨rfl, rfl, rfl, rfl, rfl, rfl⟩

theorem takeReply_sameCommand (s : State) : SameCommand s (takeReply s) := by
  unfold takeReply
  generalize [0, 1, 2, 3, 4, 5, 6] = is
  induction is generalizing s with
  | nil => exact .refl s
  | cons i is ih => exact (takeInto_sameCommand i s).trans (ih _)

theorem receiveReply_sameCommand (s : State) : SameCommand s (receiveReply s) := by
  have h := takeReply_sameCommand s
  unfold receiveReply
  generalize takeReply s = t at h
  exact h.trans ⟨rfl, rfl, rfl, rfl, rfl, rfl⟩

theorem readGot_sameCommand (a : Byte) (s : State) : SameCommand s (readGot a s).2 := by
  have hr := receiveReply_sameCommand s
  unfold readGot
  generalize receiveReply s = t at hr
  dsimp only
  split <;> exact hr.trans ⟨rfl, rfl, rfl, rfl, rfl, rfl⟩

/-! ### What the latched command makes of the release and of the wait's end -/

theorem afterRelease_send {s : State} (h : s.op = 0x6) : afterRelease s = .next (finishIdle 0 s) := by
  rw [afterRelease, h]; rfl

theorem afterRelease_probe {s : State} (h : s.op = 0x8 ∨ s.op = 0x9) :
    afterRelease s = .next { s with ph := .rxWait, tmr := s.cfg.tProbe } := by
  rcases h with h | h <;> rw [afterRelease, h] <;> rfl

theorem afterRelease_read {s : State} (h : s.op = 0xA ∨ s.op = 0xB) :
    afterRelease s = .next { s with ph := .rxWait, tmr := s.cfg.tRead } := by
  rcases h with h | h <;> rw [afterRelease, h] <;> rfl

theorem awaited_probe {s : State} (h : s.op = 0x8 ∨ s.op = 0x9) : awaited s = some 1 := by
  rcases h with h | h <;> rw [awaited, h] <;> rfl

theorem awaited_read {s : State} (h : s.op = 0xA ∨ s.op = 0xB) : awaited s = some rspMin := by
  rcases h with h | h <;> rw [awaited, h] <;> rfl

theorem rxGot_probe {s : State} (h : s.op = 0x8) : rxGot s = .next (finishIdle 0 (probeGot s.arg s)) := by
  rw [rxGot, h]; rfl

theorem rxGot_discover {s : State} {c : Byte} (h : s.op = 0x9) (hc : candidate s = some c) :
    rxGot s = .next (finishIdle 0 (probeGot c s)) := by
  simp [rxGot, h, hc, Kind.code]

theorem rxGot_read {s : State} (h : s.op = 0xA) :
    rxGot s = .next (finishIdle (readGot s.addr s).1 (readGot s.addr s).2) := by
  rw [rxGot, h]; rfl

theorem rxGot_readRetry {s : State} (h : s.op = 0xB) :
    rxGot s = .next (afterAttempt (readGot s.addr s).1 (readGot s.addr s).2) := by
  rw [rxGot, h]; rfl

theorem rxExpired_probe {s : State} (h : s.op = 0x8) : rxExpired s = .next (finishIdle 3 (probeExpired s)) := by
  rw [rxExpired, h]; rfl

theorem rxExpired_discover {s : State} (h : s.op = 0x9) : rxExpired s = .next (afterProbe (probeExpired s)) := by
  rw [rxExpired, h]; rfl

theorem rxExpired_read {s : State} (h : s.op = 0xA) : rxExpired s = .next (finishIdle 3 (readExpired s)) := by
  rw [rxExpired, h]; rfl

theorem rxExpired_readRetry {s : State} (h : s.op = 0xB) : rxExpired s = .next (afterAttempt 3 (readExpired s)) := by
  rw [rxExpired, h]; rfl

/-- A transmission that ends and the wait after it, tick by tick. -/
theorem leads_exchange {n : Nat} {T : BitVec 16} {s z w : State} {got : Bool} (hz : transmit s = .ended () z)
    (hrel : afterRelease z = .next { z with ph := .rxWait, tmr := T }) (hn : awaited z = some n)
    (hw : waitRx n T { z with ph := .rxWait } = (got, w)) :
    SameCommand s w ∧ Leads (startTx s) (rxEnd got w) := by
  have hsw : SameCommand z w :=
    SameCommand.trans (t := { z with ph := .rxWait }) ⟨rfl, rfl, rfl, rfl, rfl, rfl⟩ (waitRx_sameCommand hw)
  have hwait : Leads { z with ph := .rxWait, tmr := T } (rxEnd got w) :=
    leads_waitRx (s := { z with ph := .rxWait }) ⟨rfl, hn⟩ hw
  have htx := leads_transmit hz
  rw [hrel] at htx
  exact ⟨(transmit_sameCommand hz).trans hsw, hwait.after htx.walks⟩

/-- `DoProbe(c)`, tick by tick: it hangs, or its wait ends with `Got` or `Expired`. -/
theorem doProbe_cases (c : Byte) {s : State} (hop : s.op = 0x8 ∨ s.op = 0x9) :
    (∃ t, doProbe c s = .hung t ∧ Walks (beginProbe c s) t) ∨
    (∃ w, SameCommand s w ∧ doProbe c s = .ended 0 (probeGot c w) ∧ Leads (beginProbe c s) (rxGot w)) ∨
    (∃ w, SameCommand s w ∧ doProbe c s = .ended 3 (probeExpired w) ∧ Leads (beginProbe c s) (rxExpired w)) := by
  cases hz : transmit (buildProbe c s) with
  | hung t => exact .inl ⟨t, doProbe_hung hz, walks_transmit hz⟩
  | ended _ z =>
    have hzop : z.op = 0x8 ∨ z.op = 0x9 := by rw [(transmit_sameCommand hz).op]; exact hop
    obtain ⟨got, w, hw⟩ : ∃ got w, waitRx 1 z.cfg.tProbe { z with ph := .rxWait } = (got, w) := ⟨_, _, rfl⟩
    obtain ⟨hbw, hlead⟩ := leads_exchange hz (afterRelease_probe hzop) (awaited_probe hzop) hw
    have hsw : SameCommand s w := SameCommand.trans (t := buildProbe c s) ⟨rfl, rfl, rfl, rfl, rfl, rfl⟩ hbw
    have hd := doProbe_ended hz hw
    cases got with
    | true => exact .inr (.inl ⟨w, hsw, hd.trans (if_pos rfl), hlead⟩)
    | false => exact .inr (.inr ⟨w, hsw, hd.trans (if_neg Bool.false_ne_true), hlead⟩)

/-- `DoRead()`, tick by tick: it hangs, or ends as READ and READ_RETRY see it. -/
theorem doRead_cases {s : State} (hop : s.op = 0xA ∨ s.op = 0xB) :
    (∃ t, doRead s = .hung t ∧ Walks (beginRead s) t) ∨
    ∃ r t, SameCommand s t ∧ doRead s = .ended r t ∧ (s.op = 0xA → Leads (beginRead s) (.next (finishIdle r t))) ∧
      (s.op = 0xB → Leads (beginRead s) (.next (afterAttempt r t))) := by
  cases hz : transmit (buildRead s) with
  | hung t => exact .inl ⟨t, doRead_hung hz, walks_transmit hz⟩
  | ended _ z =>
    have hzop : z.op = 0xA ∨ z.op = 0xB := by rw [(transmit_sameCommand hz).op]; exact hop
    obtain ⟨got, w, hw⟩ : ∃ got w, waitRx rspMin z.cfg.tRead { z with ph := .rxWait } = (got, w) := ⟨_, _, rfl⟩
    obtain ⟨hbw, hlead⟩ := leads_exchange hz (afterRelease_read hzop) (awaited_read hzop) hw
    have hsw : SameCommand s w := SameCommand.trans (t := buildRead s) ⟨rfl, rfl, rfl, rfl, rfl, rfl⟩ hbw
    have hd := doRead_ended hz hw
    cases got with
    | true =>
      rw [if_pos rfl] at hd
      refine .inr ⟨_, _, hsw.trans (readGot_sameCommand w.addr w), hd, fun ha => ?_, fun hb => ?_⟩
      · rw [← rxGot_read (hsw.op.trans ha)]; exact hlead
      · rw [← rxGot_readRetry (hsw.op.trans hb)]; exact hlead
    | false =>
      rw [if_neg Bool.false_ne_true] at hd
      refine .inr ⟨3, readExpired w, hsw.trans ⟨rfl, rfl, rfl, rfl, rfl, rfl⟩, hd, fun ha => ?_, fun hb => ?_⟩
      · rw [← rxExpired_read (hsw.op.trans ha)]; exact hlead
      · rw [← rxExpired_readRetry (hsw.op.trans hb)]; exact hlead

/-! ## The commands -/

/-- A transmission as the whole of a command, tick by tick. -/
theorem walks_sendFrame {s : State} (hop : s.op = 0x6) : Walks (startTx s) (conclude (sendFrame s)) := by
  cases hz : transmit s with
  | hung t => rw [sendFrame_hung hz]; exact walks_transmit hz
  | ended _ z =>
    have hrel := leads_transmit hz
    rw [afterRelease_send ((transmit_sameCommand hz).op.trans hop)] at hrel
    rw [sendFrame_ended hz]
    exact hrel.walks

/-- PROBE, tick by tick. -/
theorem walks_doProbe {c : Byte} {s : State} (hop : s.op = 0x8) (harg : s.arg = c) :
    Walks (beginProbe c s) (conclude (doProbe c s)) := by
  rcases doProbe_cases c (.inl hop) with ⟨t, hd, hw⟩ | ⟨w, hs, hd, hl⟩ | ⟨w, hs, hd, hl⟩ <;> rw [hd]
  · exact hw
  · rw [rxGot_probe (hs.op.trans hop), hs.arg, harg] at hl
    exact hl.walks
  · rw [rxExpired_probe (hs.op.trans hop)] at hl
    exact hl.walks

/-- READ, tick by tick. -/
theorem walks_doRead {s : State} (hop : s.op = 0xA) : Walks (beginRead s) (conclude (doRead s)) := by
  rcases doRead_cases (.inl hop) with ⟨t, hd, hw⟩ | ⟨r, t, -, hd, hl, -⟩ <;> rw [hd]
  · exact hw
  · exact (hl hop).walks

/-- After `GAP` the next candidate is probed. -/
theorem walks_gap {t : State} {c : Byte} (hop : t.op = 0x9) (hc : t.cfg.cand[t.ci.toNat + 1]? = some c) :
    Walks { t with ph := .gap, tmr := t.cfg.tGap } (beginProbe c { gapDelay t with ci := t.ci + 1 }) := by
  have hs : SameCommand t (gapDelay t) := gapDelay_sameCommand t
  have hd : Walks { t with ph := .gap, tmr := t.cfg.tGap } (gapDelay t) :=
    walks_delay { t with ph := .gap, tmr := t.cfg.tGap } (.inr (.inr (.inl rfl)))
  have hp : (gapDelay t).ph = .gap := by
    obtain ⟨q, f, m, d, as, h, -⟩ := delay_eq t.cfg.tGap { t with ph := .gap }
    rw [gapDelay, h]
  have h0 : (gapDelay t).tmr = 0 := rfl
  generalize gapDelay t = g at hs hd hp h0 ⊢
  refine hd.trans (.step ?_ (.refl _))
  rw [← hs.ci] at hc ⊢
  rw [← hs.cfg] at hc
  simp only [phaseStep, hp, gapStep, h0, hs.op, hop, hc, if_true]

/-- After `BACKOFF` the next attempt is made. -/
theorem walks_backoff {t : State} (hop : t.op = 0xB) (hatt : t.att.toNat < t.cfg.nAttempts) :
    Walks { t with ph := .backoff, tmr := t.cfg.tBackoff } (beginRead { backoffDelay t with att := t.att + 1 }) := by
  have hs : SameCommand t (backoffDelay t) := backoffDelay_sameCommand t
  have hd : Walks { t with ph := .backoff, tmr := t.cfg.tBackoff } (backoffDelay t) :=
    walks_delay { t with ph := .backoff, tmr := t.cfg.tBackoff } (.inr (.inr (.inr rfl)))
  have hp : (backoffDelay t).ph = .backoff := by
    obtain ⟨q, f, m, d, as, h, -⟩ := delay_eq t.cfg.tBackoff { t with ph := .backoff }
    rw [backoffDelay, h]
  have h0 : (backoffDelay t).tmr = 0 := rfl
  generalize backoffDelay t = g at hs hd hp h0 ⊢
  refine hd.trans (.step ?_ (.refl _))
  rw [← hs.att] at hatt ⊢
  rw [← hs.cfg] at hatt
  simp only [phaseStep, hp, backoffStep, h0, hs.op, hop, hatt, if_true, and_self]

/-- A candidate's index fits `CI`, and tells the candidate, those after it and how many there are. -/
theorem drop_eq_cons_index {l cs : List Byte} {i : Nat} {c : Byte} (hl : l.length ≤ 256) (h : l.drop i = c :: cs) :
    (BitVec.ofNat 8 i).toNat = i ∧ l[i]? = some c ∧ l.drop (i + 1) = cs ∧ l.length = i + 1 + cs.length := by
  have hlen := congrArg List.length h
  simp only [List.length_drop, List.length_cons] at hlen
  refine ⟨by simp only [BitVec.toNat_ofNat]; omega, ?_, ?_, by omega⟩
  · rw [← List.head?_drop, h]; rfl
  · rw [← List.tail_drop, h]; rfl

/-- One candidate of DISCOVER: the command ends or hangs with it, or its probe expires. -/
theorem discoverFrom_cases {i : Nat} {c : Byte} (cs : List Byte) {s : State} (hop : s.op = 0x9)
    (hci : (BitVec.ofNat 8 i).toNat = i) (hc : s.cfg.cand[i]? = some c) :
    Walks (beginProbe c { s with ci := BitVec.ofNat 8 i }) (conclude (discoverFrom i (c :: cs) s)) ∨
    ∃ t, SameCommand { s with ci := BitVec.ofNat 8 i } t ∧ doProbe c { s with ci := BitVec.ofNat 8 i } = .ended 3 t ∧
      Leads (beginProbe c { s with ci := BitVec.ofNat 8 i }) (.next (afterProbe t)) := by
  rcases doProbe_cases c (s := { s with ci := BitVec.ofNat 8 i }) (.inr hop) with
    ⟨t, hd, hw⟩ | ⟨w, hs, hd, hl⟩ | ⟨w, hs, hd, hl⟩
  · rw [discoverFrom_hung hd]; exact .inl hw
  · have hcw : candidate w = some c := by rw [candidate, hs.ci, hs.cfg]; simp only [hci, hc]
    rw [rxGot_discover (hs.op.trans hop) hcw] at hl
    rw [discoverFrom_got hd]
    exact .inl (hl.walks)
  · rw [rxExpired_discover (hs.op.trans hop)] at hl
    exact .inr ⟨probeExpired w, hs.trans ⟨rfl, rfl, rfl, rfl, rfl, rfl⟩, hd, hl⟩

/-- DISCOVER from the candidate with index `i` on, tick by tick. -/
theorem walks_discoverFrom {i : Nat} {c : Byte} {cs : List Byte} {s : State} (hop : s.op = 0x9)
    (hcand : s.cfg.cand.drop i = c :: cs) :
    Walks (beginProbe c { s with ci := BitVec.ofNat 8 i }) (conclude (discoverFrom i (c :: cs) s)) := by
  induction cs generalizing i c s with
  | nil =>
    obtain ⟨hci, hc, -, hlen⟩ := drop_eq_cons_index s.cfg.cand_le hcand
    rcases discoverFrom_cases [] hop hci hc with hw | ⟨t, hs, hd, hl⟩
    · exact hw
    · have hlast : ¬ t.ci.toNat + 1 < t.cfg.cand.length := by
        rw [hs.ci, hs.cfg]; simp only [hci, hlen, List.length_nil]; omega
      rw [afterProbe, if_neg hlast] at hl
      rw [discoverFrom_last hd]
      exact hl.walks
  | cons c' cs ih =>
    obtain ⟨hci, hc, hdrop, hlen⟩ := drop_eq_cons_index s.cfg.cand_le hcand
    obtain ⟨-, hc', -, -⟩ := drop_eq_cons_index s.cfg.cand_le hdrop
    rcases discoverFrom_cases (c' :: cs) hop hci hc with hw | ⟨t, hs, hd, hl⟩
    · exact hw
    · have hmore : t.ci.toNat + 1 < t.cfg.cand.length := by
        rw [hs.ci, hs.cfg]; simp only [hci, hlen, List.length_cons]; omega
      have hnext : t.ci + 1 = BitVec.ofNat 8 (i + 1) := by rw [hs.ci]; exact (BitVec.ofNat_add i 1).symm
      have hg : SameCommand t (gapDelay t) := gapDelay_sameCommand t
      have hgap := walks_gap (t := t) (c := c') (hs.op.trans hop) (by rw [hs.ci, hs.cfg]; simp only [hci, hc'])
      rw [afterProbe, if_pos hmore] at hl
      rw [discoverFrom_next hd]
      rw [hnext] at hgap
      refine (hl.walks.trans hgap).trans (ih ((hg.op.trans hs.op).trans hop) ?_)
      rw [hg.cfg, hs.cfg]
      exact hdrop

/-- One attempt of READ_RETRY: the command ends or hangs with it, or its reading does not satisfy. -/
theorem retryFrom_cases (more : Nat) {att : Nat} {s : State} (hop : s.op = 0xB) :
    Walks (beginRead { s with att := BitVec.ofNat 8 att }) (conclude (retryFrom more att s)) ∨
    ∃ r t, SameCommand { s with att := BitVec.ofNat 8 att } t ∧
      doRead { s with att := BitVec.ofNat 8 att } = .ended r t ∧ satisfied r t = false ∧
      Leads (beginRead { s with att := BitVec.ofNat 8 att }) (.next (afterAttempt r t)) := by
  rcases doRead_cases (s := { s with att := BitVec.ofNat 8 att }) (.inr hop) with ⟨t, hd, hw⟩ | ⟨r, t, hs, hd, -, hl⟩
  · rw [retryFrom_hung hd]; exact .inl hw
  · have hl := hl hop
    cases hsat : satisfied r t with
    | true =>
      rw [afterAttempt, if_pos hsat] at hl
      rw [retryFrom_satisfied hd hsat]
      exact .inl (hl.walks)
    | false => exact .inr ⟨r, t, hs, hd, hsat, hl⟩

/-- READ_RETRY from attempt number `att` on, tick by tick. -/
theorem walks_retryFrom {more att : Nat} {s : State} (hop : s.op = 0xB) (hatt : att + more = s.cfg.nAttempts) :
    Walks (beginRead { s with att := BitVec.ofNat 8 att }) (conclude (retryFrom more att s)) := by
  have hle := s.cfg.attempts_le
  have hn : (BitVec.ofNat 8 att).toNat = att := by simp only [BitVec.toNat_ofNat]; omega
  induction more generalizing att s with
  | zero =>
    rcases retryFrom_cases 0 hop with hw | ⟨r, t, hs, hd, hsat, hl⟩
    · exact hw
    · have hlast : ¬ t.att.toNat < t.cfg.nAttempts := by rw [hs.att, hs.cfg]; simp only [hn]; omega
      rw [afterAttempt, hsat, if_neg Bool.false_ne_true, if_neg hlast] at hl
      rw [retryFrom_last hd hsat]
      exact hl.walks
  | succ more ih =>
    rcases retryFrom_cases (more + 1) hop with hw | ⟨r, t, hs, hd, hsat, hl⟩
    · exact hw
    · have hmore : t.att.toNat < t.cfg.nAttempts := by rw [hs.att, hs.cfg]; simp only [hn]; omega
      have hnext : t.att + 1 = BitVec.ofNat 8 (att + 1) := by rw [hs.att]; exact (BitVec.ofNat_add att 1).symm
      have hg : SameCommand t (backoffDelay t) := backoffDelay_sameCommand t
      have hback := walks_backoff (t := t) (hs.op.trans hop) hmore
      have hcfg : (backoffDelay t).cfg = s.cfg := hg.cfg.trans hs.cfg
      rw [afterAttempt, hsat, if_neg Bool.false_ne_true, if_pos hmore] at hl
      rw [retryFrom_next hd hsat]
      rw [hnext] at hback
      refine (hl.walks.trans hback).trans (ih ((hg.op.trans hs.op).trans hop) ?_ ?_ ?_)
      · rw [hcfg]; omega
      · rw [hcfg]; exact hle
      · simp only [BitVec.toNat_ofNat]; omega

/-! ## The two levels agree -/

/-- A request frame that is transmitted, tick by tick. -/
theorem walks_sendLoaded (f : Frame8) (s : State) :
    Walks (startTx (accept 0x6 0 0 (loadFrame f s))) (conclude (sendFrame (accept 0x6 0 0 (loadFrame f s)))) :=
  walks_sendFrame rfl

/-- DISCOVER with a first candidate, tick by tick. -/
theorem walks_discover {c : Byte} {cs : List Byte} {s : State} (hop : s.op = 0x9) (hc : s.cfg.cand = c :: cs) :
    Walks (beginProbe c { s with ci := 0 }) (conclude (discoverFrom 0 s.cfg.cand s)) := by
  rw [hc]
  exact walks_discoverFrom (i := 0) hop hc

/-- READ_RETRY, tick by tick. -/
theorem walks_readRetry {s : State} (hop : s.op = 0xB) :
    Walks (beginRead { s with att := 1 }) (conclude (retryFrom (s.cfg.nAttempts - 1) 1 s)) :=
  walks_retryFrom (att := 1) hop (by have := s.cfg.attempts_pos; omega)

/-- A command that takes time comes from its first phase to the state that its one step gives. -/
theorem walks_exec {s b : State} {i : Instr} (hs : s.busy = false) (hb : beginPhases i s = some b) :
    ∃ t, Walks b t ∧ exec i s = .next t := by
  cases i with
  | send => cases hb; exact ⟨_, walks_sendFrame rfl, whenReady_idle hs⟩
  | probe a => cases hb; exact ⟨_, walks_doProbe rfl rfl, whenReady_idle hs⟩
  | discover =>
    simp only [beginPhases] at hb
    split at hb
    · cases hb
    · next c cs hc => cases hb; exact ⟨_, walks_discover (s := accept 0x9 0 0 s) rfl hc, whenReady_idle hs⟩
  | read => cases hb; exact ⟨_, walks_doRead rfl, whenReady_idle hs⟩
  | readRetry => cases hb; exact ⟨_, walks_readRetry (s := accept 0xB 0 0 s) rfl, whenReady_idle hs⟩
  | requestFrame a l h => cases hb; exact ⟨_, walks_sendLoaded (requestBytes a l h) s, whenReady_idle hs⟩
  | nop | crcInit | crcByte _ | encode _ | verify | ldtx _ _ | flushrx | reservedC _ _ | reservedD _ _ | reservedE _ _
  | reservedF _ _ | replyFrame _ _ _ _ _ _ => cases hb

/-- Settles O60: the walk from the first phase is built along the procedures of the command (`walks_exec`). -/
theorem phasesReachTheCommandsState : Obligations.PhasesReachTheCommandsState := by
  intro s b i hs hb
  obtain ⟨t, hw, he⟩ := walks_exec hs hb
  obtain ⟨k, hk⟩ := hw.phaseRun
  exact ⟨k, t, hk, he⟩

/-! ## The parameters -/

/-! ### What the shared operations leave of the parameters -/

@[simp] theorem deliver_cfg (a : Arrival) (s : State) : (deliver a s).cfg = s.cfg := by
  obtain ⟨q, f, m, d, h, -⟩ := deliver_eq a s
  rw [h]

@[simp] theorem elapse_cfg (n : Nat) (s : State) : (elapse n s).cfg = s.cfg := by
  obtain ⟨q, f, m, d, as, h, -⟩ := elapse_eq n s
  rw [h]

@[simp] theorem timerTick_cfg (s : State) : (timerTick s).cfg = s.cfg := elapse_cfg 1 s

@[simp] theorem enterData_cfg (s : State) : (enterData s).cfg = s.cfg := by
  obtain ⟨p, d, h, -⟩ := openPlan_eq s
  rw [enterData, h]

@[simp] theorem enterDrain_cfg (s : State) : (enterDrain s).cfg = s.cfg := rfl

@[simp] theorem uartWrite_cfg (s : State) : (uartWrite s).cfg = s.cfg := by
  unfold uartWrite
  split <;> rfl

@[simp] theorem serialTick_cfg (e : Nat) (s : State) : (serialTick e s).cfg = s.cfg := elapse_cfg 1 s

@[simp] theorem drainTick_cfg (e : Nat) (s : State) : (drainTick e s).cfg = s.cfg := elapse_cfg 1 s

@[simp] theorem lastTick_cfg (s : State) : (lastTick s).cfg = s.cfg := elapse_cfg 1 s

@[simp] theorem release_cfg (s : State) : (release s).cfg = s.cfg := by simp [release]

@[simp] theorem dataStep_cfg (s : State) : (dataStep s).cfg = s.cfg := by
  unfold dataStep
  split
  · exact enterDrain_cfg s
  · split
    · exact uartWrite_cfg s
    · split <;> simp

@[simp] theorem drainStep_cfg (s : State) : (drainStep s).cfg = s.cfg := by
  unfold drainStep
  split
  · simp
  · split
    · simp
    · split <;> simp

@[simp] theorem readGot_cfg (a : Byte) (s : State) : (readGot a s).2.cfg = s.cfg := (readGot_sameCommand a s).cfg

@[simp] theorem afterAttempt_cfg (r : BitVec 3) (s : State) : (afterAttempt r s).cfg = s.cfg := by
  unfold afterAttempt
  split
  · rfl
  · split <;> rfl

@[simp] theorem afterProbe_cfg (s : State) : (afterProbe s).cfg = s.cfg := by
  unfold afterProbe
  split <;> rfl

/-! ### Small steps -/

theorem afterRelease_cfg {s t : State} (h : afterRelease s = .next t) : t.cfg = s.cfg := by
  unfold afterRelease at h
  split at h <;> cases h <;> rfl

theorem rxGot_cfg {s t : State} (h : rxGot s = .next t) : t.cfg = s.cfg := by
  unfold rxGot at h
  split at h
  · cases h; rfl
  · split at h <;> cases h
    rfl
  · cases h; simp
  · cases h; simp
  · cases h

theorem rxExpired_cfg {s t : State} (h : rxExpired s = .next t) : t.cfg = s.cfg := by
  unfold rxExpired at h
  split at h
  · cases h; rfl
  · cases h; exact afterProbe_cfg _
  · cases h; rfl
  · cases h; exact afterAttempt_cfg _ _
  · cases h

theorem rxStep_cfg {s t : State} (h : rxStep s = .next t) : t.cfg = s.cfg := by
  unfold rxStep at h
  split at h
  · cases h
  · split at h
    · exact rxGot_cfg h
    · split at h
      · split at h
        · cases h; simp
        · split at h
          · exact rxExpired_cfg h
          · cases h; simp
      · split at h
        · exact rxExpired_cfg h
        · cases h; simp

theorem gapStep_cfg {s t : State} (h : gapStep s = .next t) : t.cfg = s.cfg := by
  unfold gapStep at h
  split at h
  · split at h
    · split at h <;> cases h
      rfl
    · cases h
  · cases h; simp

theorem backoffStep_cfg {s t : State} (h : backoffStep s = .next t) : t.cfg = s.cfg := by
  unfold backoffStep at h
  split at h
  · split at h <;> cases h
    rfl
  · cases h; simp

theorem phaseStep_cfg {s t : State} (h : phaseStep s = .next t) : t.cfg = s.cfg := by
  unfold phaseStep at h
  split at h
  case h_1 => cases h
  case h_2 => cases h; split <;> simp
  case h_3 => cases h; simp
  case h_4 => cases h; simp
  case h_5 =>
    split at h
    · rw [afterRelease_cfg h, release_cfg]
    · cases h; simp
  case h_6 => exact rxStep_cfg h
  case h_7 => exact gapStep_cfg h
  case h_8 => exact backoffStep_cfg h

theorem Walks.cfg {s t : State} (h : Walks s t) : t.cfg = s.cfg := h.keeps (f := State.cfg) fun _ _ => phaseStep_cfg

/-! ### Instructions -/

theorem whenReady_cfg {s u t : State} (h : whenReady s u = .next t) (hu : u.cfg = s.cfg) : t.cfg = s.cfg := by
  unfold whenReady at h
  split at h <;> cases h
  · rfl
  · exact hu

theorem receiveByte_cfg (b : Byte) (s : State) : (receiveByte b s).cfg = s.cfg := by
  have hd := deliver_cfg ⟨s.clock, s.clock, b⟩ s
  unfold receiveByte
  generalize deliver ⟨s.clock, s.clock, b⟩ s = u at hd
  dsimp only
  split
  · split
    · exact hd
    · split
      · split
        · next t ht => exact (rxGot_cfg ht).trans hd
        · exact hd
        · exact hd
      · exact hd
  · exact hd

theorem receiveFrame_cfg {f : Frame7} {s t : State} (h : receiveFrame f s = .next t) : t.cfg = s.cfg := by
  unfold receiveFrame at h
  cases h
  generalize f.toList = bs
  induction bs generalizing s with
  | nil => rfl
  | cons b bs ih => exact ih.trans (receiveByte_cfg b s)

theorem discover_cfg (s : State) : (conclude (discoverFrom 0 s.cfg.cand (accept 0x9 0 0 s))).cfg = s.cfg := by
  cases hc : s.cfg.cand with
  | nil => rfl
  | cons c cs =>
    have h := walks_discover (s := accept 0x9 0 0 s) rfl hc
    rw [← hc]
    exact h.cfg

/-- An instruction that takes time keeps the parameters, as its small steps do. -/
theorem exec_cfg {i : Instr} {s t : State} (h : exec i s = .next t) : t.cfg = s.cfg := by
  cases i with
  | nop | crcInit | crcByte _ | encode _ | verify | flushrx => exact whenReady_cfg h rfl
  | reservedC _ _ | reservedD _ _ | reservedE _ _ | reservedF _ _ => exact whenReady_cfg h rfl
  | ldtx i b =>
    change execLdtx i b s = .next t at h
    unfold execLdtx at h
    split at h <;> exact whenReady_cfg h rfl
  | send => exact whenReady_cfg h (walks_sendFrame (s := accept 0x6 0 0 s) rfl).cfg
  | probe a => exact whenReady_cfg h (walks_doProbe (s := accept 0x8 0 a s) rfl rfl).cfg
  | discover => exact whenReady_cfg h (discover_cfg s)
  | read => exact whenReady_cfg h (walks_doRead (s := accept 0xA 0 0 s) rfl).cfg
  | readRetry => exact whenReady_cfg h (walks_readRetry (s := accept 0xB 0 0 s) rfl).cfg
  | requestFrame a l h' => exact whenReady_cfg h (walks_sendLoaded (requestBytes a l h') s).cfg
  | replyFrame a n d e l h' => exact receiveFrame_cfg h

theorem unlisted_cfg {r : Raw} {s t : State} (h : unlisted r s = .next t) : t.cfg = s.cfg := by
  cases r with
  | command w => exact whenReady_cfg h rfl
  | request f => exact whenReady_cfg h (walks_sendLoaded (bytesOfQ f) s).cfg
  | reply f => exact receiveFrame_cfg h

theorem beginPhases_cfg {i : Instr} {s t : State} (h : beginPhases i s = some t) : t.cfg = s.cfg := by
  cases i with
  | discover =>
    simp only [beginPhases] at h
    split at h <;> cases h
    rfl
  | send | probe _ | read | readRetry | requestFrame _ _ _ => cases h; rfl
  | nop | crcInit | crcByte _ | encode _ | verify | ldtx _ _ | flushrx | reservedC _ _ | reservedD _ _ | reservedE _ _
  | reservedF _ _ | replyFrame _ _ _ _ _ _ => cases h

theorem beginUnlisted_cfg {r : Raw} {s t : State} (h : beginUnlisted r s = some t) : t.cfg = s.cfg := by
  cases r <;> cases h
  rfl

/-! ### Steps -/

theorem runRaw_cfg {r : Raw} {s t : State} (h : runRaw r s = .next t) : t.cfg = s.cfg := by
  rcases runRaw_cases h with ⟨i, -, he | ⟨-, hb⟩⟩ | ⟨e, -, hu | ⟨-, hb⟩⟩
  · exact exec_cfg he
  · exact beginPhases_cfg hb
  · exact unlisted_cfg hu
  · exact beginUnlisted_cfg hb

theorem resetNow_cfg (s : State) : (resetNow s).cfg = s.cfg := by
  unfold resetNow
  split
  · rfl
  · split <;> rfl

/-- Settles O55: reset, an offer, a small step and a tick each keep the parameters. -/
theorem parametersNeverChange : Obligations.ParametersNeverChange := by
  intro s t h
  rcases step_cases h with ⟨-, rfl⟩ | ⟨-, r, -, hr⟩ | ⟨-, -, -, hp⟩ | ⟨-, -, -, rfl⟩
  · exact resetNow_cfg s
  · exact (runRaw_cfg hr).trans (by simp)
  · exact (phaseStep_cfg hp).trans (by simp)
  · simp

end Sys2Proof.Machine

/-! # The state: what every step keeps, and what the outputs show (`10_state.md` R22 to R50)

`Move` says once what the block can do to its state without a reset: the small steps of a command in progress, the start
of a command, a command that takes no time, a tick. Every step but a reset is a run of moves (`step_moves`), so a rule
over all steps is proved of each move. -/
namespace Sys2Proof.Machine

/-! ## What the block can do -/

/-- What a command that takes no time leaves, an illegal one and DISCOVER without candidates among them. -/
def Quick (s t : State) : Prop := ∃ p op idx arg c f r ok q n tr,
  t = { s with
    ph := p, op := op, idx := idx, arg := arg, err := c, busy := false, done := true, txbuf := f, crc := r,
    frameOk := ok, rxq := q, fresh := n, trace := tr } ∧
  (p = s.ph ∨ p = .idle) ∧ q.length ≤ s.rxq.length ∧ s.trace <+: tr

/-- One thing the block does to its state. -/
inductive Move (s : State) : State → Prop
  /-- A tick in which the timer counts. -/
  | timer : Move s (timerTick s)
  /-- A tick of an idle block, or of one that hangs. -/
  | tick : Move s (elapse 1 s)
  /-- A character is delivered. -/
  | delivery (a : Arrival) (as : List Arrival) : Move s (deliver a { s with arrivals := as })
  | data (hp : s.ph = .txPre) : Move s (enterData s)
  | write (hp : s.ph = .txData) (hi : s.txi.toNat < 8) (ps : List SerialPlan) :
    Move s (uartWrite { s with plans := ps })
  | writeTick (hp : s.ph = .txData) (e : Nat) (ps : List SerialPlan) : Move s (serialTick e { s with plans := ps })
  | drain (hp : s.ph = .txData) : Move s (enterDrain s)
  | drainTick (hp : s.ph = .txDrain) (e : Nat) (ps : List SerialPlan) :
    Move s (Machine.drainTick e { s with plans := ps })
  | lastTick (hp : s.ph = .txDrain) : Move s (Machine.lastTick s)
  | post (hp : s.ph = .txDrain) (h0 : s.txpend = 0) : Move s (enterPost s)
  /-- SEND ends with the release of the lines. -/
  | sent (hp : s.ph = .txPost) : Move s (finishIdle 0 (release s))
  /-- A transaction waits from the release of the lines on. -/
  | wait (hp : s.ph = .txPost) (hop : s.op ≠ 0x6) (T : BitVec 16) : Move s { release s with ph := .rxWait, tmr := T }
  | got (hp : s.ph = .rxWait) {t : State} (h : rxGot s = .next t) : Move s t
  | expired (hp : s.ph = .rxWait) {t : State} (h : rxExpired s = .next t) : Move s t
  | nextProbe (hp : s.ph = .gap) (hop : s.op = 0x9) {c : Byte} (hc : s.cfg.cand[s.ci.toNat + 1]? = some c) :
    Move s (beginProbe c { s with ci := s.ci + 1 })
  | nextRead (hp : s.ph = .backoff) : Move s (beginRead { s with att := s.att + 1 })
  /-- The first phase of a command. -/
  | begin {i : Instr} {t : State} (h : beginPhases i s = some t) : Move s t
  /-- The first phase of any eight bytes that are transmitted. -/
  | beginFrame (f : Frame8) : Move s (startTx (accept 0x6 0 0 (loadFrame f s)))
  | quick (hb : s.busy = false) {t : State} (h : Quick s t) : Move s t

/-- A run of moves. -/
def Moves : State → State → Prop := Relation.ReflTransGen Move

theorem Move.moves {s t : State} (h : Move s t) : Moves s t := .single h

theorem Moves.trans {s t u : State} (h : Moves s t) (h' : Moves t u) : Moves s u := Relation.ReflTransGen.trans h h'

/-- A predicate that every move keeps is kept by a run of moves. -/
theorem Moves.keeps {P : State → Prop} (hP : ∀ {s t}, P s → Move s t → P t) {s t : State} (h : Moves s t)
    (hs : P s) : P t := by
  induction h with
  | refl => exact hs
  | tail _ h ih => exact hP ih h

/-! ### Small steps are moves -/

theorem dataStep_move {s : State} (hp : s.ph = .txData) : Move s (dataStep s) := by
  unfold dataStep
  split
  · exact .drain hp
  · next hi =>
    have hi : s.txi.toNat < 8 := by omega
    split
    · exact .write hp hi s.plans
    · split
      · exact .writeTick hp _ _
      · exact .write hp hi _

theorem drainStep_move {s : State} (hp : s.ph = .txDrain) : Move s (drainStep s) := by
  unfold drainStep
  split
  · next h0 => exact .post hp h0
  · split
    · exact .drainTick hp _ _
    · split
      · exact .lastTick hp
      · exact .tick

theorem afterRelease_move {s t : State} (hp : s.ph = .txPost) (h : afterRelease (release s) = .next t) : Move s t := by
  have hop : (release s).op = s.op := by simp [release]
  unfold afterRelease at h
  split at h
  · cases h; exact .sent hp
  case h_6 => cases h
  all_goals
    next ho => cases h; exact .wait hp (by intro h6; rw [hop, h6] at ho; cases ho) _

theorem rxStep_move {s t : State} (hp : s.ph = .rxWait) (h : rxStep s = .next t) : Move s t := by
  unfold rxStep at h
  split at h
  · cases h
  · split at h
    · exact .got hp h
    · split at h
      · split at h
        · cases h; exact .delivery _ _
        · split at h
          · exact .expired hp h
          · cases h; exact .timer
      · split at h
        · exact .expired hp h
        · cases h; exact .timer

theorem gapStep_move {s t : State} (hp : s.ph = .gap) (h : gapStep s = .next t) : Move s t := by
  unfold gapStep at h
  split at h
  · split at h
    · next hop =>
      split at h
      · next c hc => cases h; exact .nextProbe hp hop hc
      · cases h
    · cases h
  · cases h; exact .timer

theorem backoffStep_move {s t : State} (hp : s.ph = .backoff) (h : backoffStep s = .next t) : Move s t := by
  unfold backoffStep at h
  split at h
  · split at h
    · cases h; exact .nextRead hp
    · cases h
  · cases h; exact .timer

theorem phaseStep_move {s t : State} (h : phaseStep s = .next t) : Move s t := by
  cases hp : s.ph <;> simp only [phaseStep, hp] at h
  case idle => cases h
  case txPre =>
    cases h
    split
    · exact .data hp
    · exact .timer
  case txData => cases h; exact dataStep_move hp
  case txDrain => cases h; exact drainStep_move hp
  case txPost =>
    split at h
    · exact afterRelease_move hp h
    · cases h; exact .timer
  case rxWait => exact rxStep_move hp h
  case gap => exact gapStep_move hp h
  case backoff => exact backoffStep_move hp h

theorem Walks.moves {s t : State} (h : Walks s t) : Moves s t :=
  Relation.ReflTransGen.mono (fun _ _ => phaseStep_move) _ _ h

/-! ### Instructions are runs of moves -/

theorem whenReady_cases {s u t : State} (h : whenReady s u = .next t) :
    (s.busy = true ∧ t = s) ∨ (s.busy = false ∧ t = u) := by
  cases hs : s.busy with
  | true => exact .inl ⟨rfl, (Host.Outcome.next.inj ((whenReady_busy hs).symm.trans h)).symm⟩
  | false => exact .inr ⟨rfl, (Host.Outcome.next.inj ((whenReady_idle hs).symm.trans h)).symm⟩

/-- While a command is in progress, no instruction but a reply frame does anything. -/
theorem exec_busy {s : State} (hb : s.busy = true) {i : Instr} (hi : ∀ a n d e l h, i ≠ .replyFrame a n d e l h) :
    exec i s = .next s := by
  cases i with
  | ldtx i b =>
    show execLdtx i b s = .next s
    unfold execLdtx
    split <;> exact whenReady_busy hb
  | replyFrame a n d e l h => exact absurd rfl (hi a n d e l h)
  | nop | crcInit | crcByte _ | encode _ | verify | send | flushrx | probe _ | discover | read | readRetry
  | reservedC _ _ | reservedD _ _ | reservedE _ _ | reservedF _ _ | requestFrame _ _ _ => exact whenReady_busy hb

/-- A taken command with `IllegalCommand` as its outcome is quick. -/
theorem illegal_quick (op idx : BitVec 4) (arg : Byte) (s : State) : Quick s (illegal op idx arg s) :=
  ⟨_, _, _, _, _, _, _, _, _, _, _, rfl, .inl rfl, le_rfl, List.prefix_append _ _⟩

/-- An instruction with no phases, other than a reply frame, is quick. -/
theorem exec_quick {i : Instr} {s t : State} (hs : s.busy = false) (hi : ∀ a n d e l h, i ≠ .replyFrame a n d e l h)
    (hb : beginPhases i s = none) (h : exec i s = .next t) : Quick s t := by
  have taken {u : State} (hu : Quick s u) (h : whenReady s u = .next t) : Quick s t := by
    rw [whenReady_idle hs] at h; cases h; exact hu
  have silent : s.trace <+: s.trace := List.prefix_rfl
  cases i with
  | nop | crcInit | crcByte _ | encode _ | verify =>
    exact taken ⟨_, _, _, _, _, _, _, _, _, _, _, rfl, .inl rfl, le_rfl, silent⟩ h
  | flushrx => exact taken ⟨_, _, _, _, _, _, _, _, _, _, _, rfl, .inl rfl, Nat.zero_le _, silent⟩ h
  | ldtx i b =>
    change execLdtx i b s = .next t at h
    unfold execLdtx at h
    split at h
    · exact taken ⟨_, _, _, _, _, _, _, _, _, _, _, rfl, .inl rfl, le_rfl, silent⟩ h
    · exact taken (illegal_quick _ _ _ s) h
  | discover =>
    cases hc : s.cfg.cand with
    | nil =>
      change whenReady s (conclude (discoverFrom 0 s.cfg.cand (accept 0x9 0 0 s))) = .next t at h
      rw [hc] at h
      exact taken ⟨_, _, _, _, _, _, _, _, _, _, _, rfl, .inr rfl, le_rfl, List.prefix_append _ _⟩ h
    | cons c cs => simp [beginPhases, hc] at hb
  | reservedC _ _ | reservedD _ _ | reservedE _ _ | reservedF _ _ => exact taken (illegal_quick _ _ _ s) h
  | send | probe _ | read | readRetry | requestFrame _ _ _ => cases hb
  | replyFrame a n d e l h' => exact absurd rfl (hi a n d e l h')

theorem receiveByte_moves (b : Byte) (s : State) : Moves s (receiveByte b s) := by
  have hd : Moves s (deliver ⟨s.clock, s.clock, b⟩ s) := (Move.delivery ⟨s.clock, s.clock, b⟩ s.arrivals).moves
  unfold receiveByte
  generalize deliver ⟨s.clock, s.clock, b⟩ s = u at hd
  dsimp only
  split
  · next hw =>
    have hp : u.ph = .rxWait := by simpa using (Bool.and_eq_true_iff.mp hw).2
    split
    · exact hd
    · split
      · split
        · next t ht => exact hd.trans (Move.got hp ht).moves
        · exact hd
        · exact hd
      · exact hd
  · exact hd

theorem receiveFrame_moves {f : Frame7} {s t : State} (h : receiveFrame f s = .next t) : Moves s t := by
  unfold receiveFrame at h
  cases h
  generalize f.toList = bs
  induction bs generalizing s with
  | nil => exact .refl
  | cons b bs ih => exact (receiveByte_moves b s).trans ih

theorem sendLoaded_moves {f : Frame8} {s t : State} (h : sendLoaded f s = .next t) : Moves s t := by
  have hw : Moves _ _ := (walks_sendLoaded f s).moves
  rcases whenReady_cases h with ⟨-, ht⟩ | ⟨-, ht⟩ <;> rw [ht]
  · exact .refl
  · exact (Move.beginFrame f).moves.trans hw

theorem exec_moves {i : Instr} {s t : State} (h : exec i s = .next t) : Moves s t := by
  by_cases hi : ∃ a n d e l k, i = .replyFrame a n d e l k
  · obtain ⟨a, n, d, e, l, k, rfl⟩ := hi
    exact receiveFrame_moves h
  · have hi : ∀ a n d e l k, i ≠ .replyFrame a n d e l k :=
      fun a n d e l k he => hi ⟨a, n, d, e, l, k, he⟩
    cases hs : s.busy with
    | true => rw [exec_busy hs hi] at h; cases h; exact .refl
    | false =>
      cases hb : beginPhases i s with
      | none => exact (Move.quick hs (exec_quick hs hi hb h)).moves
      | some b =>
        obtain ⟨u, hw, hu⟩ := walks_exec hs hb
        rw [h] at hu
        cases hu
        exact (Move.begin hb).moves.trans hw.moves

theorem unlisted_moves {r : Raw} {s t : State} (h : unlisted r s = .next t) : Moves s t := by
  cases r with
  | command w =>
    rcases whenReady_cases h with ⟨-, rfl⟩ | ⟨hs, rfl⟩
    · exact .refl
    · exact (Move.quick hs (illegal_quick _ _ _ s)).moves
  | request f => exact sendLoaded_moves h
  | reply f => exact receiveFrame_moves h

theorem beginUnlisted_move {r : Raw} {s t : State} (h : beginUnlisted r s = some t) : Move s t := by
  cases r <;> cases h
  exact .beginFrame _

theorem runRaw_moves {r : Raw} {s t : State} (h : runRaw r s = .next t) : Moves s t := by
  rcases runRaw_cases h with ⟨i, -, he | ⟨-, hb⟩⟩ | ⟨e, -, hu | ⟨-, hb⟩⟩
  · exact exec_moves he
  · exact (Move.begin hb).moves
  · exact unlisted_moves hu
  · exact (beginUnlisted_move hb).moves

/-- A step resets, or is a run of moves after the outputs of the step before are over and, it may be, an offer is
taken. -/
theorem step_moves {s t : State} (h : step s = .next t) :
    (resetDue s = true ∧ t = resetNow s) ∨
      resetDue s = false ∧ ∃ u, (u = quiet s ∨ u = takeOffer s) ∧ Moves u t := by
  rcases step_cases h with hr | ⟨hr, r, -, hrun⟩ | ⟨hr, -, -, hp⟩ | ⟨hr, -, -, rfl⟩
  · exact .inl hr
  · exact .inr ⟨hr, _, .inr rfl, runRaw_moves hrun⟩
  · exact .inr ⟨hr, _, .inl rfl, (phaseStep_move hp).moves⟩
  · exact .inr ⟨hr, _, .inl rfl, Move.tick.moves⟩

/-! ## What only grows -/

/-- The parts of the state that a move changes only in few ways: the offers, what has been shown of the trace, `RXBUF`,
`CONF`, `TRACE`, `ADDR` and `RAW`. -/
structure Record where
  offers : List Offer
  shown : Nat
  rxbuf : Frame8
  conf : Bool
  trace : List Event
  addr : Byte
  raw : Word

def record (s : State) : Record := ⟨s.offers, s.shown, s.rxbuf, s.conf, s.trace, s.addr, s.raw⟩

/-- The offers and the eighth slot of `RXBUF` stay, `CONF` is not cleared, `TRACE` grows, and `ADDR` and `RAW` change
only to what an event reports, `ADDR` with `CONF` set. -/
structure Evolves (s t : State) : Prop where
  offers : t.offers = s.offers
  shown : t.shown = s.shown
  slot : t.rxbuf[7] = s.rxbuf[7]
  conf : s.conf = true → t.conf = true
  events : ∃ es, t.trace = s.trace ++ es ∧ (t.addr ≠ s.addr → t.conf = true ∧ .discovered t.addr ∈ es) ∧
    (t.raw ≠ s.raw → .reading t.raw ∈ es)

theorem Evolves.of_record {s t : State} (h : record t = record s) : Evolves s t where
  offers := congrArg Record.offers h
  shown := congrArg Record.shown h
  slot := congrArg (fun r => r.rxbuf[7]) h
  conf := fun hc => (congrArg Record.conf h).trans hc
  events := ⟨[], (congrArg Record.trace h).trans (List.append_nil _).symm,
    fun ha => absurd (congrArg Record.addr h) ha, fun hr => absurd (congrArg Record.raw h) hr⟩

theorem Evolves.refl (s : State) : Evolves s s := .of_record rfl

theorem Evolves.trans {s t u : State} (h : Evolves s t) (h' : Evolves t u) : Evolves s u := by
  obtain ⟨es, htr, haddr, hraw⟩ := h.events
  obtain ⟨es', htr', haddr', hraw'⟩ := h'.events
  refine ⟨h'.offers.trans h.offers, h'.shown.trans h.shown, h'.slot.trans h.slot, fun hc => h'.conf (h.conf hc),
    es ++ es', by rw [htr', htr, List.append_assoc], fun ha => ?_, fun hr => ?_⟩
  · by_cases hu : u.addr = t.addr
    · obtain ⟨hc, he⟩ := haddr (hu ▸ ha)
      exact ⟨h'.conf hc, List.mem_append_left _ (hu ▸ he)⟩
    · obtain ⟨hc, he⟩ := haddr' hu
      exact ⟨hc, List.mem_append_right _ he⟩
  · by_cases hu : u.raw = t.raw
    · exact List.mem_append_left _ (hu ▸ hraw (hu ▸ hr))
    · exact List.mem_append_right _ (hraw' hu)

/-! ### The operations that leave the record -/

@[simp] theorem record_deliver (a : Arrival) (s : State) : record (deliver a s) = record s := by
  obtain ⟨q, f, m, d, h, -⟩ := deliver_eq a s
  rw [h]; rfl

@[simp] theorem record_elapse (n : Nat) (s : State) : record (elapse n s) = record s := by
  obtain ⟨q, f, m, d, as, h, -⟩ := elapse_eq n s
  rw [h]; rfl

@[simp] theorem record_openPlan (s : State) : record (openPlan s) = record s := by
  obtain ⟨p, d, h, -⟩ := openPlan_eq s
  rw [h]; rfl

@[simp] theorem record_uartWrite (s : State) : record (uartWrite s) = record s := by
  unfold uartWrite
  split <;> rfl

@[simp] theorem record_startTx (s : State) : record (startTx s) = record s := by
  obtain ⟨q, d, h, -⟩ := dirTx_eq { s with ph := .txPre }
  rw [startTx, h]; rfl

@[simp] theorem record_dirRx (s : State) : record (dirRx s) = record s := by
  obtain ⟨q, f, h, -⟩ := dirRx_eq s
  rw [h]; rfl

@[simp] theorem record_finishIdle (c : BitVec 3) (s : State) : record (finishIdle c s) = record s := rfl

@[simp] theorem record_afterAttempt (r : BitVec 3) (s : State) : record (afterAttempt r s) = record s := by
  unfold afterAttempt
  split
  · rfl
  · split <;> rfl

/-! ### The operations that report an event -/

theorem emit_evolves (e : Event) (s : State) : Evolves s (emit e s) :=
  ⟨rfl, rfl, rfl, id, [e], rfl, fun h => absurd rfl h, fun h => absurd rfl h⟩

theorem release_evolves (s : State) : Evolves s (release s) :=
  Evolves.trans (t := { dirRx s with plans := s.plans.tail }) (.of_record (record_dirRx s)) (emit_evolves _ _)

theorem probeGot_evolves (c : Byte) (s : State) : Evolves s (probeGot c s) :=
  ⟨rfl, rfl, rfl, fun _ => rfl, [.discovered c], rfl, fun _ => ⟨rfl, List.mem_singleton_self _⟩,
    fun h => absurd rfl h⟩

theorem afterProbe_evolves (s : State) : Evolves s (afterProbe s) := by
  unfold afterProbe
  split
  · exact .of_record rfl
  · exact (emit_evolves _ s).trans (.of_record rfl)

theorem takeInto_eq {i : Nat} (hi : i < 7) (s : State) :
    ∃ q x f, takeInto i s = { s with rxq := q, rxbuf := x, fresh := f } ∧ q.length ≤ s.rxq.length ∧
      x[7] = s.rxbuf[7] := by
  unfold takeInto
  split
  · exact ⟨_, _, _, rfl, le_rfl, rfl⟩
  · next b q hb => exact ⟨_, _, _, rfl, by simp [hb], Vector.getElem_setIfInBounds_ne (by omega) (by omega)⟩

/-- Bytes leave the queue for the first seven slots of `RXBUF`, however many are queued. -/
theorem takeAll_eq (is : List Nat) (his : ∀ i ∈ is, i < 7) (s : State) :
    ∃ q x f, is.foldl (fun s i => takeInto i s) s = { s with rxq := q, rxbuf := x, fresh := f } ∧
      q.length ≤ s.rxq.length ∧ x[7] = s.rxbuf[7] := by
  induction is generalizing s with
  | nil => exact ⟨_, _, _, rfl, le_rfl, rfl⟩
  | cons i is ih =>
    obtain ⟨q₁, x₁, f₁, h₁, hq₁, hx₁⟩ := takeInto_eq (his i List.mem_cons_self) s
    obtain ⟨q, x, f, h, hq, hx⟩ := ih (fun j hj => his j (List.mem_cons_of_mem i hj)) (takeInto i s)
    rw [List.foldl_cons, h]
    rw [h₁] at hq hx ⊢
    exact ⟨q, x, f, rfl, hq.trans hq₁, hx.trans hx₁⟩

/-- What taking and reporting a reply changes. -/
theorem receiveReply_frame (s : State) :
    ∃ q x f c ok r, receiveReply s = { s with
        rxq := q, rxbuf := x, fresh := f, crc := c, rspCrcOk := ok, trace := s.trace ++ [.received r] } ∧
      q.length ≤ s.rxq.length ∧ x[7] = s.rxbuf[7] := by
  obtain ⟨q, x, f, h, hq, hx⟩ := takeAll_eq [0, 1, 2, 3, 4, 5, 6] (by decide) s
  have ht : takeReply s = { s with rxq := q, rxbuf := x, fresh := f } := h
  unfold receiveReply
  rw [ht]
  exact ⟨q, x, f, _, _, _, rfl, hq, hx⟩

/-- What taking and decoding a reply changes. -/
theorem readGot_frame (a : Byte) (s : State) :
    ∃ q x f c ok es v, (readGot a s).2 = { s with
        rxq := q, rxbuf := x, fresh := f, crc := c, rspCrcOk := ok, trace := s.trace ++ es, raw := v } ∧
      q.length ≤ s.rxq.length ∧ x[7] = s.rxbuf[7] ∧ (v ≠ s.raw → .reading v ∈ es) := by
  obtain ⟨q, x, f, c, ok, r, h, hq, hx⟩ := receiveReply_frame s
  unfold readGot
  rw [h]
  dsimp only
  split
  · exact ⟨q, x, f, c, ok, [.received r, .error 4], s.raw, by simp [emitError, emit, Kind.code], hq, hx,
      fun hv => absurd rfl hv⟩
  · exact ⟨q, x, f, c, ok, [.received r, .error 6], s.raw, by simp [emitError, emit, Kind.code], hq, hx,
      fun hv => absurd rfl hv⟩
  · next v _ => exact ⟨q, x, f, c, ok, [.received r, .reading v], v, by simp [emit], hq, hx, fun _ => by simp⟩

theorem readGot_evolves (a : Byte) (s : State) : Evolves s (readGot a s).2 := by
  obtain ⟨q, x, f, c, ok, es, v, h, -, hx, hv⟩ := readGot_frame a s
  rw [h]
  exact ⟨rfl, rfl, hx, id, es, rfl, fun ha => absurd rfl ha, hv⟩

/-! ### The moves -/

theorem rxGot_evolves {s t : State} (h : rxGot s = .next t) : Evolves s t := by
  have hread := readGot_evolves s.addr s
  unfold rxGot at h
  split at h
  · cases h; exact (probeGot_evolves s.arg s).trans (.of_record rfl)
  · split at h
    · next c hc => cases h; exact (probeGot_evolves c s).trans (.of_record rfl)
    · cases h
  · cases h; exact hread.trans (.of_record (record_finishIdle _ _))
  · cases h; exact hread.trans (.of_record (record_afterAttempt _ _))
  · cases h

theorem rxExpired_evolves {s t : State} (h : rxExpired s = .next t) : Evolves s t := by
  have hprobe : Evolves s (probeExpired s) := emit_evolves _ s
  have hread : Evolves s (readExpired s) := Evolves.trans (t := rxClear s) (.of_record rfl) (emit_evolves _ _)
  unfold rxExpired at h
  split at h
  · cases h; exact hprobe.trans (.of_record rfl)
  · cases h; exact hprobe.trans (afterProbe_evolves _)
  · cases h; exact hread.trans (.of_record rfl)
  · cases h; exact hread.trans (.of_record (record_afterAttempt _ _))
  · cases h

theorem record_beginPhases {i : Instr} {s t : State} (h : beginPhases i s = some t) : record t = record s := by
  cases i with
  | discover =>
    simp only [beginPhases] at h
    split at h <;> cases h
    exact record_startTx _
  | send | probe _ | read | readRetry | requestFrame _ _ _ => cases h; exact record_startTx _
  | nop | crcInit | crcByte _ | encode _ | verify | ldtx _ _ | flushrx | reservedC _ _ | reservedD _ _ | reservedE _ _
  | reservedF _ _ | replyFrame _ _ _ _ _ _ => cases h

theorem Move.evolves {s t : State} (h : Move s t) : Evolves s t := by
  cases h with
  | timer | tick => exact .of_record (record_elapse 1 s)
  | delivery a as => exact .of_record (record_deliver a _)
  | data => exact .of_record (record_openPlan s)
  | write => exact .of_record (record_uartWrite _)
  | writeTick | drainTick | lastTick => exact .of_record (record_elapse 1 _)
  | drain | post => exact .of_record rfl
  | sent | wait => exact (release_evolves s).trans (.of_record rfl)
  | got _ h => exact rxGot_evolves h
  | expired _ h => exact rxExpired_evolves h
  | nextProbe | nextRead | beginFrame => exact .of_record (record_startTx _)
  | begin h => exact .of_record (record_beginPhases h)
  | quick _ h =>
    obtain ⟨p, op, idx, arg, c, f, r, ok, q, n, tr, rfl, -, -, es, rfl⟩ := h
    exact ⟨rfl, rfl, rfl, id, es, rfl, fun ha => absurd rfl ha, fun hr => absurd rfl hr⟩

theorem Moves.evolves {s t : State} (h : Moves s t) : Evolves s t :=
  h.keeps (P := Evolves s) (fun hs hm => hs.trans hm.evolves) (.refl s)

/-- But for reset, a step starts with nothing of the trace to show, and adds to it what it reports. -/
theorem step_evolves {s t : State} (hr : resetDue s = false) (h : step s = .next t) :
    ∃ u, (u = quiet s ∨ u = takeOffer s) ∧ Evolves u t := by
  rcases step_moves h with ⟨hr', -⟩ | ⟨-, u, hu, hm⟩
  · rw [hr] at hr'; cases hr'
  · exact ⟨u, hu, hm.evolves⟩

/-! ## The invariant -/

/-- What the invariant speaks of, but for the bytes in the queue. -/
structure Control where
  de : Bool
  rdis : Bool
  ph : Phase
  busy : Bool
  op : BitVec 4
  ci : BitVec 8
  att : BitVec 8
  txi : BitVec 4
  txpend : Nat
  cfg : Config

def control (s : State) : Control := ⟨s.de, s.rdis, s.ph, s.busy, s.op, s.ci, s.att, s.txi, s.txpend, s.cfg⟩

theorem InPlace.of_control {s t : State} (h : InPlace s) (hc : control t = control s) : InPlace t := by
  simp only [control, Control.mk.injEq] at hc
  obtain ⟨-, -, hph, -, hop, hci, hatt, -, -, hcfg⟩ := hc
  obtain ⟨notIdle, owner, waits, gap, backoff, candidate⟩ := h
  constructor <;> simpa only [hph, hop, hci, hatt, hcfg]

theorem Inv.of_control {s t : State} (h : Inv s) (hc : control t = control s) (hq : t.rxq.length ≤ t.cfg.rxqCap) :
    Inv t := by
  have hplace : t.busy = true → InPlace t :=
    fun hb => (h.inPlace ((congrArg Control.busy hc).symm.trans hb)).of_control hc
  simp only [control, Control.mk.injEq] at hc
  obtain ⟨hde, hrdis, hph, hbusy, -, -, -, htxi, hpend, -⟩ := hc
  obtain ⟨⟨pair, phase, free, -, driven, index⟩, drained, -⟩ := h
  refine ⟨⟨?_, ?_, ?_, hq, ?_, ?_⟩, ?_, hplace⟩ <;> simpa only [hde, hrdis, hph, hbusy, htxi, hpend]

/-- In every phase but `IDLE` a command is in progress. -/
theorem Inv.busy {s : State} (h : Inv s) {p : Phase} (hp : s.ph = p) (hne : p ≠ .idle := by decide) :
    s.busy = true := by
  cases hb : s.busy with
  | true => rfl
  | false => exact absurd (hp.symm.trans (h.sound.free hb)) hne

/-! ### Time, deliveries and the outputs -/

theorem Inv.elapse {s : State} (h : Inv s) (n : Nat) : Inv (elapse n s) := by
  obtain ⟨q, f, m, d, as, he, hp, -⟩ := elapse_eq n s
  rw [he]
  exact h.of_control rfl (hp.bound h.sound.bound)

theorem Inv.timerTick {s : State} (h : Inv s) : Inv (timerTick s) :=
  (h.elapse 1).of_control rfl (h.elapse 1).sound.bound

theorem Inv.deliver {s : State} (h : Inv s) (a : Arrival) : Inv (deliver a s) := by
  obtain ⟨q, f, m, d, hd, -, -, hb, -⟩ := deliver_eq a s
  rw [hd]
  exact h.of_control rfl (hb h.sound.bound)

/-! ### The transmit sequence -/

theorem Phase.ne_of_transmitting {p r : Phase} (hp : p.transmitting = true) (hr : r.transmitting = false) :
    p ≠ r := by
  rintro rfl; exact nomatch hp.symm.trans hr

/-- A command in its place with the lines asserted. -/
theorem inv_of_transmitting {s : State} (hp : s.ph.transmitting = true) (hde : s.de = true) (hrdis : s.rdis = true)
    (hb : s.busy = true) (owner : sending s.op) (candidate : s.op = 0x9 → s.ci.toNat < s.cfg.cand.length)
    (hq : s.rxq.length ≤ s.cfg.rxqCap) (hi : s.txi.toNat ≤ 8) (hn : s.ph = .txPost → s.txpend = 0) : Inv s where
  sound := ⟨hde.trans hrdis.symm, hde.trans hp.symm, fun hf => (nomatch hb.symm.trans hf), hq, fun _ => hde, hi⟩
  drained := hn
  inPlace _ :=
    { notIdle := Phase.ne_of_transmitting hp rfl
      owner := owner
      waits := fun hw => absurd hw (Phase.ne_of_transmitting hp rfl)
      gap := fun hw => absurd hw (Phase.ne_of_transmitting hp rfl)
      backoff := fun hw => absurd hw (Phase.ne_of_transmitting hp rfl)
      candidate := candidate }

/-- Within the transmit sequence the phase, `TXI` and `TXPEND` change, `TXPEND` to 0 where the trailing delay begins. -/
theorem Inv.transmits {s t : State} (h : Inv s) (hs : s.ph.transmitting = true) {p : Phase} {i : BitVec 4} {n : Nat}
    (ht : control t = { control s with ph := p, txi := i, txpend := n }) (hp : p.transmitting = true)
    (hi : i.toNat ≤ 8) (hn : p = .txPost → n = 0) (hq : t.rxq.length ≤ t.cfg.rxqCap) : Inv t := by
  have hb : s.busy = true := h.busy rfl (Phase.ne_of_transmitting hs rfl)
  have hde : s.de = true := h.sound.phase.trans hs
  have hrdis : s.rdis = true := h.sound.pair.symm.trans hde
  obtain ⟨-, owner, -, -, -, candidate⟩ := h.inPlace hb
  simp only [control, Control.mk.injEq] at ht
  obtain ⟨hde', hrdis', rfl, hb', hop, hci, -, rfl, rfl, hcfg⟩ := ht
  rw [← hop] at owner candidate
  rw [← hci, ← hcfg] at candidate
  exact inv_of_transmitting hp (hde'.trans hde) (hrdis'.trans hrdis) (hb'.trans hb) owner candidate hq hi hn

/-- A transmission starts: the lines are asserted by a command that transmits. -/
theorem inv_startTx {s : State} {op : BitVec 4} (hb : s.busy = true) (hop : s.op = op) (ho : sending op)
    (hc : op = 0x9 → s.ci.toNat < s.cfg.cand.length) (hq : s.rxq.length ≤ s.cfg.rxqCap) (hi : s.txi.toNat ≤ 8) :
    Inv (startTx s) := by
  obtain ⟨q, d, h, hl, -⟩ := dirTx_eq { s with ph := .txPre }
  subst hop
  rw [startTx, h]
  exact inv_of_transmitting rfl rfl rfl hb ho hc (hl.trans hq) hi nofun

theorem Inv.enterData {s : State} (h : Inv s) (hp : s.ph = .txPre) : Inv (enterData s) := by
  obtain ⟨p, d, ho, -⟩ := openPlan_eq s
  rw [Machine.enterData, ho]
  exact h.transmits (by rw [hp]; rfl) rfl rfl (Nat.zero_le 8) (nofun) h.sound.bound

theorem Inv.uartWrite {s : State} (h : Inv s) (hp : s.ph = .txData) (hi : s.txi.toNat < 8) : Inv (uartWrite s) := by
  rw [uartWrite_eq hi]
  exact h.transmits (by rw [hp]; rfl) rfl (by rw [hp]; rfl) (by bv_omega) (fun hw => nomatch hp.symm.trans hw)
    h.sound.bound

/-- A tick of the serialiser, in which `TXPEND` comes to `n`. -/
theorem Inv.serial {s : State} (h : Inv s) (hp : s.ph = .txData ∨ s.ph = .txDrain) (n : Nat) :
    Inv { Machine.elapse 1 s with txpend := n } := by
  obtain ⟨q, f, m, d, as, he, hpass, -⟩ := elapse_eq 1 s
  rw [he]
  refine h.transmits ?_ rfl ?_ h.sound.index (fun hw => ?_) (hpass.bound h.sound.bound)
  · rcases hp with hp | hp <;> rw [hp] <;> rfl
  · rcases hp with hp | hp <;> rw [hp] <;> rfl
  · rcases hp with hp | hp <;> exact nomatch hp.symm.trans hw

/-! ### The lines released -/

/-- The lines are in receive and the serialiser is idle. -/
structure Released (s : State) : Prop where
  de : s.de = false
  rdis : s.rdis = false
  pend : s.txpend = 0
  bound : s.rxq.length ≤ s.cfg.rxqCap
  index : s.txi.toNat ≤ 8

theorem Released.of_control {s t : State} (h : Released s) (hc : control t = control s)
    (hq : t.rxq.length ≤ s.rxq.length) : Released t := by
  simp only [control, Control.mk.injEq] at hc
  obtain ⟨hde, hrdis, -, -, -, -, -, htxi, hpend, hcfg⟩ := hc
  obtain ⟨de, rdis, pend, bound, index⟩ := h
  refine ⟨?_, ?_, ?_, hcfg ▸ hq.trans bound, ?_⟩ <;> simpa only [hde, hrdis, htxi, hpend]

theorem Inv.released {s : State} (h : Inv s) (hp : s.ph.transmitting = false) : Released s := by
  have hde : s.de = false := h.sound.phase.trans hp
  refine ⟨hde, h.sound.pair.symm.trans hde, Nat.eq_zero_of_not_pos fun hpos => ?_, h.sound.bound, h.sound.index⟩
  exact nomatch hde.symm.trans (h.sound.driven hpos)

theorem Inv.release {s : State} (h : Inv s) (hp : s.ph = .txPost) :
    Released (release s) ∧ (release s).busy = s.busy ∧ (release s).op = s.op ∧ (release s).ci = s.ci ∧
      (release s).cfg = s.cfg := by
  obtain ⟨q, f, hd, -, -, hb⟩ := dirRx_eq s
  rw [Machine.release, hd]
  exact ⟨⟨rfl, rfl, h.drained hp, hb h.sound.bound, h.sound.index⟩, rfl, rfl, rfl, rfl⟩

/-- No command in progress, the lines released. -/
theorem Released.idle {s : State} (h : Released s) (hp : s.ph = .idle) (hb : s.busy = false) : Inv s := by
  obtain ⟨de, rdis, pend, bound, index⟩ := h
  refine ⟨⟨de.trans rdis.symm, ?_, fun _ => hp, bound, ?_, index⟩, ?_, ?_⟩
  · rw [de, hp]; rfl
  · intro hpos; exact absurd pend (Nat.ne_of_gt hpos)
  · intro hw; exact nomatch hp.symm.trans hw
  · intro hw; exact nomatch hb.symm.trans hw

theorem Released.finishIdle {s : State} (h : Released s) (c : BitVec 3) : Inv (finishIdle c s) := by
  obtain ⟨de, rdis, pend, bound, index⟩ := h
  exact Released.idle ⟨de, rdis, pend, bound, index⟩ rfl rfl

theorem inv_resetWith (c : Config) : Inv (State.resetWith c) :=
  Released.idle ⟨rfl, rfl, rfl, Nat.zero_le _, Nat.zero_le 8⟩ rfl rfl

/-- A command in its place with the lines released. -/
theorem Released.inv {s : State} (h : Released s) (hb : s.busy = true) (hp : s.ph.transmitting = false)
    (hin : InPlace s) : Inv s := by
  obtain ⟨de, rdis, pend, bound, index⟩ := h
  refine ⟨⟨de.trans rdis.symm, de.trans hp.symm, ?_, bound, ?_, index⟩, ?_, fun _ => hin⟩
  · intro hf; exact nomatch hb.symm.trans hf
  · intro hpos; exact absurd pend (Nat.ne_of_gt hpos)
  · intro hw; rw [hw] at hp; cases hp

theorem Inv.wait {s : State} (h : Inv s) (hp : s.ph = .txPost) (hop : s.op ≠ 0x6) (T : BitVec 16) :
    Inv { Machine.release s with ph := .rxWait, tmr := T } := by
  have hb : s.busy = true := h.busy hp
  obtain ⟨-, owner, -, -, -, candidate⟩ := h.inPlace hb
  obtain ⟨⟨de, rdis, pend, bound, index⟩, hbusy, ho, hci, hcfg⟩ := h.release hp
  generalize Machine.release s = r at de rdis pend bound index hbusy ho hci hcfg ⊢
  rw [← ho] at owner candidate hop
  rw [← hci, ← hcfg] at candidate
  exact Released.inv ⟨de, rdis, pend, bound, index⟩ (hbusy.trans hb) rfl
    { notIdle := nofun, owner := owner, waits := fun _ => hop, gap := nofun, backoff := nofun, candidate := candidate }

theorem Released.afterAttempt {s : State} (h : Released s) (hb : s.busy = true) (hop : s.op = 0xB) (r : BitVec 3) :
    Inv (afterAttempt r s) := by
  have hend (x : Bool) : Inv (Machine.finishIdle r { s with nodata := x }) :=
    (h.of_control (t := { s with nodata := x }) rfl le_rfl).finishIdle r
  unfold Machine.afterAttempt
  split
  · exact hend false
  · split
    · next hatt =>
      obtain ⟨de, rdis, pend, bound, index⟩ := h
      exact Released.inv ⟨de, rdis, pend, bound, index⟩ hb rfl
        { notIdle := nofun
          owner := .inr (.inr (.inr (.inr hop)))
          waits := nofun
          gap := nofun
          backoff := fun _ => ⟨hop, hatt⟩
          candidate := fun h9 => absurd (hop.symm.trans h9) (by decide) }
    · exact hend true

theorem Released.afterProbe {s : State} (h : Released s) (hb : s.busy = true) (hop : s.op = 0x9) :
    Inv (afterProbe s) := by
  unfold Machine.afterProbe
  split
  · next hci =>
    obtain ⟨de, rdis, pend, bound, index⟩ := h
    exact Released.inv ⟨de, rdis, pend, bound, index⟩ hb rfl
      { notIdle := nofun
        owner := .inr (.inr (.inl hop))
        waits := nofun
        gap := fun _ => ⟨hop, hci⟩
        backoff := nofun
        candidate := fun _ => Nat.lt_of_succ_lt hci }
  · exact (h.of_control (t := emitError _ s) rfl le_rfl).finishIdle _

theorem Inv.rxGot {s t : State} (h : Inv s) (hp : s.ph = .rxWait) (ht : rxGot s = .next t) : Inv t := by
  have hr : Released s := h.released (by rw [hp]; rfl)
  have hb : s.busy = true := h.busy hp
  obtain ⟨hread, hreadBusy, hreadOp⟩ : Released (readGot s.addr s).2 ∧ (readGot s.addr s).2.busy = true ∧
      (readGot s.addr s).2.op = s.op := by
    obtain ⟨q, x, f, c, ok, es, v, he, hq, -⟩ := readGot_frame s.addr s
    rw [he]
    exact ⟨hr.of_control rfl hq, hb, rfl⟩
  unfold Machine.rxGot at ht
  split at ht
  · cases ht; exact (hr.of_control (t := probeGot s.arg s) rfl le_rfl).finishIdle _
  · split at ht
    · next c _ => cases ht; exact (hr.of_control (t := probeGot c s) rfl le_rfl).finishIdle _
    · cases ht
  · cases ht; exact hread.finishIdle _
  · next hop => cases ht; exact hread.afterAttempt hreadBusy (hreadOp.trans (BitVec.eq_of_toNat_eq hop)) _
  · cases ht

theorem Inv.rxExpired {s t : State} (h : Inv s) (hp : s.ph = .rxWait) (ht : rxExpired s = .next t) : Inv t := by
  have hr : Released s := h.released (by rw [hp]; rfl)
  have hb : s.busy = true := h.busy hp
  have hprobe : Released (probeExpired s) := hr.of_control rfl le_rfl
  have hread : Released (readExpired s) := hr.of_control rfl (Nat.zero_le _)
  unfold Machine.rxExpired at ht
  split at ht
  · cases ht; exact hprobe.finishIdle _
  · next hop => cases ht; exact hprobe.afterProbe hb (BitVec.eq_of_toNat_eq hop)
  · cases ht; exact hread.finishIdle _
  · next hop => cases ht; exact hread.afterAttempt hb (BitVec.eq_of_toNat_eq hop) _
  · cases ht

/-! ### The start of a command -/

theorem Inv.begin {i : Instr} {s t : State} (h : Inv s) (ht : beginPhases i s = some t) : Inv t := by
  obtain ⟨-, -, -, bound, -, index⟩ := h.sound
  cases i with
  | send | requestFrame _ _ _ => cases ht; exact inv_startTx (op := 0x6) rfl rfl (by decide) nofun bound index
  | read => cases ht; exact inv_startTx (op := 0xA) rfl rfl (by decide) nofun bound index
  | readRetry => cases ht; exact inv_startTx (op := 0xB) rfl rfl (by decide) nofun bound index
  | probe a => cases ht; exact inv_startTx (op := 0x8) rfl rfl (by decide) nofun (Nat.zero_le _) index
  | discover =>
    simp only [beginPhases] at ht
    split at ht
    · cases ht
    · next c cs hc =>
      cases ht
      have hpos : 0 < s.cfg.cand.length := by simp [hc]
      exact inv_startTx (op := 0x9) rfl rfl (by decide) (fun _ => hpos) (Nat.zero_le _) index
  | nop | crcInit | crcByte _ | encode _ | verify | ldtx _ _ | flushrx | reservedC _ _ | reservedD _ _ | reservedE _ _
  | reservedF _ _ | replyFrame _ _ _ _ _ _ => cases ht

theorem Inv.nextProbe {s : State} (h : Inv s) (hp : s.ph = .gap) (hop : s.op = 0x9) {c : Byte}
    (hc : s.cfg.cand[s.ci.toNat + 1]? = some c) : Inv (beginProbe c { s with ci := s.ci + 1 }) := by
  have hb : s.busy = true := h.busy hp
  obtain ⟨hlt, -⟩ := List.getElem?_eq_some_iff.mp hc
  refine inv_startTx hb hop (by decide) (fun _ => ?_) (Nat.zero_le _) h.sound.index
  have hci : (s.ci + 1).toNat ≤ s.ci.toNat + 1 := by bv_omega
  exact hci.trans_lt hlt

theorem Inv.nextRead {s : State} (h : Inv s) (hp : s.ph = .backoff) : Inv (beginRead { s with att := s.att + 1 }) := by
  have hb : s.busy = true := h.busy hp
  obtain ⟨-, owner, -, -, -, candidate⟩ := h.inPlace hb
  exact inv_startTx hb rfl owner candidate h.sound.bound h.sound.index

/-! ### The moves -/

theorem Inv.quick {s t : State} (h : Inv s) (hb : s.busy = false) (hq : Quick s t) : Inv t := by
  obtain ⟨p, op, idx, arg, c, f, r, ok, q, n, tr, rfl, hp, hl, -⟩ := hq
  have hidle : s.ph = .idle := h.sound.free hb
  obtain rfl : p = .idle := by rcases hp with rfl | rfl <;> simp [hidle]
  obtain ⟨de, rdis, pend, bound, index⟩ := h.released (by rw [hidle]; rfl)
  exact Released.idle ⟨de, rdis, pend, hl.trans bound, index⟩ rfl rfl

theorem Inv.move {s t : State} (h : Inv s) (hm : Move s t) : Inv t := by
  have plans (ps : List SerialPlan) : Inv { s with plans := ps } := h.of_control rfl h.sound.bound
  cases hm with
  | timer => exact h.timerTick
  | tick => exact h.elapse 1
  | delivery a as => exact (h.of_control (t := { s with arrivals := as }) rfl h.sound.bound).deliver a
  | data hp => exact h.enterData hp
  | write hp hi ps => exact (plans ps).uartWrite hp hi
  | writeTick hp e ps => exact (plans ps).serial (.inl hp) _
  | drain hp =>
    exact h.transmits (by rw [hp]; rfl) rfl rfl h.sound.index (nofun) h.sound.bound
  | drainTick hp e ps => exact (plans ps).serial (.inr hp) _
  | lastTick hp => exact h.serial (.inr hp) 0
  | post hp h0 => exact h.transmits (by rw [hp]; rfl) rfl rfl h.sound.index (fun _ => h0) h.sound.bound
  | sent hp => exact (h.release hp).1.finishIdle 0
  | wait hp hop T => exact h.wait hp hop T
  | got hp ht => exact h.rxGot hp ht
  | expired hp ht => exact h.rxExpired hp ht
  | nextProbe hp hop hc => exact h.nextProbe hp hop hc
  | nextRead hp => exact h.nextRead hp
  | begin ht => exact h.begin ht
  | beginFrame f =>
    exact inv_startTx (op := 0x6) rfl rfl (by decide) nofun h.sound.bound h.sound.index
  | quick hb hq => exact h.quick hb hq

theorem inv_resetNow (s : State) : Inv (resetNow s) := by
  unfold resetNow
  split
  · exact (inv_resetWith s.cfg).of_control rfl (Nat.zero_le _)
  · split <;> exact (inv_resetWith s.cfg).of_control rfl (Nat.zero_le _)

theorem Inv.step {s t : State} (h : Inv s) (ht : step s = .next t) : Inv t := by
  rcases step_moves ht with ⟨-, rfl⟩ | ⟨-, u, rfl | rfl, hm⟩
  · exact inv_resetNow s
  · exact hm.keeps (fun hu => hu.move) (h.of_control rfl h.sound.bound)
  · exact hm.keeps (fun hu => hu.move) (h.of_control rfl h.sound.bound)

/-! ## The offers and the outputs -/

/-- While a command is in progress, a command word or a request frame is not due. -/
theorem dueOffer_busy {s : State} {o : Offer} {os : List Offer} (hb : s.busy = true) (ho : s.offers = o :: os)
    (hraw : ∀ f, o.raw ≠ .reply f) : dueOffer s = none := by
  simp only [dueOffer, ho, hb, if_true]
  cases hr : o.raw with
  | reply f => exact absurd hr (hraw f)
  | command w => exact ite_self none
  | request f => exact ite_self none

/-! The proofs on packed words first write the width of the word as the sum of its parts, as the library's lemmas on
`++` have it. -/

/-- Byte `i` of eight stands in bits `63 - 8 * i` down to `56 - 8 * i`. -/
theorem packQ_byte (f : Frame8) {i : Nat} (h : i < 8) : (packQ f).extractLsb' (56 - 8 * i) 8 = f[i] := by
  change BitVec.extractLsb' (n := 8 + 8 + 8 + 8 + 8 + 8 + 8 + 8) _ _ _ = _
  unfold packQ
  interval_cases i <;> simp (disch := decide) only [BitVec.extractLsb'_append_eq_of_le,
    BitVec.extractLsb'_append_eq_of_add_le, BitVec.extractLsb'_eq_self, Nat.reduceSub, Nat.reduceMul]

/-- Byte `i` of seven, before a last byte. -/
theorem packP_byte (r : Frame7) (b : Byte) {i : Nat} (h : i < 7) :
    (packP r ++ b).extractLsb' (56 - 8 * i) 8 = r[i] := by
  change BitVec.extractLsb' (n := 8 + 8 + 8 + 8 + 8 + 8 + 8 + 8) _ _ _ = _
  unfold packP
  interval_cases i <;> simp (disch := decide) only [BitVec.extractLsb'_append_eq_of_le,
    BitVec.extractLsb'_append_eq_of_add_le, BitVec.extractLsb'_eq_self, Nat.reduceSub, Nat.reduceMul]

/-- An event's payload in the low bits of the port. -/
theorem setWidth_low {w : Nat} (x : BitVec w) (h : w ≤ 64) : (x.setWidth 64).extractLsb' 0 w = x :=
  (BitVec.extractLsb'_setWidth_of_le (by omega)).trans BitVec.extractLsb'_eq_self

/-- The flags of the status word. -/
theorem status_flags (s : State) :
    (status s).getLsbD 3 = s.busy ∧ (status s).getLsbD 4 = s.conf ∧ (status s).getLsbD 5 = s.frameOk ∧
    (status s).getLsbD 6 = s.rspCrcOk ∧ (status s).getLsbD 7 = s.nodata ∧ (status s).getLsbD 8 = s.de ∧
    (status s).getLsbD 9 = s.rdis := by
  simp only [status, BitVec.getLsbD_append]
  simp

theorem status_err (s : State) : (status s).extractLsb' 0 3 = s.err := by
  change BitVec.extractLsb' (n := 2 + 4 + 1 + 1 + 1 + 1 + 1 + 1 + 1 + 3) _ _ _ = _
  unfold status
  simp (disch := decide) only [BitVec.extractLsb'_append_eq_of_add_le, BitVec.extractLsb'_eq_self]

theorem status_phase (s : State) : (status s).extractLsb' 10 4 = s.ph.code := by
  change BitVec.extractLsb' (n := 2 + 4 + 1 + 1 + 1 + 1 + 1 + 1 + 1 + 3) _ _ _ = _
  unfold status
  simp (disch := decide) only [BitVec.extractLsb'_append_eq_of_le, BitVec.extractLsb'_append_eq_of_add_le,
    BitVec.extractLsb'_eq_self, Nat.reduceSub]

theorem status_unused (s : State) : (status s).extractLsb' 14 2 = 0 := by
  change BitVec.extractLsb' (n := 2 + 4 + 1 + 1 + 1 + 1 + 1 + 1 + 1 + 3) _ _ _ = _
  unfold status
  simp (disch := decide) only [BitVec.extractLsb'_append_eq_of_le, BitVec.extractLsb'_eq_self, Nat.reduceSub]
  rfl

theorem txValid_iff (s : State) : txValid s = true ↔ s.ph = .txData ∧ s.txi.toNat < 8 := by
  simp [txValid]

/-! ## The statements -/

/-- Settles O52: each move keeps the invariant (`Inv.move`), and a step is a run of moves or a reset. -/
theorem stepKeepsInv : Obligations.StepKeepsInv := by
  refine ⟨fun s h => ?_, fun s t h ht => h.step ht⟩
  obtain ⟨pair, phase, free, bound, driven, index⟩ := h.sound
  refine ⟨pair, ?_, fun hb => ⟨free hb, ?_⟩, bound, driven, index⟩
  · rw [phase]; cases s.ph <;> decide
  · rw [phase, free hb]; rfl

/-- Settles O8: a command word is run under `whenReady`, and is not due while a command is in progress; a small step
keeps the offers. -/
theorem busyTakesNoCommand : Obligations.BusyTakesNoCommand := by
  refine ⟨fun s i hb hi => exec_busy hb hi, fun s o os hb hr ho hraw => ?_⟩
  have hstep : step s = phaseStep (quiet s) := by
    rw [step, if_neg (by simp [hr]), dueOffer_busy hb ho hraw]
    exact if_pos hb
  exact ⟨hstep, fun t ht => (phaseStep_move (hstep.symm.trans ht)).evolves.offers⟩

/-- Settles O56: a reset clears the slot, and no move writes it. -/
theorem eighthReplySlotStaysZero : Obligations.EighthReplySlotStaysZero := by
  intro s t ht h0
  rcases step_moves ht with ⟨-, rfl⟩ | ⟨-, u, rfl | rfl, hm⟩
  · unfold resetNow
    split
    · rfl
    · split <;> rfl
  · exact hm.evolves.slot.trans h0
  · exact hm.evolves.slot.trans h0

/-- Settles O57: the step begins with the whole trace shown, and its moves add what is presented. -/
theorem confirmationAndTraceOnlyGrow : Obligations.ConfirmationAndTraceOnlyGrow := by
  intro s t hr ht
  have hgrow : t.shown = s.trace.length ∧ (s.conf = true → t.conf = true) ∧ ∃ es, t.trace = s.trace ++ es := by
    obtain ⟨u, rfl | rfl, hu⟩ := step_evolves hr ht <;> obtain ⟨es, he, -⟩ := hu.events <;>
      exact ⟨hu.shown, hu.conf, es, he⟩
  obtain ⟨hshown, hconf, es, he⟩ := hgrow
  have hp : presented t = es := by rw [presented, hshown, he, List.drop_left]
  refine ⟨hconf, ⟨es, he.symm⟩, by rw [hp, he], ?_, by rw [evPort, presented, hshown]⟩
  rw [evValid, hp, he]
  simp

/-- Settles O58: among the moves only the end of a probe that got a byte changes `ADDR`. -/
theorem addressChangesOnlyByDiscovery : Obligations.AddressChangesOnlyByDiscovery := by
  intro s t hr ht ha
  obtain ⟨u, rfl | rfl, hu⟩ := step_evolves hr ht <;> obtain ⟨es, he, haddr, -⟩ := hu.events <;>
    exact ⟨(haddr ha).1, es, he, (haddr ha).2⟩

/-- Settles O11: the reset state, field by field. -/
theorem resetValues : Obligations.ResetValues :=
  fun _ => ⟨rfl, rfl, rfl, rfl, rfl, rfl, rfl, rfl, rfl, rfl, rfl, rfl, rfl, rfl, rfl, rfl, rfl, rfl, rfl, rfl, rfl,
    rfl, rfl, rfl⟩

/-- Settles O24: the word is read field by field, from the concatenation that makes it. -/
theorem statusWord : Obligations.StatusWord := by
  refine ⟨fun s => ?_, by decide, fun c => by simp [status, State.resetWith, Phase.code]⟩
  obtain ⟨hbusy, hconf, hframe, hrsp, hnodata, hde, hrdis⟩ := status_flags s
  exact ⟨status_err s, hbusy, hconf, hframe, hrsp, hnodata, hde, hrdis, status_phase s, status_unused s⟩

/-- Settles O25: the bytes of a frame by their place in the word (`packQ_byte`, `packP_byte`), the rest case by case. -/
theorem eventPortAndPins : Obligations.EventPortAndPins := by
  refine ⟨?sent, ?received, ?discovered, ?reading, ?error, fun s => ?pins, fun s => ?tx⟩
  case sent => exact fun f i h => ⟨rfl, packQ_byte f h⟩
  case received =>
    intro r i h
    have hlow : (packP r ++ 0#8).extractLsb' 0 8 = 0 :=
      (BitVec.extractLsb'_append_eq_of_add_le (by decide)).trans BitVec.extractLsb'_eq_self
    exact ⟨rfl, packP_byte r 0 h, hlow⟩
  case discovered => exact fun a => ⟨rfl, setWidth_low a (by decide)⟩
  case reading => exact fun v => ⟨rfl, setWidth_low v (by decide)⟩
  case error => exact fun k => ⟨rfl, setWidth_low k (by decide)⟩
  case pins =>
    refine ⟨by simp [cmdReady], by simp [txIdle], ?_, ?_, ?_, ?_⟩ <;> intro h
    · rw [pinDe, h]; rfl
    · rw [pinDe, h]; rfl
    · rw [pinRdis, h]; rfl
    · rw [pinRdis, h]; rfl
  case tx =>
    refine ⟨txValid_iff s, fun hv => ?_, fun h hv => ?_⟩
    · simp [txData, hv]
    · simp [txData, hv, h]

/-- Settles O51: `Config.block` is one of the records. -/
theorem invAfterReset : Obligations.InvAfterReset := ⟨inv_resetWith Config.block, inv_resetWith⟩

end Sys2Proof.Machine

/-! # Memory: deliveries to the receive queue (`20_memory.md` R64, R65, R74)

What one character does to the queue, what a list of characters does, and then the two places where characters come in
lists: a span of time (`elapse`) and a reply frame (`receiveFrame`). -/
namespace Sys2Proof.Machine

/-! ## One character -/

theorem queueByte_full {b : Byte} {s : State} (h : s.cfg.rxqCap ≤ s.rxq.length) : queueByte b s = s := by
  rw [queueByte, if_neg (by omega)]

/-- The bytes `bs` at the tail of the queue, in order, as far as there is room. -/
def enqueue (bs : List Byte) (s : State) : State :=
  { s with rxq := s.rxq ++ bs.take (s.cfg.rxqCap - s.rxq.length) }

theorem enqueue_nil (s : State) : enqueue [] s = s := by
  rw [enqueue, List.take_nil, List.append_nil]

/-- Bytes that come in two parts are queued as if they came in one. -/
theorem enqueue_enqueue (bs cs : List Byte) (s : State) : enqueue cs (enqueue bs s) = enqueue (bs ++ cs) s := by
  have hroom : s.cfg.rxqCap - (s.rxq.length + min (s.cfg.rxqCap - s.rxq.length) bs.length) =
      s.cfg.rxqCap - s.rxq.length - bs.length := by omega
  simp only [enqueue, List.length_append, List.length_take, hroom, List.take_append, List.append_assoc]

theorem queueByte_enqueue (b : Byte) (s : State) : ∃ f, queueByte b s = { enqueue [b] s with fresh := f } := by
  by_cases h : s.rxq.length < s.cfg.rxqCap
  · have hroom : [b].take (s.cfg.rxqCap - s.rxq.length) = [b] :=
      List.take_of_length_le (by rw [List.length_singleton]; omega)
    exact ⟨s.fresh + 1, by rw [queueByte_room h, enqueue, hroom]⟩
  · have hfull : s.cfg.rxqCap - s.rxq.length = 0 := by omega
    exact ⟨s.fresh, by rw [queueByte_full (by omega), enqueue, hfull, List.take_zero, List.append_nil]⟩

/-- Settles O39: the free value is no byte, or a byte that finds room or a full queue. -/
theorem straddlingByte : Obligations.StraddlingByte := by
  intro s a hs
  have hdraw : deliver a s = drawByte s := if_pos hs
  rw [hdraw, drawByte]
  cases Config.straddle s.draws with
  | none => exact ⟨s.rxq, s.fresh, rfl, .inl rfl⟩
  | some b =>
    by_cases h : s.rxq.length < s.cfg.rxqCap
    · exact ⟨s.rxq ++ [b], s.fresh + 1, queueByte_room (s := { s with draws := s.draws + 1 }) h, .inr ⟨b, rfl, h⟩⟩
    · exact ⟨s.rxq, s.fresh, queueByte_full (s := { s with draws := s.draws + 1 }) (Nat.le_of_not_lt h), .inl rfl⟩

/-! ## A list of characters -/

/-- Characters are delivered one after another. -/
def deliverAll (as : List Arrival) (s : State) : State := as.foldl (fun s a => deliver a s) s

theorem deliverAll_cons (a : Arrival) (as : List Arrival) (s : State) :
    deliverAll (a :: as) s = deliverAll as (deliver a s) := rfl

/-- With the receiver enabled, characters that straddle no change of the lines are queued as far as there is room. -/
theorem deliverAll_queued {as : List Arrival} {s : State} (hr : s.rdis = false)
    (h : ∀ a ∈ as, straddles s a = false) :
    ∃ f, deliverAll as s = { enqueue (as.map fun a => a.byte) s with fresh := f } := by
  induction as generalizing s with
  | nil => exact ⟨s.fresh, (enqueue_nil s).symm⟩
  | cons a as ih =>
    obtain ⟨f₁, h₁⟩ := queueByte_enqueue a.byte s
    obtain ⟨f, hf⟩ := ih (s := { enqueue [a.byte] s with fresh := f₁ }) hr fun b hb => h b (List.mem_cons_of_mem a hb)
    rw [deliverAll_cons, deliver_queued (h a List.mem_cons_self) hr, h₁, hf]
    exact ⟨f, congrArg (fun t : State => { t with fresh := f }) (enqueue_enqueue [a.byte] (as.map fun a => a.byte) s)⟩

/-- With the receiver disabled, they are lost. -/
theorem deliverAll_lost {as : List Arrival} {s : State} (hr : s.rdis = true)
    (h : ∀ a ∈ as, straddles s a = false) : ∃ m, deliverAll as s = { s with missed := m } := by
  induction as generalizing s with
  | nil => exact ⟨s.missed, rfl⟩
  | cons a as ih =>
    rw [deliverAll_cons, deliver_lost (h a List.mem_cons_self) hr]
    exact ih (s := { s with missed := s.missed + 1 }) hr fun b hb => h b (List.mem_cons_of_mem a hb)

/-! ## A span of time -/

/-- On a bus in time order, the characters due before `t` are delivered and the others stay. -/
theorem deliverBefore_deliverAll (t : Nat) {as : List Arrival} (s : State)
    (ho : as.Pairwise fun a b => a.time ≤ b.time) :
    deliverBefore t as s = { deliverAll (as.filter fun a => decide (a.time < t)) s with
      arrivals := as.filter fun a => decide (t ≤ a.time) } := by
  induction as generalizing s with
  | nil => rfl
  | cons a as ih =>
    obtain ⟨ha, has⟩ := List.pairwise_cons.mp ho
    unfold deliverBefore
    split
    · next hlt =>
      rw [List.filter_cons_of_pos (by simpa using hlt), List.filter_cons_of_neg (by simpa using hlt), deliverAll_cons,
        ih _ has]
    · next hge =>
      have hlate : ∀ b ∈ a :: as, t ≤ b.time := by
        intro b hb
        rcases List.mem_cons.mp hb with rfl | hb
        · omega
        · have := ha b hb
          omega
      have hnone : (a :: as).filter (fun a => decide (a.time < t)) = [] := by
        simpa [List.filter_eq_nil_iff] using hlate
      have hall : (a :: as).filter (fun a => decide (t ≤ a.time)) = a :: as := by
        simpa only [List.filter_eq_self, decide_eq_true_eq] using hlate
      rw [hnone, hall]
      rfl

/-- Time that passes on a bus in time order. A span of no time delivers nothing, as no character is due in the past. -/
theorem elapse_deliverAll (n : Nat) {s : State} (h : CleanBus s) :
    ∃ f m, elapse n s = { deliverAll (s.arrivals.filter fun a => decide (a.time < s.clock + n)) s with
      arrivals := s.arrivals.filter fun a => decide (s.clock + n ≤ a.time)
      clock := s.clock + n, fresh := f, missed := m } := by
  have hb := deliverBefore_deliverAll (s.clock + n) s h.ordered
  by_cases hn : n = 0
  · subst hn
    have hnone : (s.arrivals.filter fun a => decide (a.time < s.clock + 0)) = [] := by
      simpa [List.filter_eq_nil_iff] using h.ahead
    have hall : (s.arrivals.filter fun a => decide (s.clock + 0 ≤ a.time)) = s.arrivals := by
      simpa [List.filter_eq_self] using h.ahead
    rw [hnone, hall]
    exact ⟨s.fresh, s.missed, rfl⟩
  · rw [elapse, if_neg hn, hb]
    exact ⟨0, 0, rfl⟩

theorem elapse_listening (n : Nat) {s : State} (h : CleanBus s) (hr : s.rdis = false) :
    ∃ f m, elapse n s = { listening n s with fresh := f, missed := m } := by
  obtain ⟨f, m, he⟩ := elapse_deliverAll n h
  obtain ⟨g, hd⟩ := deliverAll_queued hr fun a ha => h.whole a (List.mem_of_mem_filter ha)
  rw [he, hd]
  exact ⟨f, m, rfl⟩

theorem elapse_deaf (n : Nat) {s : State} (h : CleanBus s) (hr : s.rdis = true) :
    ∃ f m, elapse n s = { deaf n s with fresh := f, missed := m } := by
  obtain ⟨f, m, he⟩ := elapse_deliverAll n h
  obtain ⟨k, hd⟩ := deliverAll_lost hr fun a ha => h.whole a (List.mem_of_mem_filter ha)
  rw [he, hd]
  exact ⟨f, m, rfl⟩

/-- A step in which nothing is offered and no reset is due: a small step of the command in progress, or a tick. -/
theorem step_quiet {s : State} (hr : resetDue s = false) (ho : dueOffer s = none) :
    step s = if s.busy then phaseStep (quiet s) else .next (elapse 1 (quiet s)) := by
  rw [step, if_neg (by simp [hr]), ho]

/-- Settles O38: one delivery by its three cases; a delay, an idle step and a counting tick as spans of time. -/
theorem deliveryOfAByte : Obligations.DeliveryOfAByte := by
  refine ⟨fun s a hs => ⟨fun hr hroom => ?room, fun hr hfull => ?full, fun hr => ⟨_, deliver_lost hs hr⟩⟩,
    fun s T h => ⟨fun hr => ?listening, fun hr => ?deaf⟩,
    fun s h hr hreset hoffer => ⟨fun hb => ?idle, fun hb hp ht => ?counting⟩⟩
  case room => exact ⟨_, (deliver_queued hs hr).trans (queueByte_room hroom)⟩
  case full => exact (deliver_queued hs hr).trans (queueByte_full hfull)
  case listening =>
    obtain ⟨f, m, he⟩ := elapse_listening T.toNat h hr
    rw [delay, ← elapse_tmr, he]
    exact ⟨f, m, rfl⟩
  case deaf =>
    obtain ⟨f, m, he⟩ := elapse_deaf T.toNat h hr
    rw [delay, ← elapse_tmr, he]
    exact ⟨f, m, rfl⟩
  all_goals
    have hclean : CleanBus (quiet s) := ⟨h.ordered, h.ahead, h.whole⟩
    obtain ⟨f, m, he⟩ := elapse_listening 1 hclean hr
    rw [step_quiet hreset hoffer, hb]
  case idle => exact ⟨f, m, congrArg Host.Outcome.next he⟩
  case counting =>
    have hcounting : (quiet s).ph.counting := .inr (.inr hp)
    refine ⟨f, m, (phaseStep_counting hcounting ht).trans ?_⟩
    rw [timerTick_eq, he]
    rfl

/-! ## A reply frame -/

/-- A byte of a frame is delivered, and a command that waits for it may then end its wait. -/
theorem receiveByte_cases (b : Byte) (s : State) :
    receiveByte b s = deliver ⟨s.clock, s.clock, b⟩ s ∨
      rxGot (deliver ⟨s.clock, s.clock, b⟩ s) = .next (receiveByte b s) := by
  unfold receiveByte
  generalize deliver ⟨s.clock, s.clock, b⟩ s = u
  dsimp only
  split
  · split
    · exact .inl rfl
    · split
      · split
        · next t ht => exact .inr ht
        · exact .inl rfl
        · exact .inl rfl
      · exact .inl rfl
  · exact .inl rfl

/-- The parts of the state that no reception changes: what is transmitted, the lines, the time and the parameters. -/
structure SendSide where
  txbuf : Frame8
  txd : List Byte
  de : Bool
  rdis : Bool
  clock : Nat
  cfg : Config

def sendSide (s : State) : SendSide := ⟨s.txbuf, s.txd, s.de, s.rdis, s.clock, s.cfg⟩

theorem sendSide_deliver (a : Arrival) (s : State) : sendSide (deliver a s) = sendSide s := by
  obtain ⟨q, f, m, d, h, -⟩ := deliver_eq a s
  rw [h]
  rfl

theorem sendSide_readGot (a : Byte) (s : State) : sendSide (readGot a s).2 = sendSide s := by
  obtain ⟨q, x, f, c, ok, es, v, h, -⟩ := readGot_frame a s
  rw [h]
  rfl

theorem sendSide_afterAttempt (r : BitVec 3) (s : State) : sendSide (afterAttempt r s) = sendSide s := by
  unfold afterAttempt
  split
  · rfl
  · split <;> rfl

theorem sendSide_rxGot {s t : State} (h : rxGot s = .next t) : sendSide t = sendSide s := by
  unfold rxGot at h
  split at h
  · cases h; rfl
  · split at h <;> cases h
    rfl
  · cases h; exact sendSide_readGot s.addr s
  · cases h; exact (sendSide_afterAttempt _ _).trans (sendSide_readGot s.addr s)
  · cases h

theorem sendSide_receiveByte (b : Byte) (s : State) : sendSide (receiveByte b s) = sendSide s := by
  have hd := sendSide_deliver ⟨s.clock, s.clock, b⟩ s
  rcases receiveByte_cases b s with h | h
  · rw [h, hd]
  · rw [sendSide_rxGot h, hd]

theorem sendSide_receiveBytes (bs : List Byte) (s : State) :
    sendSide (bs.foldl (fun s b => receiveByte b s) s) = sendSide s := by
  induction bs generalizing s with
  | nil => rfl
  | cons b bs ih => exact (ih _).trans (sendSide_receiveByte b s)

/-- Bytes that no command waits for are delivered as characters of the present tick. -/
theorem receiveBytes_deliverAll (bs : List Byte) {s : State} (hw : s.busy = false ∨ s.ph ≠ .rxWait) :
    bs.foldl (fun s b => receiveByte b s) s = deliverAll (bs.map fun b => ⟨s.clock, s.clock, b⟩) s := by
  induction bs generalizing s with
  | nil => rfl
  | cons b bs ih =>
    obtain ⟨q, f, m, d, hd, -⟩ := deliver_eq ⟨s.clock, s.clock, b⟩ s
    have hb : receiveByte b s = deliver ⟨s.clock, s.clock, b⟩ s := by
      unfold receiveByte
      rw [hd]
      exact if_neg (by rcases hw with h | h <;> simp [h])
    rw [List.map_cons, deliverAll_cons, List.foldl_cons, hb, hd]
    exact ih (s := { s with rxq := q, fresh := f, missed := m, draws := d }) hw

/-- A character that starts and ends in the present tick straddles no change of the lines if there is none in this tick. -/
theorem straddles_present {s : State} (b : Byte) (hd : s.dirAt ≠ some s.clock)
    (ht : s.rdis = true ∨ s.clock ∉ s.turns) : straddles s ⟨s.clock, s.clock, b⟩ = false := by
  have hlast : straddlesAt s.dirAt ⟨s.clock, s.clock, b⟩ = false := by
    cases hc : s.dirAt with
    | none => rfl
    | some c =>
      have hne : s.clock ≠ c := fun h => hd (by rw [hc, h])
      simp [straddlesAt, hne]
  rcases ht with ht | ht <;> simp [straddles, hlast, ht]

/-- Settles O49: a frame that no command waits for is a list of characters of the present tick, none of which straddles a
change of the lines. -/
theorem replyFrameIsDelivered : Obligations.ReplyFrameIsDelivered := by
  intro s a n d e l h
  have hexec : exec (.replyFrame a n d e l h) s =
      .next ([a, 0x03, n, d, e, l, h].foldl (fun s b => receiveByte b s) s) := rfl
  rw [hexec]
  generalize [a, 0x03, n, d, e, l, h] = bs
  have hbytes : (bs.map fun b => (⟨s.clock, s.clock, b⟩ : Arrival)).map (fun a => a.byte) = bs :=
    List.map_map.trans (List.map_id bs)
  refine ⟨⟨_, rfl, ?_⟩, fun hdir hturn hr hw => ?_, fun hdir hr hw => ?_⟩
  · simpa only [sendSide, SendSide.mk.injEq] using sendSide_receiveBytes bs s
  · obtain ⟨f, hf⟩ := deliverAll_queued (as := bs.map fun b => ⟨s.clock, s.clock, b⟩) hr
      (List.forall_mem_map.mpr fun b _ => straddles_present b hdir (.inr hturn))
    rw [receiveBytes_deliverAll bs hw, hf, hbytes]
    exact ⟨f, rfl⟩
  · obtain ⟨m, hm⟩ := deliverAll_lost (as := bs.map fun b => ⟨s.clock, s.clock, b⟩) hr
      (List.forall_mem_map.mpr fun b _ => straddles_present b hdir (.inl hr))
    rw [receiveBytes_deliverAll bs hw, hm]
    exact ⟨m, rfl⟩

end Sys2Proof.Machine

/-! # The encoding: the decoder and the encoder are inverse to each other (`30_encoding.md` R91 to R108)

The words of the three formats are the packings of their fields, and a match under a mask fixes one field. From these,
`decode_ok_iff` says once which bits decode to an instruction: those the encoder writes for it. -/
namespace Sys2Proof.Machine

/-! ## Fields and masks -/

/-- Under the mask of one field, a word matches by the value of that field. -/
theorem and_fieldMask_eq_iff {n k : Nat} (w : BitVec n) (start : Nat) (m : BitVec k) (h : start + k ≤ n) :
    w &&& (BitVec.allOnes k).setWidth n <<< start = m.setWidth n <<< start ↔ w.extractLsb' start k = m := by
  have bit (i : Nat) (v : BitVec k) : (v.setWidth n <<< start).getLsbD (start + i) = v.getLsbD i := by
    by_cases hi : i < k
    · simp [hi, show start + i < n by omega]
    · simp [BitVec.getLsbD_of_ge v i (by omega)]
  constructor
  · intro he
    refine BitVec.eq_of_getLsbD_eq fun i hi => ?_
    have hb := congrArg (fun v => v.getLsbD (start + i)) he
    simpa [bit, BitVec.getLsbD_and, hi] using hb
  · rintro rfl
    refine BitVec.eq_of_getLsbD_eq fun j hj => ?_
    by_cases hs : j < start
    · simp [hs]
    · obtain ⟨i, rfl⟩ := Nat.exists_eq_add_of_le (Nat.le_of_not_lt hs)
      rw [BitVec.getLsbD_and, bit, bit]
      simp [BitVec.getLsbD_allOnes, Bool.and_comm]

@[simp] theorem commandWord_opField (op idx : BitVec 4) (arg : Byte) :
    (commandWord op idx arg).extractLsb' 12 4 = op := by
  unfold commandWord
  simp (disch := decide) only [BitVec.extractLsb'_append_eq_of_le, BitVec.extractLsb'_eq_self, Nat.reduceSub]

@[simp] theorem commandWord_idxField (op idx : BitVec 4) (arg : Byte) :
    (commandWord op idx arg).extractLsb' 8 4 = idx := by
  unfold commandWord
  simp (disch := decide) only [BitVec.extractLsb'_append_eq_of_le, BitVec.extractLsb'_append_eq_of_add_le,
    BitVec.extractLsb'_eq_self, Nat.reduceSub]

@[simp] theorem commandWord_argField (op idx : BitVec 4) (arg : Byte) :
    (commandWord op idx arg).extractLsb' 0 8 = arg :=
  BitVec.extractLsb'_append_eq_right (a := op ++ idx)

/-- Every word is the packing of its three fields. -/
theorem commandWord_fields (w : BitVec 16) :
    commandWord (w.extractLsb' 12 4) (w.extractLsb' 8 4) (w.extractLsb' 0 8) = w := by
  simp (disch := rfl) only [commandWord, BitVec.extractLsb'_append_extractLsb'_eq_extractLsb']
  exact BitVec.extractLsb'_eq_self

theorem exists_commandWord (w : BitVec 16) : ∃ op idx arg, w = commandWord op idx arg :=
  ⟨_, _, _, (commandWord_fields w).symm⟩

theorem append_eq_append_iff {v w : Nat} {x x' : BitVec v} {y y' : BitVec w} :
    x ++ y = x' ++ y' ↔ x = x' ∧ y = y' := by
  refine ⟨fun h => ?_, by rintro ⟨rfl, rfl⟩; rfl⟩
  have hx := congrArg (fun z => z.extractLsb' w v) h
  have hy := congrArg (fun z => z.extractLsb' 0 w) h
  simp only [BitVec.extractLsb'_append_eq_left, BitVec.extractLsb'_append_eq_right] at hx hy
  exact ⟨hx, hy⟩

/-- A field of a field. -/
theorem extractLsb'_extractLsb' {n start len start' len' : Nat} (x : BitVec n) (h : start' + len' ≤ len) :
    (x.extractLsb' start len).extractLsb' start' len' = x.extractLsb' (start + start') len' := by
  ext k hk
  simp [Nat.add_assoc, show start' + k < len by omega]

/-- A word is known by its three fields. -/
theorem commandWord_eq_iff {op idx : BitVec 4} {arg : Byte} {w : BitVec 16} :
    commandWord op idx arg = w ↔ op = w.extractLsb' 12 4 ∧ idx = w.extractLsb' 8 4 ∧ arg = w.extractLsb' 0 8 := by
  constructor
  · rintro rfl
    simp
  · rintro ⟨rfl, rfl, rfl⟩
    exact commandWord_fields w

theorem commandWord_inj {op op' idx idx' : BitVec 4} {arg arg' : Byte} :
    commandWord op idx arg = commandWord op' idx' arg' ↔ op = op' ∧ idx = idx' ∧ arg = arg' := by
  simp only [commandWord_eq_iff, commandWord_opField, commandWord_idxField, commandWord_argField]

/-- An index up to 7 has bit 3 clear and is its three low bits. -/
theorem index_lt_eight_iff (i x : BitVec 4) :
    (i = x ∧ i.toNat < 8) ↔ x.extractLsb' 3 1 = 0 ∧ i = (x.extractLsb' 0 3).zeroExtend 4 := by
  revert i x
  decide

/-! ## The bytes of a frame -/

@[simp] theorem packQ_bytesOfQ (f : BitVec 64) : packQ (bytesOfQ f) = f := by
  simp (disch := rfl) only [packQ, bytesOfQ, Vector.getElem_mk, List.getElem_toArray, List.getElem_cons_zero,
    List.getElem_cons_succ, BitVec.extractLsb'_append_extractLsb'_eq_extractLsb']
  exact BitVec.extractLsb'_eq_self

/-- The fields of a request frame (`30_encoding.md` R92). -/
theorem bytesOfQ_requestFrame (a l h : Byte) : bytesOfQ (a ++ 0x0300000001#40 ++ l ++ h) = requestBytes a l h := by
  unfold bytesOfQ
  simp (disch := decide) only [BitVec.extractLsb'_append_eq_of_le, BitVec.extractLsb'_append_eq_of_add_le,
    BitVec.extractLsb'_eq_self, Nat.reduceSub]
  rfl

/-! ## The decoder -/

/-- The instructions that some bits decode to: of all terms only an LDTX with an index above 7 has none
(`30_encoding.md` R108). A request frame may hold any CRC bytes. -/
def Listed : Instr → Prop
  | .ldtx i _ => i.toNat < 8
  | _ => True

theorem listed_of_wellFormed {i : Instr} (h : i.wellFormed = true) : Listed i := by
  cases i with
  | ldtx k b => simpa [Listed, Instr.wellFormed] using h
  | _ => trivial

@[simp] theorem decodeBare_ok {idx : BitVec 4} {arg : Byte} {i j : Instr} :
    decodeBare idx arg i = .ok j ↔ idx = 0 ∧ arg = 0 ∧ i = j := by
  unfold decodeBare
  split <;> simp_all

@[simp] theorem decodeArg_ok {idx : BitVec 4} {i j : Instr} : decodeArg idx i = .ok j ↔ idx = 0 ∧ i = j := by
  unfold decodeArg
  split <;> simp_all

/-- A command with no operand is written with its `OP` alone. -/
theorem encode_of_decodeBare {op idx : BitVec 4} {arg : Byte} {i j : Instr} (h : decodeBare idx arg i = .ok j)
    (hi : encode i = .command (commandWord op 0 0) ∧ Listed i) :
    encode j = .command (commandWord op idx arg) ∧ Listed j := by
  obtain ⟨rfl, rfl, rfl⟩ := decodeBare_ok.mp h
  exact hi

/-- A command with the operand `ARG` is written with its `OP` and that operand. -/
theorem encode_of_decodeArg {op idx : BitVec 4} {arg : Byte} {i j : Instr} (h : decodeArg idx i = .ok j)
    (hi : encode i = .command (commandWord op 0 arg) ∧ Listed i) :
    encode j = .command (commandWord op idx arg) ∧ Listed j := by
  obtain ⟨rfl, rfl⟩ := decodeArg_ok.mp h
  exact hi

theorem eq_ofNat_of_toNat {op : BitVec 4} {n : Nat} (h : op.toNat = n) : op = BitVec.ofNat 4 n := by
  simp [← h]

/-- What a command word decodes to is written with the same three fields. -/
theorem encode_of_decodeCommand {w : BitVec 16} {i : Instr} (h : decodeCommand w = .ok i) :
    encode i = .command w ∧ Listed i := by
  obtain ⟨op, idx, arg, rfl⟩ := exists_commandWord w
  simp only [decodeCommand, commandWord_opField, commandWord_idxField, commandWord_argField] at h
  split at h
  case h_1 hop | h_2 hop | h_5 hop | h_7 hop | h_8 hop | h_10 hop | h_11 hop | h_12 hop =>
    cases eq_ofNat_of_toNat hop
    exact encode_of_decodeBare h ⟨rfl, trivial⟩
  case h_3 hop | h_4 hop | h_9 hop =>
    cases eq_ofNat_of_toNat hop
    exact encode_of_decodeArg h ⟨rfl, trivial⟩
  case h_6 hop =>
    cases eq_ofNat_of_toNat hop
    split at h
    · next hidx =>
      obtain rfl := Except.ok.inj h
      exact ⟨rfl, hidx⟩
    · cases h
  case h_13 hop | h_14 hop | h_15 hop =>
    cases eq_ofNat_of_toNat hop
    cases h
    exact ⟨rfl, trivial⟩
  case h_16 =>
    have hlt : op.toNat < 16 := op.isLt
    have hop : op.toNat = 15 := by
      simp only [imp_false] at *
      omega
    cases eq_ofNat_of_toNat hop
    cases h
    exact ⟨rfl, trivial⟩

theorem decodeRequest_ok_iff {f : BitVec 64} {i : Instr} :
    decodeRequest f = .ok i ↔ f.extractLsb' 16 40 = 0x0300000001#40 ∧
      i = .requestFrame (f.extractLsb' 56 8) (f.extractLsb' 8 8) (f.extractLsb' 0 8) := by
  unfold decodeRequest
  split
  · next hm => simp [hm, eq_comm]
  · next hm => simp [hm]

theorem decodeReplyFrame_ok_iff {f : BitVec 56} {i : Instr} :
    decodeReplyFrame f = .ok i ↔ f.extractLsb' 40 8 = 0x03#8 ∧
      i = .replyFrame (f.extractLsb' 48 8) (f.extractLsb' 32 8) (f.extractLsb' 24 8) (f.extractLsb' 16 8)
        (f.extractLsb' 8 8) (f.extractLsb' 0 8) := by
  unfold decodeReplyFrame
  split
  · next hm => simp [hm, eq_comm]
  · next hm => simp [hm]

/-- What eight bytes decode to is written with the same bytes. -/
theorem encode_of_decodeRequest {f : BitVec 64} {i : Instr} (h : decodeRequest f = .ok i) :
    encode i = .request f ∧ Listed i := by
  obtain ⟨hm, rfl⟩ := decodeRequest_ok_iff.mp h
  refine ⟨congrArg Raw.request ?_, trivial⟩
  simp (disch := rfl) only [← hm, BitVec.extractLsb'_append_extractLsb'_eq_extractLsb']
  exact BitVec.extractLsb'_eq_self

/-- What seven bytes decode to is written with the same bytes. -/
theorem encode_of_decodeReplyFrame {f : BitVec 56} {i : Instr} (h : decodeReplyFrame f = .ok i) :
    encode i = .reply f ∧ Listed i := by
  obtain ⟨hm, rfl⟩ := decodeReplyFrame_ok_iff.mp h
  refine ⟨congrArg Raw.reply ?_, trivial⟩
  simp (disch := rfl) only [← hm, BitVec.extractLsb'_append_extractLsb'_eq_extractLsb']
  exact BitVec.extractLsb'_eq_self

theorem decode_encode {i : Instr} (h : Listed i) : decode (encode i) = .ok i := by
  cases i with
  | requestFrame a l h =>
    simp (disch := decide) only [encode, decode, decodeRequest, BitVec.extractLsb'_append_eq_of_le,
      BitVec.extractLsb'_append_eq_of_add_le, BitVec.extractLsb'_eq_self, Nat.reduceSub]
    rfl
  | replyFrame a n d e l h =>
    simp (disch := decide) only [encode, decode, decodeReplyFrame, BitVec.extractLsb'_append_eq_of_le,
      BitVec.extractLsb'_append_eq_of_add_le, BitVec.extractLsb'_eq_self, Nat.reduceSub]
    rfl
  | ldtx k b =>
    have hk : k.toNat < 8 := h
    simp [encode, decode, decodeCommand, hk]
  | _ => simp [encode, decode, decodeCommand]

/-- Which bits decode to an instruction: exactly those the encoder writes for it. -/
theorem decode_ok_iff {r : Raw} {i : Instr} : decode r = .ok i ↔ encode i = r ∧ Listed i := by
  refine ⟨fun h => ?_, by rintro ⟨rfl, hi⟩; exact decode_encode hi⟩
  cases r with
  | command w => exact encode_of_decodeCommand h
  | request f => exact encode_of_decodeRequest h
  | reply f => exact encode_of_decodeReplyFrame h

/-- Settles O1: a well-formed instruction is listed, and the decoder reads what the encoder writes of such a one. -/
theorem decodeOfEncode : Obligations.DecodeOfEncode := fun _ h => decode_encode (listed_of_wellFormed h)

/-- Settles O2: the bits that decode to `i` are those the encoder writes (`decode_ok_iff`). -/
theorem encodeOfDecode : Obligations.EncodeOfDecode := fun _ _ h => (decode_ok_iff.mp h).1

/-! ## Command words -/

theorem decodeCommand_ok_iff {w : BitVec 16} {i : Instr} : decodeCommand w = .ok i ↔ encode i = .command w ∧ Listed i :=
  decode_ok_iff (r := .command w)

/-- A command with no operand: the whole word is its match. -/
theorem decodeCommand_bare_iff {w : BitVec 16} {i : Instr} (op : BitVec 4) (he : encode i = .command (commandWord op 0 0))
    (hl : Listed i) : decodeCommand w = .ok i ↔ w &&& 0xFFFF#16 = commandWord op 0 0 := by
  have hmask : w &&& 0xFFFF#16 = w := BitVec.and_allOnes
  rw [decodeCommand_ok_iff, he, Raw.command.injEq, hmask, and_iff_left hl, eq_comm]

/-- A command with the operand `ARG`: the high byte is its match, the low byte the operand. -/
theorem decodeCommand_arg_iff {w : BitVec 16} {b : Byte} {i : Instr} (op : BitVec 4)
    (he : encode i = .command (commandWord op 0 b)) (hl : Listed i) :
    decodeCommand w = .ok i ↔ w &&& 0xFF00#16 = (op ++ 0#4).setWidth 16 <<< 8 ∧ b = w.extractLsb' 0 8 := by
  have hmask : w &&& 0xFF00#16 = (op ++ 0#4).setWidth 16 <<< 8 ↔ w.extractLsb' 8 8 = op ++ 0#4 :=
    and_fieldMask_eq_iff w 8 (op ++ 0#4) (by decide)
  have hsplit : w.extractLsb' 8 8 = w.extractLsb' 12 4 ++ w.extractLsb' 8 4 :=
    (BitVec.extractLsb'_append_extractLsb'_eq_extractLsb' (start₁ := 8) (len₁ := 4) (len₂ := 4) rfl).symm
  rw [decodeCommand_ok_iff, he, Raw.command.injEq, and_iff_left hl, commandWord_eq_iff, hmask, hsplit,
    append_eq_append_iff, and_assoc, eq_comm (a := op), eq_comm (a := 0)]
  rfl

/-- LDTX: the five high bits are its match, with the index and the byte below them. -/
theorem decodeCommand_ldtx_iff {w : BitVec 16} {i : BitVec 4} {b : Byte} :
    decodeCommand w = .ok (.ldtx i b) ↔
      w &&& 0xF800#16 = 0x5000 ∧ i = (w.extractLsb' 8 3).zeroExtend 4 ∧ b = w.extractLsb' 0 8 := by
  have hmask : w &&& 0xF800#16 = 0x5000 ↔ w.extractLsb' 11 5 = 5#4 ++ 0#1 :=
    and_fieldMask_eq_iff w 11 (5#4 ++ 0#1) (by decide)
  have hsplit : w.extractLsb' 11 5 = w.extractLsb' 12 4 ++ w.extractLsb' 11 1 :=
    (BitVec.extractLsb'_append_extractLsb'_eq_extractLsb' (start₁ := 11) (len₁ := 1) (len₂ := 4) rfl).symm
  have hindex := index_lt_eight_iff i (w.extractLsb' 8 4)
  rw [extractLsb'_extractLsb' _ (by decide), extractLsb'_extractLsb' _ (by decide)] at hindex
  rw [decodeCommand_ok_iff, hmask, hsplit, append_eq_append_iff]
  simp only [encode, Listed, Raw.command.injEq, commandWord_eq_iff]
  constructor
  · rintro ⟨⟨hop, hidx, harg⟩, hlt⟩
    obtain ⟨hbit, hi⟩ := hindex.mp ⟨hidx, hlt⟩
    exact ⟨⟨hop.symm, hbit⟩, hi, harg⟩
  · rintro ⟨⟨hop, hbit⟩, hi, harg⟩
    obtain ⟨hidx, hlt⟩ := hindex.mpr ⟨hbit, hi⟩
    exact ⟨⟨hop.symm, hidx, harg⟩, hlt⟩

/-- Where the masks of two patterns both look, their matches differ. -/
theorem patterns_disjoint : ∀ p ∈ commandPatterns, ∀ p' ∈ commandPatterns, p.1 &&& p'.2 = p'.1 &&& p.2 → p = p' := by
  simp [commandPatterns]

/-- No word selects two patterns. -/
theorem selects_unique {w : BitVec 16} {p p' : BitVec 16 × BitVec 16} (hp : p ∈ commandPatterns)
    (hp' : p' ∈ commandPatterns) (h : selects w p) (h' : selects w p') : p = p' :=
  patterns_disjoint p hp p' hp' <| by
    rw [← (show w &&& p.2 = p.1 from h), ← (show w &&& p'.2 = p'.1 from h')]
    ac_rfl

/-! ## Words that are no command -/

theorem runRaw_exec {r : Raw} {i : Instr} {s : State} (hd : decode r = .ok i)
    (hp : byPhases s = true → beginPhases i s = none) : runRaw r s = exec i s := by
  rw [runRaw, hd]
  cases hb : byPhases s with
  | false => rfl
  | true => simp [hp hb]

theorem runRaw_commandLevel {r : Raw} {i : Instr} {s : State} (hd : decode r = .ok i) (hp : byPhases s = false) :
    runRaw r s = exec i s :=
  runRaw_exec hd (by simp [hp])

theorem runRaw_begin {r : Raw} {i : Instr} {s t : State} (hd : decode r = .ok i) (hp : byPhases s = true)
    (ht : beginPhases i s = some t) : runRaw r s = .next t := by
  simp [runRaw, hd, hp, ht]

/-- A word the decoder rejects has the outcome of an illegal command, at both levels (`30_encoding.md` R108). -/
theorem runRaw_rejected {w : BitVec 16} {e : Reject} {s : State} (hd : decodeCommand w = .error e) (hb : s.busy = false) :
    runRaw (.command w) s = .next (illegalOutcome (w.extractLsb' 12 4) (w.extractLsb' 8 4) (w.extractLsb' 0 8) s) := by
  rw [← illegal_eq hb, runRaw, show decode (.command w) = .error e from hd]
  cases byPhases s <;> rfl

/-- A word that selects no pattern is rejected or has a reserved `OP`. -/
theorem runRaw_unselected {w : BitVec 16} {s : State} (hw : ∀ p ∈ commandPatterns, ¬ selects w p) (hb : s.busy = false) :
    runRaw (.command w) s = .next (illegalOutcome (w.extractLsb' 12 4) (w.extractLsb' 8 4) (w.extractLsb' 0 8) s) := by
  cases hd : decodeCommand w with
  | error e => exact runRaw_rejected hd hb
  | ok i =>
    obtain ⟨he, hl⟩ := decodeCommand_ok_iff.mp hd
    cases i with
    | reservedC idx arg | reservedD idx arg | reservedE idx arg | reservedF idx arg =>
      cases he
      rw [runRaw_exec (r := .command _) hd fun _ => rfl]
      simp only [commandWord_opField, commandWord_idxField, commandWord_argField]
      exact illegal_eq hb
    | requestFrame a l h | replyFrame a n d e l h => cases he
    | ldtx k b => exact absurd (decodeCommand_ldtx_iff.mp hd).1 (hw (0x5000, 0xF800) (by decide))
    | crcByte b | encode b | probe b =>
      exact absurd ((decodeCommand_arg_iff _ rfl hl).mp hd).1 (hw (_, 0xFF00) (by decide))
    | _ => exact absurd ((decodeCommand_bare_iff _ rfl hl).mp hd) (hw (_, 0xFFFF) (by decide))

/-- Settles O3: the clause of each command by its shape, then what no two patterns share and what none of them selects. -/
theorem commandWordTable : Obligations.CommandWordTable := fun _ =>
  ⟨decodeCommand_bare_iff 0x0 rfl trivial, decodeCommand_bare_iff 0x1 rfl trivial,
    fun _ => decodeCommand_arg_iff 0x2 rfl trivial, fun _ => decodeCommand_arg_iff 0x3 rfl trivial,
    decodeCommand_bare_iff 0x4 rfl trivial, fun _ _ => decodeCommand_ldtx_iff,
    decodeCommand_bare_iff 0x6 rfl trivial, decodeCommand_bare_iff 0x7 rfl trivial,
    fun _ => decodeCommand_arg_iff 0x8 rfl trivial, decodeCommand_bare_iff 0x9 rfl trivial,
    decodeCommand_bare_iff 0xA rfl trivial, decodeCommand_bare_iff 0xB rfl trivial,
    fun _ hp _ hp' => selects_unique hp hp', fun hw _ hb => runRaw_unselected hw hb⟩

/-- A command that decodes has its reserved fields at 0 (`30_encoding.md` R108). -/
theorem not_reservedFieldSet_of_decode {op idx : BitVec 4} {arg : Byte} {i : Instr}
    (h : decodeCommand (commandWord op idx arg) = .ok i) : ¬ reservedFieldSet op idx arg := by
  obtain ⟨he, hl⟩ := decodeCommand_ok_iff.mp h
  cases i with
  | requestFrame a l h | replyFrame a n d e l h => cases he
  | ldtx k b =>
    obtain ⟨rfl, rfl, -⟩ := commandWord_inj.mp (Raw.command.inj he)
    simpa using Nat.le_of_lt_succ hl
  | _ =>
    obtain ⟨rfl, rfl, rfl⟩ := commandWord_inj.mp (Raw.command.inj he)
    simp

/-- A word with a reserved field set has the illegal outcome: it is rejected. -/
theorem runRaw_reservedFieldSet {op idx : BitVec 4} {arg : Byte} {s : State} (hr : reservedFieldSet op idx arg)
    (hb : s.busy = false) : runRaw (.command (commandWord op idx arg)) s = .next (illegalOutcome op idx arg s) := by
  cases hd : decodeCommand (commandWord op idx arg) with
  | ok i => exact absurd hr (not_reservedFieldSet_of_decode hd)
  | error e => simpa using runRaw_rejected hd hb

/-- Settles O10, with the outcome written out. -/
theorem nonzeroReservedFields : Obligations.NonzeroReservedFields := fun _ _ _ _ hb hr => runRaw_reservedFieldSet hr hb

/-- Settles O9: a reserved operation that is taken has the illegal outcome (`illegal_eq`). -/
theorem reservedOperations : Obligations.ReservedOperations := fun _ _ _ hb =>
  ⟨illegal_eq hb, illegal_eq hb, illegal_eq hb, illegal_eq hb⟩

/-- Settles O6, by running the decoder on each word. -/
theorem sampleWordsDecode : Obligations.SampleWordsDecode := by
  unfold Obligations.SampleWordsDecode
  decide

/-! ## Frames -/

/-- The request to `a` as 64 bits. -/
theorem packQ_requestBytes (a l h : Byte) : packQ (requestBytes a l h) = a ++ 0x0300000001#40 ++ l ++ h := by
  rw [← bytesOfQ_requestFrame, packQ_bytesOfQ]

/-- The packed request to an address determines the address, its byte 0. -/
theorem packQ_request_inj {a b : Byte} (h : packQ (request a) = packQ (request b)) : a = b :=
  calc a = (packQ (request a)).extractLsb' 56 8 := (packQ_byte (request a) (i := 0) (by decide)).symm
    _ = (packQ (request b)).extractLsb' 56 8 := by rw [h]
    _ = b := packQ_byte (request b) (i := 0) (by decide)

/-- Settles O4: the mask is the one of the fixed 40 bits, and a well-formed frame has the CRC bytes of its address. -/
theorem requestFramePattern : Obligations.RequestFramePattern := by
  refine ⟨fun a => packQ_requestBytes _ _ _, fun f i => ?_, fun f => ⟨?_, ?_⟩, fun a b h => packQ_request_inj h⟩
  · exact decodeRequest_ok_iff.trans
      (and_congr_left' (and_fieldMask_eq_iff f 16 0x0300000001#40 (by decide)).symm)
  · rintro ⟨i, hd, hi⟩
    obtain ⟨he, -⟩ := decode_ok_iff.mp hd
    cases i with
    | requestFrame a l h =>
      obtain ⟨rfl, rfl⟩ : l = lo8 (requestCrc a) ∧ h = hi8 (requestCrc a) := by simpa [Instr.wellFormed] using hi
      exact ⟨a, (Raw.request.inj he).symm.trans (packQ_requestBytes _ _ _).symm⟩
    | _ => cases he
  · rintro ⟨a, rfl⟩
    exact ⟨.requestFrame a (lo8 (requestCrc a)) (hi8 (requestCrc a)),
      decode_ok_iff.mpr ⟨congrArg Raw.request (packQ_requestBytes _ _ _).symm, trivial⟩, by simp [Instr.wellFormed]⟩

/-- The reply decoder's success: address, function and, if it is enforced, the CRC (`41_frame_codec.md` R146). -/
theorem decodeReply_ok_iff {cfg : Config} {r : Frame7} {a : Byte} :
    (∃ v, decodeReply cfg r a = .ok v) ↔
      (r[0] = a ∧ r[1] = functionCode) ∧ (cfg.rspCrcEnforce = true → rspCrcMatches r = true) := by
  by_cases hm : r[0] = a ∧ r[1] = functionCode
  · rw [decodeReply, if_neg (by simp [hm])]
    cases cfg.rspCrcEnforce <;> cases rspCrcMatches r <;> simp [hm]
  · rw [decodeReply, if_pos (not_and_or.mp hm)]
    simp [hm]

/-- Two adjacent fields, each put in its place, are the two appended and put in the place of the lower one. -/
theorem setWidth_shiftLeft_or_append {v w n k : Nat} (x : BitVec v) (y : BitVec w) :
    x.setWidth n <<< (k + w) ||| y.setWidth n <<< k = (x ++ y).setWidth n <<< k := by
  refine BitVec.eq_of_getLsbD_eq fun i hi => ?_
  by_cases hk : i < k
  · simp [hk, show i < k + w by omega]
  · by_cases hw : i - k < w
    · simp [BitVec.getLsbD_append, hw, show i < k + w by omega]
    · simp [BitVec.getLsbD_append, hi, hk, hw, show ¬ i < k + w by omega, BitVec.getLsbD_of_ge y (i - k) (by omega),
        Nat.sub_sub]

/-- Settles O5: both masks are those of adjacent bytes, the function byte or the address with it. -/
theorem replyFramePattern : Obligations.ReplyFramePattern := by
  refine ⟨fun f i => ?_, fun f A cfg => ?_⟩
  · exact decodeReplyFrame_ok_iff.trans
      (and_congr_left' (and_fieldMask_eq_iff f 40 0x03#8 (by decide)).symm)
  · have hsplit : f.extractLsb' 40 16 = f.extractLsb' 48 8 ++ f.extractLsb' 40 8 :=
      (BitVec.extractLsb'_append_extractLsb'_eq_extractLsb' (start₁ := 40) (len₁ := 8) (len₂ := 8) rfl).symm
    refine decodeReply_ok_iff.trans (and_congr_left' (Iff.symm ?_))
    rw [show A.zeroExtend 56 <<< 48 ||| 0x03#56 <<< 40 = (A ++ 0x03#8).setWidth 56 <<< 40 from
      setWidth_shiftLeft_or_append A 0x03#8]
    refine (and_fieldMask_eq_iff f 40 (A ++ 0x03#8) (by decide)).trans ?_
    rw [hsplit]
    exact append_eq_append_iff

/-! ## A step -/

/-- What is offered is due once its time has come: a reply frame always, anything else while no command is in progress. -/
theorem dueOffer_eq {s : State} {o : Offer} {os : List Offer} (ho : s.offers = o :: os) (ht : o.time ≤ s.clock)
    (hb : s.busy = false ∨ ∃ f, o.raw = .reply f) : dueOffer s = some o.raw := by
  simp only [dueOffer, ho, if_pos ht]
  rcases hb with hb | ⟨f, hf⟩
  · cases o.raw <;> simp [hb]
  · simp [hf]

/-- A due offer is used up and its bits are run. -/
theorem step_offer {s : State} {o : Offer} {os : List Offer} (hr : resetDue s = false) (ho : s.offers = o :: os)
    (ht : o.time ≤ s.clock) (hb : s.busy = false ∨ ∃ f, o.raw = .reply f) :
    step s = runRaw o.raw { s with offers := os, done := false, shown := s.trace.length } := by
  rw [step, if_neg (by simp [hr]), dueOffer_eq ho ht hb]
  simp only [takeOffer, quiet, ho, List.tail_cons]

/-- Settles O7: a due offer is run (`step_offer`), by `exec` or up to its first phase. -/
theorem stepRunsTheDecodedInstruction : Obligations.StepRunsTheDecodedInstruction := by
  refine ⟨fun s o os i hr ho ht hb hd => ?_, fun s o os i f hr ho ht hf hd => ?_,
    fun s nbits w r i hr hb hp hw hd => ?_⟩
  · intro u
    rw [step_offer hr ho ht (.inl hb)]
    exact ⟨fun hp => runRaw_commandLevel hd hp, fun _ hn => runRaw_exec hd fun _ => hn,
      fun hp t ht => runRaw_begin hd hp ht⟩
  · rw [step_offer hr ho ht (.inr ⟨f, hf⟩)]
    obtain ⟨he, -⟩ := decode_ok_iff.mp hd
    rw [hf] at he
    cases i with
    | replyFrame a n d e l h => exact runRaw_exec hd fun _ => rfl
    | _ => cases he
  · have hs : s.withFetchWord nbits w = { s with offers := ⟨s.clock, r⟩ :: s.offers } := by
      rw [State.withFetchWord, hw]
    rw [hs]
    exact (step_offer (s := { s with offers := ⟨s.clock, r⟩ :: s.offers }) hr rfl le_rfl (.inl hb)).trans
      (runRaw_commandLevel hd hp)

/-! ## A request frame -/

/-- The transmit sequence as the whole of a command, with a serialiser that becomes idle (`42_direction_and_transmit.md`
R168, R169). -/
theorem conclude_sendFrame {s : State} (hi : Idles s) : ∃ T q d as,
    conclude (sendFrame s) = sentState s.op s.idx s.arg s.txbuf s.crc T q d as s ∧ TakesTime T s ∧
    (QuietTransmit T s → q = s.rxq ∧ as = s.arrivals.dropWhile fun a => decide (a.time < releaseTime T s)) := by
  obtain ⟨q₀, q, f, d, as, T, ht, hpass, -, hq₀, rfl, hT, has, hplan⟩ := transmit_ended s hi
  refine ⟨T, q, d, as, ?_, ⟨hT, hplan⟩, fun hQ => ⟨?_, has⟩⟩
  · rw [sendFrame_ended ht]; rfl
  · rw [hpass.lost rfl hQ.atStart, hq₀ hQ.settled]

/-- Settles O35: the frame is loaded and the command accepted, then the transmit sequence runs (`conclude_sendFrame`). -/
theorem requestFrameResult : Obligations.RequestFrameResult := by
  intro s a l h hb hi
  obtain ⟨T, q, d, as, hs, hT, hQ⟩ := conclude_sendFrame (s := accept 0x6 0 0 (loadFrame (requestBytes a l h) s)) hi
  exact ⟨T, q, d, as, (whenReady_idle hb).trans (congrArg Host.Outcome.next hs), hT,
    fun hq => hQ ⟨hq.ordered, hq.ahead, hq.atStart, hq.atRelease, hq.settled⟩⟩

end Sys2Proof.Machine

/-! # The CRC: a bit step is linear and injective, and what follows (`40_crc.md` R121 to R127)

`crcBit_getLsbD` gives a bit step bit by bit. From it, bit steps are linear over exclusive-or and injective, and `n` of them
shift out `n` low bits that are 0. The table form, the residue and the detection of an error follow for values and byte lists
of every kind, with no enumeration. -/
namespace Sys2Proof.Machine

/-! ## Bit steps -/

/-- A bit step, bit by bit: the next higher bit, with the polynomial's if the lowest bit is 1 (`40_crc.md` R121). -/
theorem crcBit_getLsbD (c : Word) (i : Nat) :
    (crcBit c).getLsbD i = (c.getLsbD (i + 1) ^^ (c.getLsbD 0 && crcPoly.getLsbD i)) := by
  unfold crcBit
  cases c.getLsbD 0 <;> simp [Nat.add_comm]

theorem crcBit_xor (x y : Word) : crcBit (x ^^^ y) = crcBit x ^^^ crcBit y := by
  refine BitVec.eq_of_getLsbD_eq fun i _ => ?_
  simp only [crcBit_getLsbD, BitVec.getLsbD_xor, Bool.and_xor_distrib_right, Bool.xor_assoc, Bool.xor_left_comm]

/-- The shift leaves the top bit 0, so after a bit step it is the lowest bit of before, and the others can be read off. -/
theorem crcBit_injective : Function.Injective crcBit := by
  intro x y h
  have hbit (i : Nat) := congrArg (fun c => c.getLsbD i) h
  simp only [crcBit_getLsbD] at hbit
  have hlow : x.getLsbD 0 = y.getLsbD 0 := by simpa [BitVec.getLsbD_of_ge, crcPoly] using hbit 15
  simp only [hlow, Bool.xor_left_inj] at hbit
  refine BitVec.eq_of_getLsbD_eq fun i _ => ?_
  cases i with
  | zero => exact hlow
  | succ i => exact hbit i

theorem crcBits_xor (n : Nat) (x y : Word) : crcBits n (x ^^^ y) = crcBits n x ^^^ crcBits n y := by
  induction n generalizing x y with
  | zero => rfl
  | succ n ih => rw [crcBits, crcBits, crcBits, crcBit_xor, ih]

theorem crcBits_injective (n : Nat) : Function.Injective (crcBits n) := by
  induction n with
  | zero => exact Function.injective_id
  | succ n ih => exact ih.comp crcBit_injective

@[simp] theorem crcBits_zero (n : Nat) : crcBits n 0 = 0 := by
  simpa using crcBits_xor n 0 0

theorem crcBits_add (m n : Nat) (c : Word) : crcBits (m + n) c = crcBits n (crcBits m c) := by
  induction m generalizing c with
  | zero => rw [Nat.zero_add, crcBits]
  | succ m ih => rw [Nat.succ_add, crcBits, crcBits, ih]

/-- Bit steps over low bits that are 0 only shift. -/
theorem crcBits_of_low_bits_zero {n : Nat} {c : Word} (h : ∀ i < n, c.getLsbD i = false) : crcBits n c = c >>> n := by
  induction n generalizing c with
  | zero => simp [crcBits]
  | succ n ih =>
    have hstep : crcBit c = c >>> 1 := if_neg (Bool.not_eq_true _ ▸ h 0 n.succ_pos)
    rw [crcBits, hstep, ih fun i hi => by simpa [Nat.add_comm] using h (i + 1) (by omega), Nat.add_comm,
      BitVec.shiftRight_add]

/-! ## Byte steps -/

theorem crcStep_eq_iff {c c' : Word} {b b' : Byte} :
    crcStep c b = crcStep c' b' ↔ c ^^^ b.zeroExtend 16 = c' ^^^ b'.zeroExtend 16 :=
  (crcBits_injective 8).eq_iff

theorem crcStep_left_injective (b : Byte) : Function.Injective fun c => crcStep c b :=
  fun _ _ h => (BitVec.xor_left_inj _).mp (crcStep_eq_iff.mp h)

theorem crcStep_right_injective (c : Word) : Function.Injective (crcStep c) := fun b b' h => by
  have hb : b.zeroExtend 16 = b'.zeroExtend 16 := (BitVec.xor_right_inj _).mp (crcStep_eq_iff.mp h)
  simpa using congrArg (BitVec.setWidth 8) hb

/-- Settles O14: the byte goes in by exclusive-or, and bit steps are linear (`crcBits_xor`). -/
theorem crcIsLinear : Obligations.CrcIsLinear := by
  intro c₁ c₂ b₁ b₂
  have hb : (b₁ ^^^ b₂).zeroExtend 16 = b₁.zeroExtend 16 ^^^ b₂.zeroExtend 16 := BitVec.setWidth_xor
  rw [crcStep, crcStep, crcStep, ← crcBits_xor, hb]
  ac_rfl

/-! ## The two bytes of a word -/

theorem u16_hi8_lo8 (c : Word) : u16 (hi8 c) (lo8 c) = c :=
  (BitVec.extractLsb'_append_extractLsb'_eq_extractLsb' (start₁ := 0) (len₁ := 8) (len₂ := 8) rfl).trans
    BitVec.extractLsb'_eq_self

theorem u16_eq_xor (h l : Byte) : u16 h l = h.zeroExtend 16 <<< 8 ^^^ l.zeroExtend 16 := by
  refine BitVec.eq_of_getLsbD_eq fun i hi => ?_
  rw [u16, BitVec.getLsbD_append]
  by_cases hl : i < 8
  · simp [hl, hi]
  · simp [hl, hi, BitVec.getLsbD_of_ge l i (by omega)]

/-- The high byte of a value is what a shift by 8 leaves, whatever is put into the low byte. -/
theorem hi8_xor_byte (c : Word) (b : Byte) : (hi8 (c ^^^ b.zeroExtend 16)).zeroExtend 16 = c >>> 8 := by
  refine BitVec.eq_of_getLsbD_eq fun i hi => ?_
  by_cases hl : i < 8
  · simp [hi8, hl, hi]
  · simp [hi8, hl, BitVec.getLsbD_of_ge c (8 + i) (by omega)]

/-- Eight bit steps bring a high byte down. -/
theorem crcBits_highByte (h : Byte) : crcBits 8 (h.zeroExtend 16 <<< 8) = h.zeroExtend 16 := by
  rw [crcBits_of_low_bits_zero fun i hi => by simp [hi]]
  refine BitVec.eq_of_getLsbD_eq fun i hi => ?_
  by_cases hl : i < 8
  · simp [hi, show 8 + i < 16 by omega]
  · simp [BitVec.getLsbD_of_ge h i (by omega)]

/-- Eight bit steps bring the high byte down and look the low byte up. -/
theorem crcBits_eight (x : Word) : crcBits 8 x = (hi8 x).zeroExtend 16 ^^^ crcStep 0 (lo8 x) :=
  calc crcBits 8 x = crcBits 8 (u16 (hi8 x) (lo8 x)) := by rw [u16_hi8_lo8]
    _ = (hi8 x).zeroExtend 16 ^^^ crcBits 8 ((lo8 x).zeroExtend 16) := by rw [u16_eq_xor, crcBits_xor, crcBits_highByte]
    _ = (hi8 x).zeroExtend 16 ^^^ crcStep 0 (lo8 x) := by simp [crcStep]

/-- Settles O13: the byte goes into the low byte, which is looked up; the high byte is that of `c` (`crcBits_eight`). -/
theorem crcTableForm : Obligations.CrcTableForm := fun c b => by
  rw [crcStep, crcBits_eight, hi8_xor_byte]

/-- Two bytes, low byte first, go in like a word by sixteen bit steps: the first eight bring the second byte down. -/
theorem crcStep_crcStep (c : Word) (l h : Byte) : crcStep (crcStep c l) h = crcBits 16 (c ^^^ u16 h l) :=
  calc crcStep (crcStep c l) h
    _ = crcBits 8 (crcBits 8 (c ^^^ l.zeroExtend 16) ^^^ crcBits 8 (h.zeroExtend 16 <<< 8)) := by
      rw [crcBits_highByte, crcStep, crcStep]
    _ = crcBits 16 (c ^^^ u16 h l) := by
      rw [← crcBits_xor, ← crcBits_add, u16_eq_xor]
      ac_rfl

/-! ## Byte lists -/

/-- A list followed by two bytes has CRC 0 exactly if they are its CRC, low byte first (`40_crc.md` R126 (d)). -/
theorem crc16_append_eq_zero_iff {s : List Byte} {l h : Byte} : crc16 (s ++ [l, h]) = 0 ↔ crc16 s = u16 h l := by
  have hs : crc16 (s ++ [l, h]) = crcBits 16 (crc16 s ^^^ u16 h l) := List.foldl_append.trans (crcStep_crcStep _ l h)
  calc crc16 (s ++ [l, h]) = 0
    _ ↔ crcBits 16 (crc16 s ^^^ u16 h l) = crcBits 16 0 := by rw [hs, crcBits_zero]
    _ ↔ crc16 s = u16 h l := (crcBits_injective 16).eq_iff.trans BitVec.xor_eq_zero_iff

/-- Settles O15: the two bytes are those of the CRC (`crc16_append_eq_zero_iff`). -/
theorem crcResidue : Obligations.CrcResidue := fun s => crc16_append_eq_zero_iff.mpr (u16_hi8_lo8 (crc16 s)).symm

theorem foldl_crcStep_injective (t : List Byte) : Function.Injective fun c => t.foldl crcStep c := by
  induction t with
  | nil => exact Function.injective_id
  | cons b t ih => exact ih.comp (crcStep_left_injective b)

/-- Lists that differ in one byte at most have the same CRC only if they are the same. -/
theorem byte_eq_of_crc16_eq {s t : List Byte} {b b' : Byte} (h : crc16 (s ++ [b] ++ t) = crc16 (s ++ [b'] ++ t)) :
    b = b' := by
  simp only [crc16, List.foldl_append] at h
  exact crcStep_right_injective _ (foldl_crcStep_injective t h)

/-- Settles O16: a byte with one bit changed is another byte (`byte_eq_of_crc16_eq`). -/
theorem crcDetectsOneBit : Obligations.CrcDetectsOneBit := by
  intro s t b k hk h
  have hmask : BitVec.ofNat 8 (1 <<< k) = 0 := by
    simpa using (BitVec.xor_right_inj b).mp ((byte_eq_of_crc16_eq h).trans BitVec.xor_zero.symm)
  interval_cases k <;> cases hmask

/-- Settles O17, by running the engine. -/
theorem crcWorkedValues : Obligations.CrcWorkedValues := by
  unfold Obligations.CrcWorkedValues
  decide +kernel

/-! ## The commands -/

/-- A command that takes no time and whose body takes no notice of what its acceptance writes: to the effect of the body come
the fields latched, `ERR` 0 and `done`. -/
theorem instant_eq {op idx : BitVec 4} {arg : Byte} (body : State → State) {s : State} (hb : s.busy = false)
    (hbody : body (accept op idx arg s) = accept op idx arg (body s)) (hbusy : (body s).busy = s.busy) :
    instant op idx arg body s =
      .next { body s with op := op, idx := idx, arg := arg, err := 0, done := true } := by
  have hready : { body s with busy := false } = body s := by rw [← hb, ← hbusy]
  calc instant op idx arg body s
    _ = .next { { body s with busy := false } with op := op, idx := idx, arg := arg, err := 0, done := true } := by
      rw [instant_idle hb, hbody]; rfl
    _ = .next { body s with op := op, idx := idx, arg := arg, err := 0, done := true } := by rw [hready]

/-- Settles O26: the body of NOP changes nothing. -/
theorem nopResult : Obligations.NopResult := fun _ hb => instant_eq (fun s => s) hb rfl rfl

/-- Settles O27: the body sets `CRC`; any other word of this `OP` has a reserved field set. -/
theorem crcInitResult : Obligations.CrcInitResult := fun _ hb =>
  ⟨instant_eq (fun s => { s with crc := crcStart }) hb rfl rfl,
    fun _ _ hr => runRaw_reservedFieldSet (by simpa [reservedFieldSet, imp_iff_not_or] using hr) hb⟩

/-- Settles O28: the body folds the byte into `CRC`; any other word of this `OP` and byte has a reserved field set. -/
theorem crcByteResult : Obligations.CrcByteResult :=
  ⟨fun _ b hb => ⟨instant_eq (fun s => { s with crc := crcStep s.crc b }) hb rfl rfl,
    fun _ hr => runRaw_reservedFieldSet (by simpa [reservedFieldSet] using hr) hb⟩, rfl, rfl⟩

end Sys2Proof.Machine

/-! # The frame codec: requests, replies, the sensor value, and ENCODE, VERIFY and LDTX (`41_frame_codec.md` R141 to R151)

A frame's last two bytes are its CRC exactly if they are the two bytes of that word (`eq_u16_iff`), and exactly if the CRC of
the whole frame is 0 (`crc16_append_eq_zero_iff`); requests, replies and VERIFY all rest on these two facts. -/
namespace Sys2Proof.Machine

/-! ## Requests -/

/-- A word is made of two bytes exactly if they are its high and its low byte. -/
theorem eq_u16_iff {c : Word} {h l : Byte} : c = u16 h l ↔ lo8 c = l ∧ hi8 c = h := by
  constructor
  · rintro rfl
    exact ⟨BitVec.extractLsb'_append_eq_right, BitVec.extractLsb'_append_eq_left⟩
  · rintro ⟨rfl, rfl⟩
    exact (u16_hi8_lo8 c).symm

/-- The stored CRC of a request is the CRC of its first six bytes. -/
theorem u16_request (a : Byte) : u16 (request a)[7] (request a)[6] = requestCrc a := u16_hi8_lo8 (requestCrc a)

/-- Settles O18: the address is byte 0 of its request. -/
theorem requestOfAnAddress : Obligations.RequestOfAnAddress := by
  refine ⟨fun a => ⟨requestCrc a, rfl, rfl⟩, fun a b h => congrArg (fun f : Frame8 => f[0]) h, ?_⟩
  decide +kernel

/-! ## Validation -/

theorem toList_eq_ofFn {n : Nat} (f : Vector Byte n) : f.toList = List.ofFn fun i : Fin n => f[i] := by
  rw [← Vector.toList_ofFn]
  exact congrArg _ (Vector.ofFn_getElem (xs := f)).symm

theorem frameOk_iff {f : Frame8} : frameOk f = true ↔ crc16 [f[0], f[1], f[2], f[3], f[4], f[5]] = u16 f[7] f[6] :=
  beq_iff_eq

theorem rspCrcMatches_iff {r : Frame7} : rspCrcMatches r = true ↔ crc16 [r[0], r[1], r[2], r[3], r[4]] = u16 r[6] r[5] :=
  beq_iff_eq

/-- A frame is valid exactly if its residue is 0 (`41_frame_codec.md` R143). -/
theorem frameOk_iff_residue {f : Frame8} : frameOk f = true ↔ crc16 f.toList = 0 := by
  rw [show f.toList = [f[0], f[1], f[2], f[3], f[4], f[5]] ++ [f[6], f[7]] from toList_eq_ofFn f]
  exact frameOk_iff.trans crc16_append_eq_zero_iff.symm

/-- A reply's CRC is right exactly if its residue is 0 (`41_frame_codec.md` R147). -/
theorem rspCrcMatches_iff_residue {r : Frame7} : rspCrcMatches r = true ↔ crc16 r.toList = 0 := by
  rw [show r.toList = [r[0], r[1], r[2], r[3], r[4]] ++ [r[5], r[6]] from toList_eq_ofFn r]
  exact rspCrcMatches_iff.trans crc16_append_eq_zero_iff.symm

theorem frameOk_request (a : Byte) : frameOk (request a) = true := frameOk_iff.mpr (u16_request a).symm

/-- Settles O19: the residue is 0 exactly if the last two bytes are the CRC of the others, as those of a request are. -/
theorem frameValidation : Obligations.FrameValidation :=
  ⟨fun _ => frameOk_iff, fun _ => frameOk_iff_residue, frameOk_request, fun b₀ b₁ b₂ b₃ b₄ b₅ =>
    ⟨lo8 (crc16 [b₀, b₁, b₂, b₃, b₄, b₅]), hi8 (crc16 [b₀, b₁, b₂, b₃, b₄, b₅]),
      frameOk_iff.mpr (u16_hi8_lo8 _).symm⟩⟩

/-! ## Replies -/

theorem decodeReply_mismatch {cfg : Config} {r : Frame7} {a : Byte} (h : r[0] ≠ a ∨ r[1] ≠ functionCode) :
    decodeReply cfg r a = .mismatch := if_pos h

/-- The decoder's answer to the right address and function: the CRC decides if it is enforced (`41_frame_codec.md` R146). -/
theorem decodeReply_of_match {cfg : Config} {r : Frame7} {a : Byte} (ha : r[0] = a) (hf : r[1] = functionCode) :
    decodeReply cfg r a = if cfg.rspCrcEnforce && !rspCrcMatches r then .badCrc else .ok (u16 r[3] r[4]) :=
  if_neg (by simp [ha, hf])

/-- Settles O20: the tests in their order, then the CRC test by comparison and by residue. -/
theorem replyDecoding : Obligations.ReplyDecoding := by
  refine fun cfg r a => ⟨decodeReply_mismatch, fun ha hf he hc => ?_, fun ha hf hok => ?_, rspCrcMatches_iff,
    rspCrcMatches_iff_residue⟩
  · rw [decodeReply_of_match ha hf, he, hc]; rfl
  · rw [decodeReply_of_match ha hf]
    rcases hok with he | hc
    · rw [he]; rfl
    · simp [hc]

/-- What the decoder looks at: address, function and data, and the other bytes only by whether the CRC is right
(`41_frame_codec.md` R148). -/
theorem decodeReply_congr {r r' : Frame7} (ha : r[0] = r'[0]) (hf : r[1] = r'[1]) (hd : r[3] = r'[3]) (he : r[4] = r'[4])
    (hc : rspCrcMatches r = rspCrcMatches r') (cfg : Config) (a : Byte) : decodeReply cfg r a = decodeReply cfg r' a := by
  rw [decodeReply, decodeReply, ha, hf, hd, he, hc]

/-- Settles O21: without enforcement nothing follows the test of address and function; the rest is `decodeReply_congr`. -/
theorem replyBytesNotLookedAt : Obligations.ReplyBytesNotLookedAt := by
  refine ⟨fun cfg a n d e l h he => ?_, fun cfg a n n' d e l h l' h' x hc => ?_⟩
  · exact (decodeReply_of_match rfl rfl).trans (by rw [he]; rfl)
  · refine decodeReply_congr ?_ ?_ ?_ ?_ hc cfg x <;> rfl

/-! ## The sensor value -/

theorem intValue_unsigned {cfg : Config} (h : cfg.payloadSigned = false) (raw : Word) :
    intValue cfg raw = (raw.toNat : Int) := by rw [intValue, h]; rfl

theorem s16_eq_toInt (raw : Word) : s16 raw = raw.toInt := by
  rw [s16, BitVec.toInt_eq_toNat_cond]
  split <;> split <;> omega

theorem intValue_signed {cfg : Config} (h : cfg.payloadSigned = true) (raw : Word) : intValue cfg raw = raw.toInt := by
  rw [intValue, h, ← s16_eq_toInt]; rfl

theorem scaleDiv_pos (cfg : Config) : (0 : Rat) < cfg.scaleDiv := Nat.cast_pos.mpr cfg.scale_pos

theorem sensorValue_pos_iff {cfg : Config} {raw : Word} : 0 < sensorValue cfg raw ↔ 0 < intValue cfg raw :=
  (div_pos_iff_of_pos_right (scaleDiv_pos cfg)).trans Int.cast_pos

/-- The value lies between the quotients of what bounds its integer. -/
theorem sensorValue_mem_of_intValue_mem {cfg : Config} {raw : Word} {m n : Int}
    (h : m ≤ intValue cfg raw ∧ intValue cfg raw ≤ n) :
    (m : Rat) / cfg.scaleDiv ≤ sensorValue cfg raw ∧ sensorValue cfg raw ≤ (n : Rat) / cfg.scaleDiv :=
  ⟨div_le_div_of_nonneg_right (Int.cast_le.mpr h.1) (scaleDiv_pos cfg).le,
    div_le_div_of_nonneg_right (Int.cast_le.mpr h.2) (scaleDiv_pos cfg).le⟩

/-- Settles O22: the divisor is positive, and the integer has the range of its 16 bits. -/
theorem sensorValueIsTheQuotient : Obligations.SensorValueIsTheQuotient := by
  refine ⟨fun cfg raw => div_mul_cancel₀ _ (scaleDiv_pos cfg).ne', fun _ _ => sensorValue_pos_iff,
    fun _ raw hu => intValue_unsigned hu raw, fun _ raw hs => intValue_signed hs raw, fun cfg raw hd hu => ?_,
    fun cfg raw hd hs => ?_⟩
  · have hrange : (0 : Int) ≤ intValue cfg raw ∧ intValue cfg raw ≤ 65535 := by rw [intValue_unsigned hu]; omega
    simpa [hd] using sensorValue_mem_of_intValue_mem hrange
  · have hrange : (-32768 : Int) ≤ intValue cfg raw ∧ intValue cfg raw ≤ 32767 := by
      rw [intValue_signed hs]
      exact ⟨raw.le_toInt, Int.le_of_lt_add_one raw.toInt_lt⟩
    simpa [hd] using sensorValue_mem_of_intValue_mem hrange

/-! ## The success predicate -/

theorem passes_valuePositive {cfg : Config} (h : cfg.successPred = .valuePositive) (raw : Word) :
    passes cfg raw = true ↔ 0 < intValue cfg raw := by
  rw [passes, h]
  exact decide_eq_true_iff

/-- Read as two's complement, a word is positive exactly from 0x0001 to 0x7FFF. -/
theorem toInt_pos_iff (raw : Word) : 0 < raw.toInt ↔ 0x0001 ≤ raw ∧ raw ≤ 0x7FFF := by
  rw [BitVec.toInt_eq_toNat_cond]
  split <;> bv_omega

/-- The predicate that accepts the words `p` holds of. -/
def acceptsWhere (p : Word → Bool) : SuccessPred := .accepts (((List.finRange (2 ^ 16)).map BitVec.ofFin).filter p)

theorem passes_acceptsWhere {cfg : Config} {p : Word → Bool} (h : cfg.successPred = acceptsWhere p) (raw : Word) :
    passes cfg raw = p raw := by
  have hword : raw ∈ (List.finRange (2 ^ 16)).map BitVec.ofFin :=
    List.mem_map.mpr ⟨raw.toFin, List.mem_finRange _, rfl⟩
  rw [passes, h, acceptsWhere, Bool.eq_iff_iff]
  exact List.contains_iff_mem.trans (List.mem_filter.trans (and_iff_right hword))

/-- Settles O23: the reference predicate looks at the integer's sign, and any other is the list of the words that pass. -/
theorem successPredicate : Obligations.SuccessPredicate := by
  refine ⟨fun cfg raw hp => ⟨?_, fun hu => ?_, fun hs => ?_⟩,
    fun p => ⟨acceptsWhere p, fun _ raw hq => passes_acceptsWhere hq raw⟩⟩
  · exact (passes_valuePositive hp raw).trans sensorValue_pos_iff.symm
  · rw [passes_valuePositive hp, intValue_unsigned hu]
    bv_omega
  · rw [passes_valuePositive hp, intValue_signed hs, toInt_pos_iff]

/-! ## The commands -/

/-- ENCODE that is taken. -/
theorem exec_encode_eq (a : Byte) {s : State} (hb : s.busy = false) :
    exec (.encode a) s =
      .next { loadFrame (request a) s with op := 0x3, idx := 0, arg := a, err := 0, done := true } :=
  instant_eq (loadFrame (request a)) hb rfl rfl

/-- VERIFY that is taken. -/
theorem exec_verify_eq {s : State} (hb : s.busy = false) :
    exec .verify s = .next { verifyFrame s with op := 0x4, idx := 0, arg := 0, err := 0, done := true } :=
  instant_eq verifyFrame hb rfl rfl

/-- What VERIFY puts into `FRAME_OK` is the validity of the frame in `TXBUF`. -/
theorem verifyFrame_frameOk (s : State) : (verifyFrame s).frameOk = frameOk s.txbuf := by
  rw [Bool.eq_iff_iff, frameOk_iff, eq_u16_iff]
  simp [verifyFrame]

/-- V2 of `95_test_vectors.md`. -/
theorem crc16_zeros : crc16 [0, 0, 0, 0, 0, 0] = 0x1B00 := by decide +kernel

/-- `TXBUF` starts with zero bytes (`41_frame_codec.md` R144). -/
theorem verifyFrame_resetWith_crc (cfg : Config) : (verifyFrame (State.resetWith cfg)).crc = 0x1B00 := by
  simp only [verifyFrame, State.resetWith]
  exact crc16_zeros

theorem frameOk_zeros : frameOk #v[0, 0, 0, 0, 0, 0, 0, 0] = false := by decide +kernel

/-- Settles O29: the body loads the request with its CRC (`u16_request`); a nonzero `IDX` is a reserved field set. -/
theorem encodeResult : Obligations.EncodeResult := fun _ a hb =>
  ⟨exec_encode_eq a hb, u16_request a, fun _ hr => runRaw_reservedFieldSet (by simpa [reservedFieldSet] using hr) hb⟩

/-- Settles O30: the body compares the CRC's bytes; after ENCODE the frame is a request, which is valid. -/
theorem verifyResult : Obligations.VerifyResult := by
  refine ⟨fun s hb => ⟨_, _, rfl, ?_, exec_verify_eq hb⟩,
    fun s idx arg hb hr => runRaw_reservedFieldSet (by simpa [reservedFieldSet, imp_iff_not_or] using hr) hb,
    fun c => ⟨_, exec_verify_eq rfl, ?_, ?_⟩, fun s a hb => ⟨_, _, exec_encode_eq a hb, exec_verify_eq hb, ?_⟩⟩
  · exact (Bool.eq_iff_iff.mp (verifyFrame_frameOk s)).trans (frameOk_iff.trans eq_u16_iff)
  · exact (verifyFrame_frameOk (State.resetWith c)).trans frameOk_zeros
  · exact verifyFrame_resetWith_crc c
  · exact (verifyFrame_frameOk _).trans (frameOk_request a)

/-- Settles O31: the body stores the byte; an index above 7 has the illegal outcome. -/
theorem ldtxResult : Obligations.LdtxResult := by
  refine fun s i b hb => ⟨fun h => ?_, fun h => ?_⟩
  · exact (dif_pos h).trans (instant_eq (fun s => { s with txbuf := s.txbuf.set i.toNat b }) hb rfl rfl)
  · exact (dif_neg (Nat.not_lt.mpr h)).trans (illegal_eq hb)

end Sys2Proof.Machine

/-! # Direction and transmit: FLUSHRX, SEND, the arbiter, the hang, the wait (`42_direction_and_transmit.md` R162 to R175)

The small steps are said phase by phase: what `dataStep` and `drainStep` come to, and for every other operation that it
leaves the transmit side (`wire`) alone. A procedure that transmits ends or comes to the hang (`Ran.Sound`), which is
carried along the loops of DISCOVER and READ_RETRY. The wait is an induction over the coming characters (`Awaited`). -/
namespace Sys2Proof.Machine

/-! ## FLUSHRX and SEND -/

/-- Settles O32: the body empties the queue; any other word of this `OP` has a reserved field set. -/
theorem flushrxResult : Obligations.FlushrxResult := fun _ hb =>
  ⟨⟨0, instant_eq rxClear hb rfl rfl⟩,
    fun _ _ hr => runRaw_reservedFieldSet (by simpa [reservedFieldSet, imp_iff_not_or] using hr) hb⟩

/-- Settles O33: the command is accepted, then the transmit sequence runs (`conclude_sendFrame`). -/
theorem sendResult : Obligations.SendResult := by
  intro s hb hi
  obtain ⟨T, q, d, as, hs, hT, hQ⟩ := conclude_sendFrame (s := accept 0x6 0 0 s) hi
  exact ⟨T, q, d, as, (whenReady_idle hb).trans (congrArg Host.Outcome.next hs), hT,
    fun hq => hQ ⟨hq.ordered, hq.ahead, hq.atStart, hq.atRelease, hq.settled⟩⟩

/-! ## What leaves the transmit side alone -/

/-- What the block shows on the wire: the lines and the bytes handed to the serialiser. -/
def wire (s : State) : Bool × Bool × List Byte := (s.de, s.rdis, s.txd)

theorem wire_eq_iff {s t : State} : wire t = wire s ↔ t.de = s.de ∧ t.rdis = s.rdis ∧ t.txd = s.txd := by
  simp [wire]

theorem wire_of_sendSide {s t : State} (h : sendSide t = sendSide s) : wire t = wire s :=
  congrArg (fun x : SendSide => (x.de, x.rdis, x.txd)) h

theorem wire_elapse (n : Nat) (s : State) : wire (elapse n s) = wire s := by
  obtain ⟨q, f, m, d, as, h, -⟩ := elapse_eq n s
  rw [h]; rfl

theorem wire_timerTick (s : State) : wire (timerTick s) = wire s := wire_elapse 1 s

theorem wire_enterData (s : State) : wire (enterData s) = wire s := by
  obtain ⟨p, d, h, -⟩ := openPlan_eq s
  rw [enterData, h]; rfl

theorem wire_afterProbe (s : State) : wire (afterProbe s) = wire s := by
  unfold afterProbe; split <;> rfl

theorem wire_rxExpired {s t : State} (h : rxExpired s = .next t) : wire t = wire s := by
  unfold rxExpired at h
  split at h
  · cases h; rfl
  · cases h; exact wire_afterProbe _
  · cases h; rfl
  · cases h; exact wire_of_sendSide (sendSide_afterAttempt _ (readExpired s))
  · cases h

theorem wire_rxStep {s t : State} (h : rxStep s = .next t) : wire t = wire s := by
  have expires (h : (if s.tmr = 0 then rxExpired s else .next (timerTick s)) = .next t) : wire t = wire s := by
    split at h
    · exact wire_rxExpired h
    · cases h; exact wire_timerTick s
  unfold rxStep at h
  split at h
  · cases h
  · split at h
    · exact wire_of_sendSide (sendSide_rxGot h)
    · split at h
      · split at h
        · cases h; exact wire_of_sendSide (sendSide_deliver _ _)
        · exact expires h
      · exact expires h

/-! ## The small steps of a transmission -/

/-- The lines asserted, with the timer at `T_PRE`: how every transmission starts. -/
structure Started (cfg : Config) (t : State) : Prop where
  phase : t.ph = .txPre
  timer : t.tmr = cfg.tPre
  de : t.de = true
  rdis : t.rdis = true

/-- The first phase of a command: a transmission starts, and the `done` of the command before is over. -/
theorem beginPhases_started {i : Instr} {s b : State} (h : beginPhases i s = some b) :
    Started s.cfg b ∧ b.done = false := by
  cases i with
  | discover =>
    simp only [beginPhases] at h
    split at h <;> cases h
    exact ⟨⟨rfl, rfl, rfl, rfl⟩, rfl⟩
  | send | probe _ | read | readRetry | requestFrame _ _ _ => cases h; exact ⟨⟨rfl, rfl, rfl, rfl⟩, rfl⟩
  | nop | crcInit | crcByte _ | encode _ | verify | ldtx _ _ | flushrx | reservedC _ _ | reservedD _ _ | reservedE _ _
  | reservedF _ _ | replyFrame _ _ _ _ _ _ => cases h

/-- The serialiser is not ready exactly in a tick of its plan in which it takes no byte. -/
theorem txReady_eq_false_iff {s : State} : txReady s = false ↔ ∃ k ts, (plan s).hand = k :: ts ∧ k.taken = 0 := by
  unfold txReady
  split
  · next h => simp [h]
  · next k ts h => simp [h]

/-- In `TX_DATA` a byte is handed over when `tx_ready`, and nothing else changes but the plan. -/
theorem dataStep_ready {s : State} (hi : s.txi.toNat < 8) (hr : txReady s = true) : ∃ ps, dataStep s = { s with
    txd := s.txd ++ [s.txbuf[s.txi.toNat]], txi := s.txi + 1, txpend := s.txpend + 1, plans := ps } := by
  rw [dataStep, if_neg (by omega)]
  cases hh : (plan s).hand with
  | nil => exact ⟨s.plans, uartWrite_eq hi⟩
  | cons k ts =>
    obtain ⟨taken, ended⟩ := k
    cases taken with
    | zero => exact absurd hr (by rw [txReady_eq_false_iff.mpr ⟨_, _, hh, rfl⟩]; decide)
    | succ n => exact ⟨_, uartWrite_eq (s := setPlan _ s) hi⟩

/-- In `TX_DATA` a tick passes while the serialiser is not ready. -/
theorem dataStep_waits {s : State} (hi : s.txi.toNat < 8) {k : SerialTick} {ts : List SerialTick}
    (hh : (plan s).hand = k :: ts) (hk : k.taken = 0) : ∃ q f m d as, dataStep s = { s with
      clock := s.clock + 1, txpend := s.txpend - k.ended, plans := { plan s with hand := ts } :: s.plans.tail,
      rxq := q, fresh := f, missed := m, draws := d, arrivals := as } := by
  obtain ⟨q, f, m, d, as, h, -⟩ := serialTick_eq k.ended (setPlan { plan s with hand := ts } s)
  rw [dataStep, if_neg (by omega), hh]
  dsimp only
  rw [hk]
  exact ⟨q, f, m, d, as, h⟩

/-- In `TX_DATA` the eighth byte leads on. -/
theorem dataStep_full {s : State} (hi : 8 ≤ s.txi.toNat) : dataStep s = enterDrain s := if_pos hi

/-- In `TX_DATA` with a byte left the phase and the lines stay, and `TXI` moves on by at most one. -/
theorem dataStep_keeps {s : State} (hp : s.ph = .txData) (hi : s.txi.toNat < 8) :
    (dataStep s).ph = .txData ∧ (dataStep s).de = s.de ∧ (dataStep s).rdis = s.rdis ∧
      ((dataStep s).txi = s.txi ∨ (dataStep s).txi = s.txi + 1) := by
  cases hr : txReady s with
  | true =>
    obtain ⟨ps, h⟩ := dataStep_ready hi hr
    rw [h]; exact ⟨hp, rfl, rfl, .inr rfl⟩
  | false =>
    obtain ⟨k, ts, hh, hk⟩ := txReady_eq_false_iff.mp hr
    obtain ⟨q, f, m, d, as, h⟩ := dataStep_waits hi hh hk
    rw [h]; exact ⟨hp, rfl, rfl, .inl rfl⟩

/-- In `TX_DRAIN` with a character pending time passes. -/
theorem drainStep_pending {s : State} (h : s.txpend ≠ 0) :
    ∃ n ps, drainStep s = { elapse 1 { s with plans := ps } with txpend := n } := by
  rw [drainStep, if_neg h]
  split
  · exact ⟨_, _, rfl⟩
  · split
    · exact ⟨0, s.plans, rfl⟩
    · exact ⟨(elapse 1 s).txpend, s.plans, rfl⟩

theorem drainStep_done {s : State} (h : s.txpend = 0) : drainStep s = enterPost s := if_pos h

theorem wire_drainStep (s : State) : wire (drainStep s) = wire s := by
  by_cases h : s.txpend = 0
  · rw [drainStep_done h]; rfl
  · obtain ⟨n, ps, hd⟩ := drainStep_pending h
    rw [hd]; exact wire_elapse 1 { s with plans := ps }

/-- After the trailing delay the lines are released, and the command ends or waits. -/
theorem afterRelease_released {s t : State} (h : afterRelease (release s) = .next t) :
    (t.ph = .rxWait ∨ t.ph = .idle) ∧ t.de = false ∧ t.rdis = false ∧ t.txd = s.txd := by
  have htxd : (release s).txd = s.txd := by simp [release]
  unfold afterRelease at h
  split at h
  · cases h; exact ⟨.inr rfl, rfl, rfl, htxd⟩
  case h_6 => cases h
  all_goals cases h; exact ⟨.inl rfl, rfl, rfl, htxd⟩

/-- What a command that transmits does after the trailing delay: SEND ends, the others wait for their bytes. -/
theorem afterRelease_sending {s : State} (hop : sending s.op) : ∃ t, afterRelease s = .next t ∧ t.de = s.de ∧
    t.rdis = s.rdis ∧ t.trace = s.trace ∧ (t.ph = .idle ↔ s.op = 0x6) ∧ (t.ph = .rxWait ↔ s.op ≠ 0x6) := by
  rcases hop with h | h | h | h | h
  · exact ⟨_, afterRelease_send h, rfl, rfl, rfl, by simp [h], by simp [h]⟩
  · exact ⟨_, afterRelease_probe (.inl h), rfl, rfl, rfl, by simp [h], by simp [h]⟩
  · exact ⟨_, afterRelease_probe (.inr h), rfl, rfl, rfl, by simp [h], by simp [h]⟩
  · exact ⟨_, afterRelease_read (.inl h), rfl, rfl, rfl, by simp [h], by simp [h]⟩
  · exact ⟨_, afterRelease_read (.inr h), rfl, rfl, rfl, by simp [h], by simp [h]⟩

/-- After `GAP` the next transmission starts, when the timer has run out. -/
theorem gapStep_started {s t : State} (h : gapStep s = .next t) :
    wire t = wire s ∨ s.tmr = 0 ∧ Started s.cfg t ∧ t.txd = s.txd := by
  unfold gapStep at h
  split at h
  · next h0 =>
    split at h
    · split at h <;> cases h
      exact .inr ⟨h0, ⟨rfl, rfl, rfl, rfl⟩, rfl⟩
    · cases h
  · cases h; exact .inl (wire_timerTick s)

/-- After `BACKOFF` the next transmission starts, when the timer has run out. -/
theorem backoffStep_started {s t : State} (h : backoffStep s = .next t) :
    wire t = wire s ∨ s.tmr = 0 ∧ Started s.cfg t ∧ t.txd = s.txd := by
  unfold backoffStep at h
  split at h
  · next h0 =>
    split at h <;> cases h
    exact .inr ⟨h0, ⟨rfl, rfl, rfl, rfl⟩, rfl⟩
  · cases h; exact .inl (wire_timerTick s)

/-- What a small step does on the wire: nothing, the next byte (`dataStep_ready`), the release of the lines, or the start
of the next transmission. -/
theorem phaseStep_wire {s t : State} (h : phaseStep s = .next t) :
    wire t = wire s ∨
    (s.ph = .txData ∧ s.txi.toNat < 8 ∧ txReady s = true ∧ t = dataStep s) ∨
    (s.ph = .txPost ∧ s.tmr = 0 ∧ (t.ph = .rxWait ∨ t.ph = .idle) ∧ t.de = false ∧ t.rdis = false ∧ t.txd = s.txd) ∨
    ((s.ph = .gap ∨ s.ph = .backoff) ∧ s.tmr = 0 ∧ Started s.cfg t ∧ t.txd = s.txd) := by
  cases hp : s.ph <;> simp only [phaseStep, hp] at h
  case idle => cases h
  case txPre =>
    cases h
    split
    · exact .inl (wire_enterData s)
    · exact .inl (wire_timerTick s)
  case txData =>
    cases h
    by_cases hi : s.txi.toNat < 8
    · cases hr : txReady s with
      | true => exact .inr (.inl ⟨rfl, hi, rfl, rfl⟩)
      | false =>
        obtain ⟨k, ts, hh, hk⟩ := txReady_eq_false_iff.mp hr
        obtain ⟨q, f, m, d, as, hd⟩ := dataStep_waits hi hh hk
        rw [hd]; exact .inl rfl
    · rw [dataStep_full (Nat.le_of_not_lt hi)]; exact .inl rfl
  case txDrain => cases h; exact .inl (wire_drainStep s)
  case txPost =>
    split at h
    · next h0 => exact .inr (.inr (.inl ⟨rfl, h0, afterRelease_released h⟩))
    · cases h; exact .inl (wire_timerTick s)
  case rxWait => exact .inl (wire_rxStep h)
  case gap => exact (gapStep_started h).imp_right fun hs => .inr (.inr ⟨.inl rfl, hs⟩)
  case backoff => exact (backoffStep_started h).imp_right fun hs => .inr (.inr ⟨.inr rfl, hs⟩)

/-- A tick in a phase in which the timer counts. -/
theorem phaseStep_counts {s : State} {p : Phase} (hp : s.ph = p) (hc : p.counting) (h : s.tmr ≠ 0) :
    ∃ t, phaseStep s = .next t ∧ t.ph = p ∧ t.tmr = s.tmr - 1 ∧ t.de = s.de ∧ t.rdis = s.rdis := by
  obtain ⟨hde, hrdis, -⟩ := wire_eq_iff.mp (wire_timerTick s)
  exact ⟨_, phaseStep_counting (hp ▸ hc) h, (timerTick_ph s).trans hp, timerTick_tmr s, hde, hrdis⟩

/-- Settles O36: the start of a command, what a small step does on the wire (`phaseStep_wire`), and the rows of the table. -/
theorem arbiterPhases : Obligations.ArbiterPhases := by
  refine ⟨fun s b i hb => ?begin, fun s t ht => ?lines, fun s => ⟨fun hp h => ?pre, fun hp h => ?preEnd,
    fun hp hi => ?data, fun hp hi => ?dataEnd, fun hp h => ?drain, fun hp h => ?drainEnd, fun hp h => ?post,
    fun hp h hop => ?postEnd⟩⟩
  case begin =>
    obtain ⟨⟨hp, ht, hde, hrdis⟩, -⟩ := beginPhases_started hb
    exact ⟨hp, ht, hde, hrdis⟩
  case lines =>
    rcases phaseStep_wire ht with
      h | ⟨hp, hi, -, rfl⟩ | ⟨hp, h0, hph, hde, hrdis, -⟩ | ⟨hp, h0, ⟨hph, htmr, hde, hrdis⟩, -⟩
    · obtain ⟨hde, hrdis, -⟩ := wire_eq_iff.mp h
      exact .inl ⟨hde, hrdis⟩
    · obtain ⟨-, hde, hrdis, -⟩ := dataStep_keeps hp hi
      exact .inl ⟨hde, hrdis⟩
    · exact .inr (.inl ⟨hp, h0, hph, hde, hrdis⟩)
    · exact .inr (.inr ⟨hp, h0, hph, htmr, hde, hrdis⟩)
  case pre => exact phaseStep_counts hp (.inl rfl) h
  case preEnd =>
    obtain ⟨hde, hrdis, -⟩ := wire_eq_iff.mp (wire_enterData s)
    exact ⟨enterData s, by simp only [phaseStep, hp, h, if_true], rfl, rfl, hde, hrdis⟩
  case data => exact ⟨_, phaseStep_txData hp, dataStep_keeps hp hi⟩
  case dataEnd => exact ⟨_, (phaseStep_txData hp).trans (congrArg _ (dataStep_full hi)), rfl, rfl, rfl⟩
  case drain =>
    obtain ⟨n, ps, hd⟩ := drainStep_pending h
    obtain ⟨q, f, m, d, as, he, -⟩ := elapse_eq 1 { s with plans := ps }
    rw [he] at hd
    exact ⟨_, (phaseStep_txDrain hp).trans (congrArg _ hd), hp, rfl, rfl⟩
  case drainEnd => exact ⟨_, (phaseStep_txDrain hp).trans (congrArg _ (drainStep_done h)), rfl, rfl, rfl, rfl⟩
  case post => exact phaseStep_counts hp (.inr (.inl rfl)) h
  case postEnd =>
    obtain ⟨hrop, htrace⟩ : (release s).op = s.op ∧ (release s).trace = s.trace ++ [.sent s.txbuf] := by simp [release]
    obtain ⟨t, ht, hde, hrdis, htr, hidle, hwait⟩ := afterRelease_sending (s := release s) (hrop ▸ hop)
    rw [hrop] at hidle hwait
    exact ⟨t, by simpa only [phaseStep, hp, h, if_true] using ht, hde, hrdis, htr.trans htrace, hidle, hwait⟩

/-- Settles O37: a byte is handed over only by `dataStep` (`phaseStep_wire`), which does so exactly when `tx_ready`. -/
theorem bytesLeaveInOrder : Obligations.BytesLeaveInOrder := by
  refine ⟨fun s t ht => ?_, fun s hp hi => ⟨fun hr => ?_, fun k ts hh hk => ?_⟩⟩
  · rcases phaseStep_wire ht with h | ⟨hp, hi, hr, rfl⟩ | ⟨-, -, -, -, -, htxd⟩ | ⟨-, -, -, htxd⟩
    · exact .inl (wire_eq_iff.mp h).2.2
    · obtain ⟨ps, h⟩ := dataStep_ready hi hr
      rw [h]; exact .inr ⟨hp, hr, hi, rfl, rfl, rfl⟩
    · exact .inl htxd
    · exact .inl htxd
  · obtain ⟨ps, h⟩ := dataStep_ready hi hr
    exact ⟨ps, (phaseStep_txData hp).trans (congrArg _ h)⟩
  · obtain ⟨q, f, m, d, as, h⟩ := dataStep_waits hi hh hk
    exact ⟨q, f, m, d, as, (phaseStep_txData hp).trans (congrArg _ h)⟩

/-! ## `done` -/

/-- A command that has given its `done` is not in progress any more (`60_exceptions.md` R236). -/
def DoneReady (s : State) : Prop := s.done = true → s.busy = false

theorem finishIdle_doneReady (c : BitVec 3) (s : State) : DoneReady (finishIdle c s) := fun _ => rfl

theorem DoneReady.elapse {s : State} (h : DoneReady s) (n : Nat) : DoneReady (elapse n s) := by
  obtain ⟨q, f, m, d, as, he, -⟩ := elapse_eq n s
  rw [he]; exact h

theorem DoneReady.deliver {s : State} (h : DoneReady s) (a : Arrival) : DoneReady (deliver a s) := by
  obtain ⟨q, f, m, d, hd, -⟩ := deliver_eq a s
  rw [hd]; exact h

theorem DoneReady.afterAttempt {s : State} (h : DoneReady s) (r : BitVec 3) : DoneReady (afterAttempt r s) := by
  unfold Machine.afterAttempt
  split
  · exact finishIdle_doneReady r _
  · split
    · exact h
    · exact finishIdle_doneReady r _

theorem DoneReady.afterProbe {s : State} (h : DoneReady s) : DoneReady (afterProbe s) := by
  unfold Machine.afterProbe
  split
  · exact h
  · exact finishIdle_doneReady _ _

theorem DoneReady.rxGot {s t : State} (h : DoneReady s) (ht : rxGot s = .next t) : DoneReady t := by
  unfold Machine.rxGot at ht
  split at ht
  · cases ht; exact finishIdle_doneReady _ _
  · split at ht <;> cases ht
    exact finishIdle_doneReady _ _
  · cases ht; exact finishIdle_doneReady _ _
  · cases ht
    have hread : DoneReady (readGot s.addr s).2 := by
      obtain ⟨q, x, f, c, ok, es, v, hr, -⟩ := readGot_frame s.addr s
      rw [hr]; exact h
    exact hread.afterAttempt _
  · cases ht

theorem DoneReady.rxExpired {s t : State} (h : DoneReady s) (ht : rxExpired s = .next t) : DoneReady t := by
  unfold Machine.rxExpired at ht
  split at ht
  · cases ht; exact finishIdle_doneReady _ _
  · cases ht; exact DoneReady.afterProbe (s := probeExpired s) h
  · cases ht; exact finishIdle_doneReady _ _
  · cases ht; exact DoneReady.afterAttempt (s := readExpired s) h _
  · cases ht

theorem DoneReady.move {s t : State} (h : DoneReady s) (hm : Move s t) : DoneReady t := by
  cases hm with
  | timer | tick => exact h.elapse 1
  | delivery a as => exact DoneReady.deliver (s := { s with arrivals := as }) h a
  | data =>
    obtain ⟨p, d, ho, -⟩ := openPlan_eq s
    rw [enterData, ho]; exact h
  | write _ hi ps => rw [uartWrite_eq (s := { s with plans := ps }) hi]; exact h
  | writeTick _ e ps | drainTick _ e ps => exact DoneReady.elapse (s := { s with plans := ps }) h 1
  | lastTick => exact h.elapse 1
  | drain | post | nextProbe | nextRead => exact h
  | sent => exact finishIdle_doneReady _ _
  | wait =>
    obtain ⟨q, f, hd, -⟩ := dirRx_eq s
    rw [release, hd]; exact h
  | got _ ht => exact h.rxGot ht
  | expired _ ht => exact h.rxExpired ht
  | begin hb => exact fun hd => nomatch (beginPhases_started hb).2.symm.trans hd
  | beginFrame => exact nofun
  | quick _ hq =>
    obtain ⟨p, op, idx, arg, c, f, r, ok, q, n, tr, rfl, -⟩ := hq
    exact fun _ => rfl

/-- No step gives `done` with the command still in progress. -/
theorem step_doneReady {s t : State} (h : step s = .next t) : DoneReady t := by
  rcases step_moves h with ⟨-, rfl⟩ | ⟨-, u, rfl | rfl, hm⟩
  · unfold resetNow
    split
    · exact nofun
    · split <;> exact nofun
  · exact hm.keeps (fun hu => hu.move) nofun
  · exact hm.keeps (fun hu => hu.move) nofun

/-- Settles O54: after `done` no command is in progress (`step_doneReady`), and then the invariant has the lines released. -/
theorem linesReleasedAtDone : Obligations.LinesReleasedAtDone := by
  intro s t hs ht h
  have hb : t.busy = false := h.elim (step_doneReady ht) id
  have hi : Inv t := hs.step ht
  have hp : t.ph = .idle := hi.sound.free hb
  obtain ⟨hde, hrdis, -⟩ := hi.released (by rw [hp]; rfl)
  exact ⟨hb, hp, hde, hrdis⟩

/-! ## The hang -/

/-- The hang, with no `done`. -/
def Stuck (s : State) : Prop := Hung s ∧ s.done = false

/-- A command that has not given its `done`, with no plan but those in `ps` for the transmissions to come. -/
structure Underway (ps : List SerialPlan) (s : State) : Prop where
  busy : s.busy = true
  quiet : s.done = false
  plans : s.plans ⊆ ps

/-- A procedure of a command with the plans `ps` ends with the command under way, or in the hang, which one of the plans
makes. -/
inductive Ran.Sound {α : Type} (ps : List SerialPlan) : Ran α → Prop
  | ended (a : α) {t : State} (h : Underway ps t) : Sound ps (.ended a t)
  | hung {t : State} (h : Stuck t) (hp : ∃ p ∈ ps, p.idles = false) : Sound ps (.hung t)

theorem Ran.Sound.andThen {α β : Type} {ps : List SerialPlan} {r : Ran α} {k : α → State → Ran β} (h : r.Sound ps)
    (hk : ∀ a t, Underway ps t → (k a t).Sound ps) : (r.andThen k).Sound ps := by
  cases h with
  | ended a h => exact hk a _ h
  | hung h hp => exact .hung h hp

/-- A transmission of a command under way comes to the hang if its serialiser never becomes idle. -/
theorem transmit_hangs {s : State} (hb : s.busy = true) (hd : s.done = false) (hi : ¬ Idles s) :
    ∃ t, transmit s = .hung t ∧ Stuck t := by
  obtain ⟨t, ht, hp, hde, hrdis, hpend, hdrain, hnever, hbusy, hdone, -⟩ := transmit_hung s hi
  exact ⟨t, ht, ⟨hp, hbusy.trans hb, ⟨hde, hrdis⟩, hpend, hdrain, hnever⟩, hdone.trans hd⟩

/-- A serialiser that never becomes idle has a plan that says so. -/
theorem exists_plan_of_not_idles {s : State} (hi : ¬ Idles s) : ∃ p ∈ s.plans, p.idles = false := by
  cases hp : s.plans with
  | nil => simp [Idles, plan, hp] at hi
  | cons p ps => exact ⟨p, List.mem_cons_self, by simpa [Idles, plan, hp] using hi⟩

theorem Underway.transmit {ps : List SerialPlan} {s : State} (h : Underway ps s) : (transmit s).Sound ps := by
  by_cases hi : Idles s
  · obtain ⟨q₀, q, f, d, as, T, ht, -⟩ := transmit_ended s hi
    rw [ht]
    exact .ended () ⟨h.busy, h.quiet, fun p hp => h.plans (List.mem_of_mem_tail hp)⟩
  · obtain ⟨t, ht, hh⟩ := transmit_hangs h.busy h.quiet hi
    obtain ⟨p, hp, hn⟩ := exists_plan_of_not_idles hi
    rw [ht]
    exact .hung hh ⟨p, h.plans hp, hn⟩

theorem Underway.waitRx {ps : List SerialPlan} {s : State} (h : Underway ps s) (n : Nat) (T : BitVec 16) :
    Underway ps (waitRx n T s).2 := by
  obtain ⟨q, f, m, d, as, c, tm, hw, -⟩ := waitRx_eq n T s
  rw [hw]
  exact ⟨h.busy, h.quiet, h.plans⟩

theorem Underway.delay {ps : List SerialPlan} {s : State} (h : Underway ps s) (T : BitVec 16) :
    Underway ps (delay T s) := by
  obtain ⟨q, f, m, d, as, he, -⟩ := delay_eq T s
  rw [he]
  exact ⟨h.busy, h.quiet, h.plans⟩

theorem Underway.readGot {ps : List SerialPlan} {s : State} (h : Underway ps s) (a : Byte) :
    Underway ps (readGot a s).2 := by
  obtain ⟨q, x, f, c, ok, es, v, hr, -⟩ := readGot_frame a s
  rw [hr]
  exact ⟨h.busy, h.quiet, h.plans⟩

theorem Underway.sendFrame {ps : List SerialPlan} {s : State} (h : Underway ps s) : (sendFrame s).Sound ps :=
  h.transmit.andThen fun _ _ ht => .ended 0 ht

theorem Underway.doProbe {ps : List SerialPlan} {s : State} (h : Underway ps s) (c : Byte) : (doProbe c s).Sound ps := by
  have hbuild : Underway ps (buildProbe c s) := ⟨h.busy, h.quiet, h.plans⟩
  refine hbuild.transmit.andThen fun _ t ht => ?_
  have hw := Underway.waitRx (s := { t with ph := .rxWait }) ⟨ht.busy, ht.quiet, ht.plans⟩ 1 t.cfg.tProbe
  dsimp only
  split
  · exact .ended _ ⟨hw.busy, hw.quiet, hw.plans⟩
  · exact .ended _ ⟨hw.busy, hw.quiet, hw.plans⟩

theorem Underway.doRead {ps : List SerialPlan} {s : State} (h : Underway ps s) : (doRead s).Sound ps := by
  have hbuild : Underway ps (buildRead s) := ⟨h.busy, h.quiet, h.plans⟩
  refine hbuild.transmit.andThen fun _ t ht => ?_
  have hw := Underway.waitRx (s := { t with ph := .rxWait }) ⟨ht.busy, ht.quiet, ht.plans⟩ rspMin t.cfg.tRead
  dsimp only
  split
  · exact .ended _ (hw.readGot _)
  · exact .ended _ ⟨hw.busy, hw.quiet, hw.plans⟩

theorem Underway.discoverFrom {ps : List SerialPlan} {s : State} (h : Underway ps s) (i : Nat) (cs : List Byte) :
    (discoverFrom i cs s).Sound ps := by
  induction cs generalizing i s with
  | nil => exact .ended _ ⟨h.busy, h.quiet, h.plans⟩
  | cons c cs ih =>
    have hci : Underway ps { s with ci := BitVec.ofNat 8 i } := ⟨h.busy, h.quiet, h.plans⟩
    refine (hci.doProbe c).andThen fun r t ht => ?_
    have hgap : Underway ps (gapDelay t) := Underway.delay (s := { t with ph := .gap }) ⟨ht.busy, ht.quiet, ht.plans⟩ _
    split
    · exact .ended r ht
    · split
      · exact ih ht (i + 1)
      · exact ih hgap (i + 1)

theorem Underway.retryFrom {ps : List SerialPlan} {s : State} (h : Underway ps s) (more att : Nat) :
    (retryFrom more att s).Sound ps := by
  induction more generalizing att s with
  | zero =>
    have hatt : Underway ps { s with att := BitVec.ofNat 8 att } := ⟨h.busy, h.quiet, h.plans⟩
    exact hatt.doRead.andThen fun r t ht => .ended r ⟨ht.busy, ht.quiet, ht.plans⟩
  | succ more ih =>
    have hatt : Underway ps { s with att := BitVec.ofNat 8 att } := ⟨h.busy, h.quiet, h.plans⟩
    refine hatt.doRead.andThen fun r t ht => ?_
    have hback : Underway ps (backoffDelay t) :=
      Underway.delay (s := { t with ph := .backoff }) ⟨ht.busy, ht.quiet, ht.plans⟩ _
    split
    · exact .ended r ⟨ht.busy, ht.quiet, ht.plans⟩
    · exact ih hback (att + 1)

/-- How a command that takes time comes out: it ends, or hangs by one of its plans. -/
theorem Ran.Sound.conclude {ps : List SerialPlan} {r : Ran (BitVec 3)} (h : r.Sound ps) :
    ((conclude r).busy = false ∧ (conclude r).done = true) ∨
      (Stuck (conclude r) ∧ ∃ p ∈ ps, p.idles = false) := by
  cases h with
  | ended c h => exact .inl ⟨rfl, rfl⟩
  | hung h hp => exact .inr ⟨h, hp⟩

/-- A command that transmits, as a procedure that is sound for the plans of the state. -/
theorem exec_sound {s b : State} {i : Instr} (hs : s.busy = false) (hb : beginPhases i s = some b) :
    ∃ r : Ran (BitVec 3), exec i s = .next (conclude r) ∧ r.Sound s.plans := by
  have accepted (op idx : BitVec 4) (arg : Byte) : Underway s.plans (accept op idx arg s) :=
    ⟨rfl, rfl, List.Subset.refl _⟩
  cases i with
  | send => exact ⟨_, whenReady_idle hs, (accepted 0x6 0 0).sendFrame⟩
  | probe a => exact ⟨_, whenReady_idle hs, (accepted 0x8 0 a).doProbe a⟩
  | discover => exact ⟨_, whenReady_idle hs, (accepted 0x9 0 0).discoverFrom 0 _⟩
  | read => exact ⟨_, whenReady_idle hs, (accepted 0xA 0 0).doRead⟩
  | readRetry => exact ⟨_, whenReady_idle hs, (accepted 0xB 0 0).retryFrom _ 1⟩
  | requestFrame a l h =>
    have loaded : Underway s.plans (accept 0x6 0 0 (loadFrame (requestBytes a l h) s)) := ⟨rfl, rfl, List.Subset.refl _⟩
    exact ⟨_, whenReady_idle hs, loaded.sendFrame⟩
  | nop | crcInit | crcByte _ | encode _ | verify | ldtx _ _ | flushrx | reservedC _ _ | reservedD _ _ | reservedE _ _
  | reservedF _ _ | replyFrame _ _ _ _ _ _ => cases hb

/-- A command that transmits hangs in its first transmission if the serialiser never becomes idle in it. -/
theorem exec_hangs {s b : State} {i : Instr} (hs : s.busy = false) (hb : beginPhases i s = some b) (hi : ¬ Idles s) :
    ∃ t, exec i s = .next t ∧ Stuck t := by
  cases i with
  | send =>
    obtain ⟨t, ht, h⟩ := transmit_hangs (s := accept 0x6 0 0 s) rfl rfl hi
    exact ⟨t, timed_hung hs (sendFrame_hung ht), h⟩
  | probe a =>
    obtain ⟨t, ht, h⟩ := transmit_hangs (s := buildProbe a (accept 0x8 0 a s)) rfl rfl hi
    exact ⟨t, timed_hung hs (doProbe_hung ht), h⟩
  | discover =>
    simp only [beginPhases] at hb
    split at hb
    · cases hb
    · next c cs hc =>
      obtain ⟨t, ht, h⟩ := transmit_hangs (s := buildProbe c { accept 0x9 0 0 s with ci := 0 }) rfl rfl hi
      have hcand : (accept 0x9 0 0 s).cfg.cand = c :: cs := hc
      have hbody : discoverFrom 0 (accept 0x9 0 0 s).cfg.cand (accept 0x9 0 0 s) = .hung t := by
        rw [hcand]
        exact discoverFrom_hung (doProbe_hung ht)
      exact ⟨t, timed_hung (body := fun s => discoverFrom 0 s.cfg.cand s) hs hbody, h⟩
  | read =>
    obtain ⟨t, ht, h⟩ := transmit_hangs (s := buildRead (accept 0xA 0 0 s)) rfl rfl hi
    exact ⟨t, timed_hung hs (doRead_hung ht), h⟩
  | readRetry =>
    obtain ⟨t, ht, h⟩ := transmit_hangs (s := buildRead { accept 0xB 0 0 s with att := 1 }) rfl rfl hi
    exact ⟨t, timed_hung hs (retryFrom_hung (doRead_hung ht)), h⟩
  | requestFrame a l h =>
    obtain ⟨t, ht, hh⟩ := transmit_hangs (s := accept 0x6 0 0 (loadFrame (requestBytes a l h) s)) rfl rfl hi
    exact ⟨t, sendLoaded_hung hs ht, hh⟩
  | nop | crcInit | crcByte _ | encode _ | verify | ldtx _ _ | flushrx | reservedC _ _ | reservedD _ _ | reservedE _ _
  | reservedF _ _ | replyFrame _ _ _ _ _ _ => cases hb

/-! ### From the hang on -/

/-- While a command is in progress, only a reply frame is due. -/
theorem dueOffer_reply {s : State} {r : Raw} (hb : s.busy = true) (h : dueOffer s = some r) : ∃ f, r = .reply f := by
  simp only [dueOffer, hb, if_true] at h
  split at h
  · cases h
  · split at h
    · split at h
      · next f hf => cases h; exact ⟨f, hf⟩
      all_goals cases h
    · cases h

/-- Seven bytes on the wire are received, whatever their shape (`20_memory.md` R64). -/
theorem runRaw_reply (f : BitVec 56) (s : State) : ∃ v, runRaw (.reply f) s = receiveFrame v s := by
  cases hd : decode (.reply f) with
  | ok i =>
    obtain ⟨-, rfl⟩ := decodeReplyFrame_ok_iff.mp hd
    exact ⟨_, runRaw_exec hd fun _ => rfl⟩
  | error e =>
    refine ⟨bytesOfP f, ?_⟩
    rw [runRaw, hd]
    cases byPhases s <;> rfl

theorem Stuck.deliverAll {s : State} (h : Stuck s) (as : List Arrival) : Stuck (deliverAll as s) := by
  induction as generalizing s with
  | nil => exact h
  | cons a as ih =>
    obtain ⟨q, f, m, d, hd, -⟩ := deliver_eq a s
    obtain ⟨⟨phase, busy, lines, pending, never⟩, done⟩ := h
    rw [deliverAll_cons, hd]
    exact ih ⟨⟨phase, busy, lines, pending, never⟩, done⟩

/-- In the hang a small step is a tick. -/
theorem Stuck.phaseStep {s : State} (h : Stuck s) : ∃ t, phaseStep s = .next t ∧ Stuck t := by
  obtain ⟨⟨phase, busy, lines, pending, hdrain, hnever⟩, done⟩ := h
  have hd : drainStep s = elapse 1 s := by
    rw [drainStep, if_neg (Nat.ne_of_gt pending), hdrain]
    exact if_neg (by simp [hnever])
  obtain ⟨q, f, m, d, as, he, -⟩ := elapse_eq 1 s
  refine ⟨_, (phaseStep_txDrain phase).trans (congrArg _ (hd.trans he)), ?_⟩
  exact ⟨⟨phase, busy, lines, pending, hdrain, hnever⟩, done⟩

/-- The hang lasts until reset: only a reply frame is taken, of which `TX_DRAIN` takes no notice
(`42_direction_and_transmit.md` R167). -/
theorem step_hung {s : State} (h : Hung s) (hr : resetDue s = false) : ∃ t, step s = .next t ∧ Stuck t := by
  obtain ⟨phase, busy, lines, pending, never⟩ := h
  cases ho : dueOffer s with
  | some r =>
    obtain ⟨f, rfl⟩ := dueOffer_reply busy ho
    obtain ⟨v, hv⟩ := runRaw_reply f (takeOffer s)
    have hstuck : Stuck (takeOffer s) := ⟨⟨phase, busy, lines, pending, never⟩, rfl⟩
    have hwait : (takeOffer s).ph ≠ .rxWait := fun hw => nomatch phase.symm.trans hw
    have hstep : step s = receiveFrame v (takeOffer s) := by
      rw [step, if_neg (by simp [hr]), ho]
      exact hv
    rw [hstep, receiveFrame, receiveBytes_deliverAll _ (.inr hwait)]
    exact ⟨_, rfl, hstuck.deliverAll _⟩
  | none =>
    have hstuck : Stuck (quiet s) := ⟨⟨phase, busy, lines, pending, never⟩, rfl⟩
    rw [step_quiet hr ho, if_pos busy]
    exact hstuck.phaseStep

/-- Settles O34: the first transmission hangs (`exec_hangs`); any command ends or hangs (`exec_sound`); the hang stays
(`step_hung`). -/
theorem sendHangs : Obligations.SendHangs := by
  refine ⟨fun s b i hs hb hi => exec_hangs hs hb hi, fun s b i hs hb => ?_, fun s h hr => step_hung h hr⟩
  obtain ⟨r, he, hr⟩ := exec_sound hs hb
  refine ⟨_, he, hr.conclude.imp_right ?_⟩
  rintro ⟨⟨hh, hd⟩, p, hp, hn⟩
  exact ⟨hh, hd, fun hall => nomatch hn.symm.trans (hall p hp)⟩

/-! ## The wait -/

theorem arrivedBy_cons_due {t : Nat} {a : Arrival} {as : List Arrival} (h : a.time ≤ t) :
    arrivedBy t (a :: as) = arrivedBy t as + 1 := by
  simp [arrivedBy, h]

theorem arrivedBy_eq_zero {t : Nat} {as : List Arrival} (h : ∀ a ∈ as, t < a.time) : arrivedBy t as = 0 := by
  simpa [arrivedBy, List.filter_eq_nil_iff] using h

/-- On a bus in order, none comes before the first. -/
theorem first_le {a : Arrival} {as : List Arrival} (h : (a :: as).Pairwise fun a b => a.time ≤ b.time) {b : Arrival}
    (hb : b ∈ a :: as) : a.time ≤ b.time := by
  rcases List.mem_cons.mp hb with rfl | hb
  · exact le_rfl
  · exact (List.pairwise_cons.mp h).1 b hb

theorem length_bytesComing (t : Nat) (s : State) :
    (bytesComing (fun u => decide (u ≤ t)) s).length = arrivedBy t s.arrivals := by
  simp [bytesComing, arrivedBy]

/-- What a wait for `n` bytes up to `d` comes to (`42_direction_and_transmit.md` R172): its answer, the queue, what is still
to arrive, and when it ends. -/
structure Awaited (n d : Nat) (s : State) (got : Bool) (q : List Byte) (as : List Arrival) (c : Nat) : Prop where
  answer : got = true ↔ n ≤ s.rxq.length + arrivedBy d s.arrivals
  expired : got = false → c = d
  earliest : got = true → s.clock ≤ c ∧ c ≤ d ∧ n ≤ s.rxq.length + arrivedBy c s.arrivals ∧
    ∀ u, s.clock ≤ u → u < c → s.rxq.length + arrivedBy u s.arrivals < n
  queue : q = (s.rxq ++ bytesComing (fun t => decide (t ≤ d)) s).take (max s.rxq.length n)
  left : as = s.arrivals.drop (q.length - s.rxq.length)

theorem Awaited.length {n d : Nat} {s : State} {got : Bool} {q : List Byte} {as : List Arrival} {c : Nat}
    (h : Awaited n d s got q as c) : q.length = min (max s.rxq.length n) (s.rxq.length + arrivedBy d s.arrivals) := by
  rw [h.queue, List.length_take, List.length_append, length_bytesComing]

/-- The bytes are there at once. -/
theorem awaited_now {n d : Nat} {s : State} (h : n ≤ s.rxq.length) (hd : s.clock ≤ d) :
    Awaited n d s true s.rxq s.arrivals s.clock where
  answer := by simp; omega
  expired := nofun
  earliest _ := ⟨le_rfl, hd, by omega, fun u hu hlt => by omega⟩
  queue := by rw [Nat.max_eq_left h, List.take_left]
  left := by rw [Nat.sub_self, List.drop_zero]

/-- No further character comes in time. -/
theorem awaited_none {n d : Nat} {s : State} (h : ¬ n ≤ s.rxq.length) (hnone : ∀ a ∈ s.arrivals, d < a.time) :
    Awaited n d s false s.rxq s.arrivals d where
  answer := by rw [arrivedBy_eq_zero hnone]; simpa using h
  expired _ := rfl
  earliest := nofun
  queue := by
    have hb : bytesComing (fun t => decide (t ≤ d)) s = [] :=
      List.eq_nil_of_length_eq_zero ((length_bytesComing d s).trans (arrivedBy_eq_zero hnone))
    rw [hb, List.append_nil, List.take_of_length_le (by omega)]
  left := by rw [Nat.sub_self, List.drop_zero]

/-- The state when the first coming character has been queued. -/
def queued (a : Arrival) (as : List Arrival) (f m : Nat) (s : State) : State :=
  { s with rxq := s.rxq ++ [a.byte], fresh := f, missed := m, arrivals := as, clock := a.time }

/-- One more character comes in time. -/
theorem Awaited.cons {n d : Nat} {s : State} {a : Arrival} {as : List Arrival} {f m : Nat} {got : Bool} {q : List Byte}
    {as' : List Arrival} {c : Nat} (ha : s.arrivals = a :: as) (hbus : CleanBus s) (hn : ¬ n ≤ s.rxq.length)
    (hdue : a.time ≤ d) (h : Awaited n d (queued a as f m s) got q as' c) : Awaited n d s got q as' c := by
  have hfirst : s.clock ≤ a.time := hbus.ahead a (by rw [ha]; exact List.mem_cons_self)
  have hlen := h.length
  obtain ⟨answer, expired, earliest, queue, left⟩ := h
  simp only [queued, List.length_append, List.length_singleton] at hlen answer earliest queue left
  refine ⟨?_, expired, fun hg => ?_, ?_, ?_⟩
  · rw [answer, ha, arrivedBy_cons_due hdue]; omega
  · obtain ⟨hc, hcd, hq, hbefore⟩ := earliest hg
    refine ⟨hfirst.trans hc, hcd, by rw [ha, arrivedBy_cons_due hc]; omega, fun u hu huc => ?_⟩
    by_cases hau : a.time ≤ u
    · have := hbefore u hau huc
      rw [ha, arrivedBy_cons_due hau]; omega
    · have hnone : arrivedBy u (a :: as) = 0 := arrivedBy_eq_zero fun b hb =>
        (Nat.lt_of_not_le hau).trans_le (first_le (ha ▸ hbus.ordered) hb)
      rw [ha, hnone]; omega
  · have hmax : max s.rxq.length n = max (s.rxq.length + 1) n := by omega
    rw [hmax, queue]
    simp [bytesComing, ha, hdue]
  · have hone : q.length - s.rxq.length = q.length - (s.rxq.length + 1) + 1 := by omega
    rw [left, ha, hone, List.drop_succ_cons]

/-- Time up to an instant that has not passed. -/
theorem reach_later {t : Nat} {s : State} (h : s.clock ≤ t) :
    ∃ f m, reach t s = { s with fresh := f, missed := m, clock := t } := by
  obtain ⟨f, m, c, hr, hc, -⟩ := reach_eq t s
  exact ⟨f, m, by rw [hr, hc, Nat.max_eq_right h]⟩

/-- The first coming character, delivered to a receiver that is enabled and has room. -/
theorem deliver_first {s : State} {a : Arrival} {as : List Arrival} (ha : s.arrivals = a :: as) (hbus : CleanBus s)
    (hr : s.rdis = false) (hroom : s.rxq.length < s.cfg.rxqCap) :
    ∃ f m, deliver a (reach a.time { s with arrivals := as }) = queued a as f m s ∧ CleanBus (queued a as f m s) := by
  obtain ⟨ordered, ahead, whole⟩ := hbus
  rw [ha] at ordered ahead whole
  obtain ⟨hlater, hrest⟩ := List.pairwise_cons.mp ordered
  obtain ⟨f, m, h⟩ := reach_later (s := { s with arrivals := as }) (ahead a List.mem_cons_self)
  refine ⟨f + 1, m, ?_, hrest, hlater, fun b hb => whole b (List.mem_cons_of_mem a hb)⟩
  let u : State := { s with arrivals := as, fresh := f, missed := m, clock := a.time }
  rw [h]
  exact (deliver_queued (s := u) (whole a List.mem_cons_self) hr).trans (queueByte_room (s := u) hroom)

/-- The wait up to `d`, by the coming characters: it ends at once, or the first of them is queued and it goes on, or none of
them comes in time. -/
theorem waitUntil_awaited {n d : Nat} {as : List Arrival} {s : State} (has : s.arrivals = as) (hbus : CleanBus s)
    (hr : s.rdis = false) (hn : n ≤ s.cfg.rxqCap) (hd : s.clock ≤ d) :
    ∃ got q f m as' c, waitUntil n d as s =
        (got, { s with rxq := q, fresh := f, missed := m, arrivals := as', clock := c }) ∧
      Awaited n d s got q as' c := by
  induction as generalizing s with
  | nil =>
    unfold waitUntil
    split
    · next hq => exact ⟨true, _, _, _, _, _, rfl, awaited_now hq hd⟩
    · next hq =>
      obtain ⟨f, m, h⟩ := reach_later hd
      exact ⟨false, s.rxq, f, m, s.arrivals, d, by rw [h], awaited_none hq (by simp [has])⟩
  | cons a as ih =>
    unfold waitUntil
    split
    · next hq => exact ⟨true, _, _, _, _, _, rfl, awaited_now hq hd⟩
    · next hq =>
      split
      · next hdue =>
        obtain ⟨f₁, m₁, hdel, hbus₁⟩ := deliver_first has hbus hr (by omega)
        rw [hdel]
        obtain ⟨got, q, f, m, as', c, hw, h⟩ := ih (s := queued a as f₁ m₁ s) rfl hbus₁ hr hn hdue
        exact ⟨got, q, f, m, as', c, hw, h.cons has hbus hq hdue⟩
      · next hlate =>
        obtain ⟨f, m, h⟩ := reach_later hd
        have hnone : ∀ b ∈ s.arrivals, d < b.time := by
          rw [has]
          exact fun b hb => (Nat.lt_of_not_le hlate).trans_le (first_le (has ▸ hbus.ordered) hb)
        exact ⟨false, s.rxq, f, m, s.arrivals, d, by rw [h], awaited_none hq hnone⟩

/-- Settles O40: `WaitRx` is the wait up to `t0 + T` (`waitUntil_awaited`), and the queue then says what it answered. -/
theorem waitForBytes : Obligations.WaitForBytes := by
  intro n T s _ hn hr hbus
  obtain ⟨got, q, f, m, as, c, hw, h⟩ := waitUntil_awaited (d := s.clock + T.toNat) rfl hbus hr hn (Nat.le_add_right _ _)
  have hlen := h.length
  obtain ⟨answer, expired, earliest, queue, left⟩ := h
  refine ⟨got, q, f, m, as, c, by rw [waitRx, hw], answer, expired, earliest, queue, left, ?_, ?_⟩
  · rw [queue, List.take_append, List.take_of_length_le (Nat.le_max_left _ _)]
    exact List.prefix_append _ _
  · rw [answer]; omega

end Sys2Proof.Machine

/-! # The transactions: PROBE, DISCOVER, READ and READ_RETRY (`43_transactions.md` R191 to R199)

An exchange on a quiet bus is its transmission, which keeps the queue, and the wait of `waitForBytes`. The loops of
DISCOVER and READ_RETRY are followed attempt by attempt; that they are PROBE and READ repeated rests on `latch`: the
procedures commute with a change of the registers the sequencer keeps for the command. A reply frame is its bytes up to
the one that ends the wait, and those after it. -/
namespace Sys2Proof.Machine

/-- Settles O59: among the moves only the end of a read that decodes changes `RAW`. -/
theorem rawChangesOnlyByReading : Obligations.RawChangesOnlyByReading := by
  intro s t hr ht hraw
  obtain ⟨u, rfl | rfl, hu⟩ := step_evolves hr ht <;> obtain ⟨es, he, -, hread⟩ := hu.events <;>
    exact ⟨es, he, hread hraw⟩

/-! ## An exchange on a quiet bus -/

/-- On a bus in time order, what is left when the characters before `t` are gone is what comes from `t` on. -/
theorem dropWhile_eq_filter {as : List Arrival} (h : as.Pairwise fun a b => a.time ≤ b.time) (t : Nat) :
    as.dropWhile (fun a => decide (a.time < t)) = as.filter fun a => decide (t ≤ a.time) := by
  induction as with
  | nil => rfl
  | cons a as ih =>
    by_cases ha : a.time < t
    · rw [List.dropWhile_cons_of_pos (by simpa using ha), ih (List.pairwise_cons.mp h).2,
        List.filter_cons_of_neg (by simpa using ha)]
    · rw [List.dropWhile_cons_of_neg (by simpa using ha), List.filter_eq_self.mpr]
      intro b hb
      have := first_le h hb
      simp only [decide_eq_true_eq]
      omega

/-- A transmission that meets no character at either change of the lines keeps the queue, and what comes after the
release is still to come. -/
theorem transmit_quiet {T : Nat} {s z : State} (h : transmit s = .ended () z) (hi : Idles s)
    (hc : z.clock = releaseTime T s) (hq : QuietTransmit T s) :
    z.rxq = s.rxq ∧ z.rdis = false ∧ z.arrivals = s.arrivals.filter (fun a => decide (releaseTime T s < a.time)) ∧
      z.dirAt = some (releaseTime T s) ∧ z.cfg = s.cfg ∧ z.turns = s.turns := by
  obtain ⟨q₀, q, f, d, as, T', ht, hpass, -, hq₀, -, -, has, -⟩ := transmit_ended s hi
  obtain rfl := (Ran.ended.inj (h.symm.trans ht)).2
  change releaseTime T' s = releaseTime T s at hc
  refine ⟨(hpass.lost rfl hq.atStart).trans (hq₀ hq.settled), rfl, ?_, congrArg some hc, rfl, rfl⟩
  change as = _
  rw [has]
  change s.arrivals.dropWhile (fun a => decide (a.time < releaseTime T' s)) = _
  rw [hc, dropWhile_eq_filter hq.ordered]
  refine List.filter_congr fun a ha => ?_
  have hne : a.time ≠ releaseTime T s := by
    have := hq.atRelease a ha
    simp only [straddlesAt, Bool.or_eq_false_iff, beq_eq_false_iff_ne] at this
    exact this.2
  simp only [decide_eq_decide]
  omega

/-- After such a transmission the bus is in order, with nothing that straddles, but for the ticks of log 18. -/
theorem cleanBus_wait {T : Nat} {s z : State} (h : transmit s = .ended () z) (hi : Idles s)
    (hc : z.clock = releaseTime T s) (hq : QuietTransmit T s) (hs : Steady s) : CleanBus { z with ph := .rxWait } := by
  obtain ⟨-, hrdis, has, hdir, -, hturns⟩ := transmit_quiet h hi hc hq
  refine ⟨?_, fun a ha => ?_, fun a ha => ?_⟩
  · exact has ▸ hq.ordered.filter _
  · have := (List.mem_filter.mp (has ▸ ha)).2
    simp only [decide_eq_true_eq] at this
    exact hc ▸ this.le
  · have hmem := (List.mem_filter.mp (has ▸ ha)).1
    have hturn : a.time ∉ z.turns := hturns ▸ hs a hmem
    have hdirect : straddlesAt z.dirAt a = false := hdir ▸ hq.atRelease a hmem
    simp [straddles, hdirect, hturn]

/-- The queue when the wait after such a transmission has ended: what it was, and behind it the bytes that came after
the release and by the deadline, up to the `n`th. -/
theorem waitRx_quiet {n T : Nat} {W : BitVec 16} {s z : State} (h : transmit s = .ended () z) (hi : Idles s)
    (hc : z.clock = releaseTime T s) (hq : QuietTransmit T s) (hs : Steady s) (hn : 1 ≤ n)
    (hcap : n ≤ s.cfg.rxqCap) :
    (waitRx n W { z with ph := .rxWait }).2.rxq = (s.rxq ++ bytesComing (fun t => decide (releaseTime T s < t ∧
      t ≤ releaseTime T s + W.toNat)) s).take (max s.rxq.length n) := by
  obtain ⟨hrxq, hrdis, has, -, hcfg, -⟩ := transmit_quiet h hi hc hq
  obtain ⟨got, q, f, m, as, c, hw, -, -, -, hqueue, -⟩ :=
    waitForBytes n W { z with ph := .rxWait } hn (hcfg ▸ hcap) hrdis (cleanBus_wait h hi hc hq hs)
  rw [hw]
  change q = _
  rw [hqueue]
  simp only [bytesComing, hrxq, has, hc, List.filter_filter, Bool.decide_and, Bool.and_comm]

/-- A wait for bytes that are there ends at once. -/
theorem waitRx_now {n : Nat} (T : BitVec 16) {s : State} (h : n ≤ s.rxq.length) :
    waitRx n T s = (true, { s with tmr := T }) := by
  have hw : waitUntil n (s.clock + T.toNat) s.arrivals s = (true, s) := by
    cases s.arrivals <;> exact if_pos h
  simp [waitRx, hw]

/-- The serialiser of the coming transmission is the one of the first plan. -/
theorem idles_of_plans {s : State} {p : SerialPlan} {ps : List SerialPlan} (hp : s.plans = p :: ps)
    (hi : p.idles = true) : Idles s := by
  rw [Idles, plan, hp]
  exact hi

/-! ## PROBE -/

/-- Settles O41: the command is accepted, then `DoProbe` runs (`doProbe_eq`); on a quiet bus the queue is that of
`waitRx_quiet`. -/
theorem probeResult : Obligations.ProbeResult := by
  intro s a hb hi
  obtain ⟨got, T, q, f, d, as, c, tm, z, w, rfl, hz, hc, hw, hd, hT, hle, hge, hgot, hexp, rfl, -⟩ :=
    doProbe_eq a (accept 0x8 0 a s) hi
  refine ⟨got, T, q, f, d, as, c, ?_, hT, hle, hge, hgot, hexp, fun hq hs => ?_⟩
  · rw [exec, execProbe, timed_ended hb hd, u16_request]
    cases got <;> rfl
  · have hquiet : QuietTransmit T (buildProbe a (accept 0x8 0 a s)) :=
      ⟨hq.ordered, hq.ahead, hq.atStart, hq.atRelease, rfl⟩
    have := waitRx_quiet (n := 1) (W := s.cfg.tProbe) hz hi hc hquiet hs le_rfl (le_trans (by decide) s.cfg.cap_ge)
    exact (congrArg (fun r : Bool × State => r.2.rxq) hw).symm.trans this

/-- Bytes of the coming characters that `p` selects are there exactly if one is selected. -/
theorem bytesComing_ne_nil {p : Nat → Bool} {s : State} :
    bytesComing p s ≠ [] ↔ ∃ x ∈ s.arrivals, p x.time = true := by
  simp [bytesComing, List.filter_eq_nil_iff]

/-- Settles O42: the queue after PROBE on a quiet bus (`probeResult`) is not empty exactly if a character came in
time. -/
theorem probeAnsweredExactly : Obligations.ProbeAnsweredExactly := by
  intro s a p ps hb hp hidle hq hs
  obtain ⟨got, T, q, f, d, as, c, he, ⟨-, hT⟩, -, -, hgot, -, hqueue⟩ :=
    probeResult s a hb (idles_of_plans hp hidle)
  obtain rfl := hT p ps hp
  refine ⟨_, he, ?_⟩
  have herr : (if got then (0 : BitVec 3) else 3) = 0 ↔ got = true := by cases got <;> decide
  rw [herr, hgot, hqueue hq hs, ne_eq, List.take_eq_nil_iff]
  simpa using bytesComing_ne_nil (p := fun t => decide (releaseTime (serialTime p) s < t ∧
    t ≤ releaseTime (serialTime p) s + s.cfg.tProbe.toNat))

/-! ## READ -/

/-- Taking and decoding a reply is what `replyTaken` says, with the count of fresh bytes (log 5). -/
theorem readGot_eq_replyTaken {s : State} {r : Frame7} {rest : List Byte} (h : s.rxq = r.toList ++ rest) :
    readGot s.addr s = ((replyTaken r rest s).1, { (replyTaken r rest s).2 with fresh := min s.fresh rest.length }) := by
  obtain ⟨u, rfl, hg⟩ := readGot_eq s.addr s r rest h
  rw [hg, replyTaken]
  cases decodeReply s.cfg r s.addr <;> simp [replyCrc]

/-- Settles O44: the command is accepted, then `DoRead` runs (`doRead_eq`); on a quiet bus the queue is that of
`waitRx_quiet`. -/
theorem readResult : Obligations.ReadResult := by
  intro s hb hi
  obtain ⟨got, T, q, f, d, as, c, tm, z, w, hws, hz, hc, hw, hd, hT, hle, hge, hgot, hexp, rfl, -⟩ :=
    doRead_eq (accept 0xA 0 0 s) hi
  change releaseTime T s ≤ c at hle
  change c ≤ releaseTime T s + s.cfg.tRead.toNat at hge
  change got = false → c = releaseTime T s + s.cfg.tRead.toNat at hexp
  change waitRx rspMin s.cfg.tRead _ = _ at hw
  have hexec {r : BitVec 3} {t : State} (h : doRead (accept 0xA 0 0 s) = .ended r t) :
      exec .read s = .next (finishIdle r t) := timed_ended hb h
  have hwc : w.clock = c := by rw [hws]
  have hwq : w.rxq = q := by rw [hws]
  have hcfg : w.cfg = s.cfg := by rw [hws]; rfl
  have haddr : w.addr = s.addr := by rw [hws]; rfl
  have hbuf : w.rxbuf[7] = s.rxbuf[7] := by rw [hws]; rfl
  have hqueue (hquiet : QuietTransmit T s) (hs : Steady s) :=
    waitRx_quiet (n := rspMin) (W := s.cfg.tRead) hz hi hc
      ⟨hquiet.ordered, hquiet.ahead, hquiet.atStart, hquiet.atRelease, hquiet.settled⟩ hs (by decide)
      (le_trans (by decide) s.cfg.cap_ge)
  rw [hw] at hqueue
  refine ⟨T, z, hT, hz, hc, ?_⟩
  rw [hw]
  intro w' u
  have hu : u = finishIdle 0 w := by
    simp only [u, w']
    rw [hws, ← u16_request]
    rfl
  rw [hu]
  refine ⟨hwc ▸ hle, hwc ▸ hge, hqueue, ?_⟩
  cases got with
  | false =>
    have hshort : ¬ 7 ≤ q.length := fun h => nomatch hgot.mpr h
    exact .inl ⟨hwq ▸ Nat.lt_of_not_le hshort, hwc.trans (hexp rfl), hexec hd⟩
  | true =>
    obtain ⟨r, rest, hr⟩ := reply_at_head (hgot.mp rfl)
    refine .inr ⟨r, rest, hwq.trans hr, ?_⟩
    have hdone : exec .read s = .next (finishIdle (readGot w.addr w).1 (readGot w.addr w).2) := by
      rw [haddr]
      exact hexec hd
    rw [readGot_eq_replyTaken (hwq.trans hr), replyTaken] at hdone
    rw [← hcfg, ← haddr, ← hbuf]
    intro v
    cases hdec : decodeReply w.cfg r w.addr <;> rw [hdec] at hdone
    case mismatch => exact .inl ⟨rfl, hdone⟩
    case badCrc => exact .inr (.inl ⟨rfl, hdone⟩)
    case ok x => exact .inr (.inr ⟨x, rfl, hdone⟩)

/-- A queue with a reply at its head holds seven bytes. -/
theorem seven_le_length {q : List Byte} {r : Frame7} {rest : List Byte} (h : q = r.toList ++ rest) :
    7 ≤ q.length := by
  rw [h, List.length_append, Vector.length_toList]
  omega

/-- A queue determines the reply at its head and what is behind it. -/
theorem reply_unique {r r' : Frame7} {rest rest' : List Byte} (h : r.toList ++ rest = r'.toList ++ rest') :
    r = r' ∧ rest = rest' :=
  (List.append_inj h (by rw [Vector.length_toList, Vector.length_toList])).imp_left Vector.toList_inj.mp

/-- Settles O45: `readResult` says on which queue READ times out. -/
theorem readTimesOutExactly : Obligations.ReadTimesOutExactly := by
  intro s p ps hb hp hidle hquiet hs
  obtain ⟨T, z, ⟨-, hT⟩, -, -, hread⟩ := readResult s hb (idles_of_plans hp hidle)
  obtain rfl := hT p ps hp
  obtain ⟨-, -, hqueue, hpaths⟩ := hread
  have hlen := congrArg List.length (hqueue hquiet hs)
  rw [List.length_take, List.length_append, bytesComing, List.length_map] at hlen
  rcases hpaths with ⟨hshort, -, he⟩ | ⟨r, rest, hr, hdec⟩
  · exact ⟨_, he, iff_of_true rfl (by omega)⟩
  have hlong := seven_le_length hr
  rcases hdec with ⟨-, he⟩ | ⟨-, he⟩ | ⟨x, -, he⟩
  · exact ⟨_, he, iff_of_false (show (4 : BitVec 3) ≠ 3 by decide) (by omega)⟩
  · exact ⟨_, he, iff_of_false (show (6 : BitVec 3) ≠ 3 by decide) (by omega)⟩
  · exact ⟨_, he, iff_of_false (show (0 : BitVec 3) ≠ 3 by decide) (by omega)⟩

/-- Settles O46: the transmission keeps the queue (`transmit_quiet`), so the wait ends at once with those seven
bytes. -/
theorem readTakesStaleBytes : Obligations.ReadTakesStaleBytes := by
  intro s p ps r rest hb hp hidle hquiet hstale
  obtain ⟨T, z, ⟨-, hT⟩, hz, hc, hread⟩ := readResult s hb (idles_of_plans hp hidle)
  obtain rfl := hT p ps hp
  have hrxq : z.rxq = s.rxq := (transmit_quiet hz (idles_of_plans hp hidle) hc
    ⟨hquiet.ordered, hquiet.ahead, hquiet.atStart, hquiet.atRelease, hquiet.settled⟩).1
  have hseven : 7 ≤ z.rxq.length := hrxq ▸ seven_le_length hstale
  have hnow := waitRx_now (n := rspMin) s.cfg.tRead (s := { z with ph := .rxWait }) hseven
  rw [hnow] at hread
  obtain ⟨-, -, -, ⟨hshort, -⟩ | ⟨r', rest', hr, hdec⟩⟩ := hread
  · exact absurd hseven (Nat.not_le_of_lt hshort)
  obtain ⟨rfl, rfl⟩ := reply_unique ((hrxq.trans hstale).symm.trans hr)
  rcases hdec with ⟨hd, he⟩ | ⟨hd, he⟩ | ⟨x, hd, he⟩
  · exact ⟨_, he, hc, rfl, rfl, fun y hy => absurd (hd.symm.trans hy) nofun⟩
  · exact ⟨_, he, hc, rfl, rfl, fun y hy => absurd (hd.symm.trans hy) nofun⟩
  · exact ⟨_, he, hc, rfl, rfl, fun y hy => ⟨rfl, Decoded.ok.inj (hd.symm.trans hy)⟩⟩

/-! ## What the registers of the command do not touch

DISCOVER and READ_RETRY run the procedures of PROBE and READ under another latched command. The procedures read none of
the registers that the sequencer keeps for the command, so they do the same whatever these are. -/

/-- The registers the sequencer keeps for the command in progress, `CI` apart. -/
structure Latch where
  op : BitVec 4
  idx : BitVec 4
  arg : Byte
  att : BitVec 8
  err : BitVec 3
  busy : Bool
  done : Bool
  ph : Phase

/-- The state with those registers. -/
def latch (l : Latch) (s : State) : State :=
  { s with
    op := l.op, idx := l.idx, arg := l.arg, att := l.att, err := l.err, busy := l.busy, done := l.done, ph := l.ph }

/-- Those registers when a command has ended with code `e`. -/
def Latch.ended (op : BitVec 4) (arg : Byte) (att : BitVec 8) (e : BitVec 3) : Latch :=
  ⟨op, 0, arg, att, e, false, true, .idle⟩

/-- An operation that neither reads nor writes those registers. -/
def Blind (f : State → State) : Prop := ∀ l s, f (latch l s) = latch l (f s)

theorem blind_queueByte (b : Byte) : Blind (queueByte b) := by
  intro l s
  unfold queueByte
  rw [apply_ite (latch l)]
  rfl

theorem blind_drawByte : Blind drawByte := by
  intro l s
  have hd : (latch l s).draws = s.draws := rfl
  unfold drawByte
  rw [hd]
  cases Config.straddle s.draws with
  | none => rfl
  | some b => exact blind_queueByte b l { s with draws := s.draws + 1 }

theorem blind_deliver (a : Arrival) : Blind (deliver a) := by
  intro l s
  unfold deliver
  rw [blind_drawByte, blind_queueByte, apply_ite (latch l), apply_ite (latch l)]
  rfl

theorem blind_deliverBefore (t : Nat) (as : List Arrival) : Blind (deliverBefore t as) := by
  induction as with
  | nil => exact fun _ _ => rfl
  | cons a as ih =>
    intro l s
    unfold deliverBefore
    rw [blind_deliver, ih, apply_ite (latch l)]
    rfl

theorem blind_elapse (n : Nat) : Blind (elapse n) := by
  intro l s
  have hb := blind_deliverBefore (s.clock + n) s.arrivals l s
  unfold elapse
  rw [apply_ite (latch l)]
  exact congrArg (fun t => if n = 0 then latch l s else { t with clock := s.clock + n, fresh := 0, missed := 0 }) hb

theorem blind_delay (T : BitVec 16) : Blind (delay T) := fun l s =>
  congrArg (fun t : State => { t with tmr := 0 }) (blind_elapse T.toNat l { s with tmr := T })

theorem blind_reach (t : Nat) : Blind (reach t) := by
  intro l s
  unfold reach
  rw [apply_ite (latch l)]
  rfl

theorem waitUntil_latch (n d : Nat) (as : List Arrival) (l : Latch) (s : State) :
    waitUntil n d as (latch l s) = (waitUntil n d as s).map id (latch l) := by
  induction as generalizing s with
  | nil =>
    unfold waitUntil
    rw [blind_reach, apply_ite (Prod.map id (latch l))]
    rfl
  | cons a as ih =>
    have hstep : deliver a (reach a.time { latch l s with arrivals := as }) =
        latch l (deliver a (reach a.time { s with arrivals := as })) := by
      rw [← blind_deliver, ← blind_reach]
      rfl
    unfold waitUntil
    rw [hstep, ih, blind_reach, apply_ite (Prod.map id (latch l)), apply_ite (Prod.map id (latch l))]
    rfl

theorem waitRx_latch (n : Nat) (T : BitVec 16) (l : Latch) (s : State) :
    waitRx n T (latch l s) = (waitRx n T s).map id (latch l) := by
  have hw := waitUntil_latch n (s.clock + T.toNat) s.arrivals l s
  unfold waitRx
  exact congrArg (fun w : Bool × State => (w.1, { w.2 with tmr := T - BitVec.ofNat 16 (w.2.clock - s.clock) })) hw

theorem blind_drawMissed (n : Nat) : Blind (drawMissed n) := by
  induction n with
  | zero => exact fun _ _ => rfl
  | succ n ih => exact fun l s => (congrArg (drawMissed n) (blind_drawByte l s)).trans (ih l _)

theorem blind_release : Blind release := by
  intro l s
  have hd := blind_drawMissed s.missed l s
  exact congrArg (fun t : State => emit (.sent s.txbuf)
    { t with de := false, rdis := false, dirAt := some s.clock, missed := 0, plans := s.plans.tail }) hd

theorem blind_uartWrite : Blind uartWrite := by
  intro l s
  unfold uartWrite
  rw [apply_dite (latch l)]
  rfl

theorem blind_openPlan : Blind openPlan := by
  intro l s
  have hp : (latch l s).plans = s.plans := rfl
  unfold openPlan
  rw [hp]
  cases s.plans <;> rfl

/-- A tick at whose end `TXPEND` becomes what `g` makes of it. -/
theorem blind_tick (g : Nat → Nat) : Blind fun s => { elapse 1 s with txpend := g (elapse 1 s).txpend } := fun l s =>
  congrArg (fun t : State => { t with txpend := g t.txpend }) (blind_elapse 1 l s)

theorem blind_awaitReady (hs : List SerialTick) : Blind (awaitReady hs) := by
  induction hs with
  | nil => exact fun _ _ => rfl
  | cons t ts ih =>
    intro l s
    unfold awaitReady
    cases t.taken with
    | succ k => rfl
    | zero =>
      have ht := blind_tick (· - t.ended) l (setPlan { plan s with hand := ts } s)
      exact (congrArg (awaitReady ts) ht).trans (ih l _)

theorem blind_writeBytes (n : Nat) : Blind (writeBytes n) := by
  induction n with
  | zero => exact fun _ _ => rfl
  | succ n ih =>
    intro l s
    have hw : uartWrite (awaitReady (plan s).hand (latch l s)) = latch l (uartWrite (awaitReady (plan s).hand s)) := by
      rw [blind_awaitReady, blind_uartWrite]
    exact (congrArg (writeBytes n) hw).trans (ih l _)

theorem blind_drainTicks (es : List Nat) : Blind (drainTicks es) := by
  induction es with
  | nil => exact fun _ _ => rfl
  | cons e es ih =>
    intro l s
    have ht := blind_tick (pendAfter · e) l (setPlan { plan s with drain := es } s)
    exact (congrArg (drainTicks es) ht).trans (ih l _)

/-! The transmit sequence sets the phase itself, whatever it was. -/

theorem startTx_latch (l : Latch) (s : State) : startTx (latch l s) = latch { l with ph := .txPre } (startTx s) := rfl

theorem plan_latch (l : Latch) (s : State) : plan (latch l s) = plan s := rfl

theorem enterData_latch (l : Latch) (s : State) :
    enterData (latch l s) = latch { l with ph := .txData } (enterData s) :=
  congrArg (fun t : State => { t with ph := .txData, txi := 0 }) (blind_openPlan l s)

theorem enterDrain_latch (l : Latch) (s : State) :
    enterDrain (latch l s) = latch { l with ph := .txDrain } (enterDrain s) := rfl

theorem enterPost_latch (l : Latch) (s : State) :
    enterPost (latch l s) = latch { l with ph := .txPost } (enterPost s) := rfl

theorem blind_lastTick : Blind lastTick := blind_tick fun _ => 0

theorem handOver_latch (l : Latch) (s : State) :
    handOver (latch l s) = latch { l with ph := .txDrain } (handOver s) := by
  have hcfg : (latch l s).cfg = s.cfg := rfl
  rw [handOver, handOver, startTx_latch, hcfg, blind_delay, enterData_latch, blind_writeBytes, enterDrain_latch]

theorem drained_latch (l : Latch) (s : State) : drained (latch l s) = latch { l with ph := .txDrain } (drained s) := by
  rw [drained, drained, handOver_latch, plan_latch, blind_drainTicks]

theorem transmit_latch {s z : State} (h : transmit s = .ended () z) (l : Latch) :
    transmit (latch l s) = .ended () (latch { l with ph := .txPost } z) := by
  rw [transmit_eq] at h ⊢
  rw [drained_latch, plan_latch, blind_lastTick, enterPost_latch]
  have hcfg (l : Latch) (s : State) : (latch l s).cfg = s.cfg := rfl
  rw [hcfg, blind_delay, blind_release]
  by_cases hi : (plan (drained s)).idles = true
  · rw [if_pos hi] at h ⊢
    rw [(Ran.ended.inj h).2]
  · rw [if_neg hi] at h
    cases h

theorem loadFrame_latch (f : Frame8) (l : Latch) (s : State) : loadFrame f (latch l s) = latch l (loadFrame f s) := rfl

theorem blind_takeInto (i : Nat) : Blind (takeInto i) := by
  intro l s
  have hq : (latch l s).rxq = s.rxq := rfl
  unfold takeInto
  rw [hq]
  cases s.rxq <;> rfl

theorem blind_takeReply : Blind takeReply := by
  intro l s
  simp only [takeReply, List.foldl_cons, List.foldl_nil, blind_takeInto _ l]

theorem blind_receiveReply : Blind receiveReply := by
  intro l s
  unfold receiveReply
  rw [blind_takeReply]
  rfl

theorem readGot_latch (a : Byte) (l : Latch) (s : State) :
    readGot a (latch l s) = (readGot a s).map id (latch l) := by
  have hdec (u : State) : decodeReply (latch l u).cfg (replyOf (latch l u)) a = decodeReply u.cfg (replyOf u) a := rfl
  unfold readGot
  dsimp only
  rw [blind_receiveReply, hdec]
  cases decodeReply (receiveReply s).cfg (replyOf (receiveReply s)) a <;> rfl

/-- The wait sets the phase too. -/
theorem wait_latch {n : Nat} {T : BitVec 16} {z w : State} {got : Bool}
    (hw : waitRx n T { z with ph := .rxWait } = (got, w)) (l : Latch) :
    waitRx n T { latch l z with ph := .rxWait } = (got, latch { l with ph := .rxWait } w) := by
  change waitRx n T (latch { l with ph := .rxWait } { z with ph := .rxWait }) = _
  rw [waitRx_latch, hw]
  rfl

theorem doRead_latch {s t : State} {r : BitVec 3} (h : doRead s = .ended r t) (l : Latch) :
    doRead (latch l s) = .ended r (latch { l with ph := .rxWait } t) := by
  cases hz : transmit (buildRead s) with
  | hung u => cases (doRead_hung hz).symm.trans h
  | ended _ z =>
    rcases hw : waitRx rspMin z.cfg.tRead { z with ph := .rxWait } with ⟨got, w⟩
    rw [doRead_ended hz hw] at h
    rw [doRead_ended (s := latch l s) (transmit_latch hz l) (wait_latch hw _)]
    cases got with
    | false =>
      obtain ⟨rfl, rfl⟩ := Ran.ended.inj h
      rfl
    | true =>
      obtain ⟨rfl, rfl⟩ := Ran.ended.inj h
      change Ran.ended (readGot w.addr (latch _ w)).1 (readGot w.addr (latch _ w)).2 = _
      rw [readGot_latch]
      rfl

theorem doProbe_latch {c : Byte} {s t : State} {r : BitVec 3} (h : doProbe c s = .ended r t) (l : Latch) :
    doProbe c (latch l s) = .ended r (latch { l with ph := .rxWait } t) := by
  cases hz : transmit (buildProbe c s) with
  | hung u => cases (doProbe_hung hz).symm.trans h
  | ended _ z =>
    rcases hw : waitRx 1 z.cfg.tProbe { z with ph := .rxWait } with ⟨got, w⟩
    rw [doProbe_ended hz hw] at h
    rw [doProbe_ended (s := latch l s) (transmit_latch hz l) (wait_latch hw _)]
    cases got <;> obtain ⟨rfl, rfl⟩ := Ran.ended.inj h <;> rfl

/-! ## READ_RETRY -/

theorem AlwaysIdles.idles {s : State} (h : AlwaysIdles s) : Idles s := by
  by_contra hi
  obtain ⟨p, hp, hn⟩ := exists_plan_of_not_idles hi
  rw [h p hp] at hn
  cases hn

/-- What `k` read attempts leave, the last of them with outcome `r` (`43_transactions.md` R195, R199). -/
structure Attempts (k : Nat) (s : State) (r : BitVec 3) (t : State) : Prop where
  plans : t.plans ⊆ s.plans
  latched : t.op = s.op ∧ t.idx = s.idx ∧ t.arg = s.arg
  released : t.de = false ∧ t.rdis = false ∧ t.txpend = 0
  txbuf : t.txbuf = request s.addr
  txd : t.txd = s.txd ++ (List.replicate k (request s.addr).toList).flatten
  code : r = 0 ∨ r = 3 ∨ r = 4 ∨ r = 6
  last : t.trace.getLast? = some (if r = 0 then .reading t.raw else .error r)
  grows : s.trace <+: t.trace
  keeps : t.addr = s.addr ∧ t.conf = s.conf ∧ t.frameOk = s.frameOk ∧ t.ci = s.ci ∧ t.rxbuf[7] = s.rxbuf[7] ∧
    t.cfg = s.cfg

/-- The code a read ends with is the one its last event reports. -/
theorem readGot_reports (a : Byte) (s : State) :
    ((readGot a s).1 = 0 ∨ (readGot a s).1 = 4 ∨ (readGot a s).1 = 6) ∧ (readGot a s).2.trace.getLast? =
      some (if (readGot a s).1 = 0 then .reading (readGot a s).2.raw else .error (readGot a s).1) := by
  rw [readGot]
  rcases decodeReply (receiveReply s).cfg (replyOf (receiveReply s)) a with _ | _ | v
  · exact ⟨.inr (.inl rfl), List.getLast?_concat⟩
  · exact ⟨.inr (.inr rfl), List.getLast?_concat⟩
  · exact ⟨.inl rfl, List.getLast?_concat⟩

/-- A transmission that ends, the wait, and what READ makes of it: an attempt. -/
theorem doRead_attempt (a : BitVec 8) {s : State} (hi : Idles s) :
    ∃ r t, doRead { s with att := a } = .ended r t ∧ t.att = a ∧ Attempts 1 s r t := by
  obtain ⟨got, T, q, f, d, as, c, tm, z, w, hw, -, -, -, hd, -⟩ := doRead_eq { s with att := a } hi
  have hplans : s.plans.tail ⊆ s.plans := fun p hp => List.mem_of_mem_tail hp
  have htxd : s.txd ++ (request s.addr).toList = s.txd ++ (List.replicate 1 (request s.addr).toList).flatten := by simp
  rw [hd]
  cases got with
  | false =>
    subst hw
    exact ⟨3, _, rfl, rfl, hplans, ⟨rfl, rfl, rfl⟩, ⟨rfl, rfl, rfl⟩, rfl, htxd, .inr (.inl rfl),
      List.getLast?_concat, (List.prefix_append _ _).trans (List.prefix_append _ _), rfl, rfl, rfl, rfl, rfl, rfl⟩
  | true =>
    refine ⟨_, _, if_pos rfl, ?_⟩
    obtain ⟨hcode, hlast⟩ := readGot_reports s.addr w
    obtain ⟨_, x, _, _, _, es, v, hg, -, hx, -⟩ := readGot_frame s.addr w
    rw [hg] at hlast ⊢
    subst hw
    exact ⟨rfl, hplans, ⟨rfl, rfl, rfl⟩, ⟨rfl, rfl, rfl⟩, rfl, htxd, hcode.imp_right .inr, hlast,
      (List.prefix_append _ _).trans (List.prefix_append _ _), rfl, rfl, rfl, rfl, hx, rfl⟩

/-- A first attempt, the backoff, and further attempts. -/
theorem Attempts.after {k : Nat} {a : BitVec 8} {s t u : State} {r r' : BitVec 3} (h : Attempts 1 s r u)
    (h' : Attempts k { backoffDelay u with att := a } r' t) : Attempts (k + 1) s r' t := by
  obtain ⟨q, f, m, d, as, hb, -⟩ := delay_eq u.cfg.tBackoff { u with ph := .backoff }
  rw [backoffDelay, hb] at h'
  obtain ⟨plans, ⟨hop, hidx, harg⟩, -, -, txd, -, -, grows, haddr, hconf, hok, hci, hslot, hcfg⟩ := h
  obtain ⟨plans', ⟨hop', hidx', harg'⟩, released, txbuf, txd', code, last, grows', haddr', hconf', hok', hci',
    hslot', hcfg'⟩ := h'
  refine ⟨List.Subset.trans plans' plans, ⟨hop'.trans hop, hidx'.trans hidx, harg'.trans harg⟩, released,
    haddr ▸ txbuf, ?_, code, last, grows.trans grows', haddr'.trans haddr, hconf'.trans hconf, hok'.trans hok,
    hci'.trans hci, hslot'.trans hslot, hcfg'.trans hcfg⟩
  rw [txd']
  change u.txd ++ (List.replicate k (request u.addr).toList).flatten = _
  rw [txd, haddr]
  simp [List.replicate_succ]

theorem Attempts.setNodata {k : Nat} {s t : State} {r : BitVec 3} {b : Bool} (h : Attempts k s r t) :
    Attempts k s r { t with nodata := b } :=
  ⟨h.plans, h.latched, h.released, h.txbuf, h.txd, h.code, h.last, h.grows, h.keeps⟩

theorem Attempts.alwaysIdles {k : Nat} {s t : State} {r : BitVec 3} (h : Attempts k s r t) (hi : AlwaysIdles s) :
    AlwaysIdles t := fun p hp => hi p (h.plans hp)

theorem AlwaysIdles.delay {s : State} (h : AlwaysIdles s) (T : BitVec 16) : AlwaysIdles (delay T s) := by
  obtain ⟨q, f, m, d, as, hd, -⟩ := delay_eq T s
  rw [hd]
  exact h

/-- An attempt ends the retry exactly with code 0 and a reading that passes. -/
theorem satisfied_iff {r : BitVec 3} {s : State} : satisfied r s = true ↔ r = 0 ∧ passes s.cfg s.raw = true := by
  simp [satisfied, Kind.code]

/-- READ_RETRY from attempt number `att` on: the attempts it makes, and what it reports of the last. -/
theorem retryFrom_attempts (more att : Nat) {s : State} (hi : AlwaysIdles s) :
    ∃ r t j, retryFrom more att s = .ended r t ∧ j ≤ more ∧ t.att = BitVec.ofNat 8 (att + j) ∧
      Attempts (j + 1) s r t ∧ (t.nodata = false ↔ satisfied r t = true) ∧ (t.nodata = true → j = more) := by
  obtain ⟨r, t, hd, hatt, h⟩ := doRead_attempt (BitVec.ofNat 8 att) hi.idles
  cases hs : satisfied r t with
  | true =>
    exact ⟨r, _, 0, retryFrom_satisfied hd hs, Nat.zero_le _, hatt, h.setNodata, iff_of_true rfl hs, nofun⟩
  | false =>
    cases more with
    | zero =>
      have hn : ¬ satisfied r t = true := by simp [hs]
      exact ⟨r, _, 0, retryFrom_last hd hs, le_rfl, hatt, h.setNodata, iff_of_false nofun hn, fun _ => rfl⟩
    | succ more =>
      have hnext : AlwaysIdles (backoffDelay t) :=
        AlwaysIdles.delay (s := { t with ph := .backoff }) (h.alwaysIdles hi) _
      obtain ⟨r', t', j, hr, hj, hatt', h', hn⟩ := retryFrom_attempts more (att + 1) hnext
      have hnum : att + 1 + j = att + (j + 1) := by omega
      exact ⟨r', t', j + 1, (retryFrom_next hd hs).trans hr, Nat.succ_le_succ hj, hnum ▸ hatt',
        Attempts.after (a := (backoffDelay t).att) h h', hn.1, fun hx => congrArg Nat.succ (hn.2 hx)⟩

/-- Settles O47: the loop of READ_RETRY attempt by attempt (`retryFrom_attempts`). -/
theorem readRetryResult : Obligations.ReadRetryResult := by
  intro s hb hi
  obtain ⟨r, t, j, hr, hj, hatt, h, hsat, hlast⟩ :=
    retryFrom_attempts (s.cfg.nAttempts - 1) 1 (s := accept 0xB 0 0 s) hi
  obtain ⟨-, ⟨hop, hidx, harg⟩, ⟨hde, hrdis, hpend⟩, txbuf, txd, code, last, grows, haddr, hconf, hok, hci, hslot,
    hcfg⟩ := h
  have hpos := s.cfg.attempts_pos
  rw [satisfied_iff, hcfg] at hsat
  rw [Nat.add_comm] at hatt
  have hall (hn : t.nodata = true) : j + 1 = s.cfg.nAttempts := by have := hlast hn; omega
  exact ⟨finishIdle r t, j + 1, timed_ended hb hr, by omega, by omega, hatt, rfl, rfl, rfl, hde, hrdis, hpend, hop,
    hidx, harg, txbuf, txd, code, last, hsat, hall, grows, haddr, hconf, hok, hci, hslot, hcfg⟩

/-! ### READ again and again -/

/-- READ that is taken and ends, by what `DoRead` does under any command. -/
theorem exec_read_ended {s u : State} {r : BitVec 3} (hb : s.busy = false) (h : doRead s = .ended r u) :
    exec .read s = .next (latch (.ended 0xA 0 s.att r) u) :=
  timed_ended hb (doRead_latch h ⟨0xA, 0, 0, s.att, s.err, true, false, s.ph⟩)

theorem readsUntil_satisfied {more att : Nat} {s t : State} (h : exec .read s = .next t)
    (ht : t.err = 0 ∧ passes t.cfg t.raw = true) :
    readsUntil more att s = some { t with att := BitVec.ofNat 8 att, nodata := false } := by
  rw [readsUntil, h]
  exact if_pos ht

theorem readsUntil_last {att : Nat} {s t : State} (h : exec .read s = .next t)
    (ht : ¬ (t.err = 0 ∧ passes t.cfg t.raw = true)) :
    readsUntil 0 att s = some { t with att := BitVec.ofNat 8 att, nodata := true } := by
  rw [readsUntil, h]
  exact if_neg ht

theorem readsUntil_next {more att : Nat} {s t : State} (h : exec .read s = .next t)
    (ht : ¬ (t.err = 0 ∧ passes t.cfg t.raw = true)) :
    readsUntil (more + 1) att s = readsUntil more (att + 1) (delay t.cfg.tBackoff t) := by
  rw [readsUntil, h]
  exact if_neg ht

/-- A delay after one command is the delay after another. -/
theorem delay_latch_latch (T : BitVec 16) (l m : Latch) (s : State) :
    delay T (latch l s) = latch l (delay T (latch m s)) := by
  rw [blind_delay T l, blind_delay T m]
  rfl

/-- A delay after a command has ended: the next one can be taken. -/
theorem delay_ended (T : BitVec 16) (op : BitVec 4) (arg : Byte) (att : BitVec 8) (e : BitVec 3) {u : State}
    (hi : AlwaysIdles u) : (delay T (latch (.ended op arg att e) u)).busy = false ∧
      AlwaysIdles (delay T (latch (.ended op arg att e) u)) ∧ (delay T (latch (.ended op arg att e) u)).att = att := by
  rw [blind_delay]
  exact ⟨rfl, hi.delay T, rfl⟩

/-- The loop of READ_RETRY under its own latched command leaves what READ again and again leaves, but for `OP`. -/
theorem readsUntil_retryFrom (more att : Nat) {s : State} {l : Latch} (hb : s.busy = false) (hi : AlwaysIdles s)
    (hidx : l.idx = 0) (harg : l.arg = 0) : ∃ v r t, readsUntil more att s = some v ∧
      retryFrom more att (latch l s) = .ended r t ∧ finishIdle r t = { v with op := l.op } := by
  obtain ⟨r, u, hd, -, h⟩ := doRead_attempt s.att hi.idles
  change doRead s = .ended r u at hd
  have hread := exec_read_ended hb hd
  have hretry : doRead { latch l s with att := BitVec.ofNat 8 att } = _ :=
    doRead_latch hd { l with att := BitVec.ofNat 8 att }
  cases hs : satisfied r u with
  | true =>
    refine ⟨_, _, _, readsUntil_satisfied hread (satisfied_iff.mp hs), retryFrom_satisfied hretry hs, ?_⟩
    rw [latch, hidx, harg]
    rfl
  | false =>
    have hn : ¬ (r = 0 ∧ passes u.cfg u.raw = true) := fun hx => by rw [satisfied_iff.mpr hx] at hs; cases hs
    cases more with
    | zero =>
      refine ⟨_, _, _, readsUntil_last hread hn, retryFrom_last hretry hs, ?_⟩
      rw [latch, hidx, harg]
      rfl
    | succ more =>
      rw [readsUntil_next hread hn, retryFrom_next hretry hs]
      obtain ⟨hfree, hidles, -⟩ := delay_ended u.cfg.tBackoff 0xA 0 s.att r (h.alwaysIdles hi)
      obtain ⟨v, r', t', hv, ht', he⟩ := readsUntil_retryFrom more (att + 1)
        (l := { l with att := BitVec.ofNat 8 att, ph := .backoff }) hfree hidles hidx harg
      have hback : backoffDelay (latch { l with att := BitVec.ofNat 8 att, ph := .rxWait } u) =
          latch { l with att := BitVec.ofNat 8 att, ph := .backoff }
            (delay u.cfg.tBackoff (latch (.ended 0xA 0 s.att r) u)) :=
        delay_latch_latch u.cfg.tBackoff { l with att := BitVec.ofNat 8 att, ph := .backoff } (.ended 0xA 0 s.att r) u
      rw [hback]
      exact ⟨v, r', t', hv, ht', he⟩

/-- Settles O48: the two loops side by side (`readsUntil_retryFrom`). -/
theorem readRetryIsRepeatedRead : Obligations.ReadRetryIsRepeatedRead := by
  intro s hb hi
  obtain ⟨v, r, t, hv, ht, he⟩ := readsUntil_retryFrom (s.cfg.nAttempts - 1) 1
    (l := ⟨0xB, 0, 0, s.att, s.err, true, false, s.ph⟩) hb hi rfl rfl
  exact ⟨v, hv, (timed_ended (body := fun s => retryFrom (s.cfg.nAttempts - 1) 1 s) hb ht).trans (congrArg _ he)⟩

/-! ## DISCOVER -/

/-- What probes leave alone, but for `CI`, `ADDR`, `CONF` and the trace (`43_transactions.md` R191, R193). -/
structure Probed (s t : State) : Prop where
  plans : t.plans ⊆ s.plans
  latched : t.op = s.op ∧ t.idx = s.idx ∧ t.arg = s.arg
  buffers : t.rxbuf = s.rxbuf ∧ t.raw = s.raw
  flags : t.frameOk = s.frameOk ∧ t.rspCrcOk = s.rspCrcOk ∧ t.nodata = s.nodata
  counters : t.att = s.att ∧ t.cfg = s.cfg

theorem Probed.trans {s t u : State} (h : Probed s t) (h' : Probed t u) : Probed s u := by
  obtain ⟨plans, ⟨hop, hidx, harg⟩, ⟨hbuf, hraw⟩, ⟨hok, hrsp, hno⟩, hatt, hcfg⟩ := h
  obtain ⟨plans', ⟨hop', hidx', harg'⟩, ⟨hbuf', hraw'⟩, ⟨hok', hrsp', hno'⟩, hatt', hcfg'⟩ := h'
  exact ⟨List.Subset.trans plans' plans, ⟨hop'.trans hop, hidx'.trans hidx, harg'.trans harg⟩,
    ⟨hbuf'.trans hbuf, hraw'.trans hraw⟩, ⟨hok'.trans hok, hrsp'.trans hrsp, hno'.trans hno⟩, hatt'.trans hatt,
    hcfg'.trans hcfg⟩

/-- The lines released and the serialiser idle. -/
def LinesFree (s : State) : Prop := s.de = false ∧ s.rdis = false ∧ s.txpend = 0

/-- Candidate number `i` answers and is adopted. -/
structure Adopted (i : Nat) (c : Byte) (t : State) : Prop where
  addr : t.addr = c
  conf : t.conf = true
  index : t.ci = BitVec.ofNat 8 i
  txbuf : t.txbuf = request c

/-- A probe of candidate number `i`, answered or not. -/
theorem doProbe_candidate (i : Nat) (c : Byte) {s : State} (hi : Idles s) :
    ∃ r t, doProbe c { s with ci := BitVec.ofNat 8 i } = .ended r t ∧ Probed s t ∧ LinesFree t ∧
      (r = 0 ∧ Adopted i c t ∧ t.trace = s.trace ++ [.sent (request c), .discovered c] ∨
        r = 3 ∧ t.addr = s.addr ∧ t.conf = s.conf ∧ t.trace = s.trace ++ failedProbeEvents c) := by
  obtain ⟨got, T, q, f, d, as, ck, tm, z, w, rfl, -, -, -, hd, -⟩ :=
    doProbe_eq c { s with ci := BitVec.ofNat 8 i } hi
  have hplans : s.plans.tail ⊆ s.plans := fun p hp => List.mem_of_mem_tail hp
  refine ⟨_, _, hd, ⟨hplans, ⟨rfl, rfl, rfl⟩, ⟨rfl, rfl⟩, ⟨rfl, rfl, rfl⟩, rfl, rfl⟩,
    ⟨rfl, rfl, rfl⟩, ?_⟩
  cases got with
  | true => exact .inl ⟨rfl, ⟨rfl, rfl, rfl, rfl⟩, rfl⟩
  | false => exact .inr ⟨rfl, rfl, rfl, rfl⟩

/-- The delay between two probes changes none of this. -/
theorem gapDelay_probed (s : State) : Probed s (gapDelay s) ∧ (gapDelay s).addr = s.addr ∧
    (gapDelay s).conf = s.conf ∧ (gapDelay s).trace = s.trace := by
  obtain ⟨q, f, m, d, as, h, -⟩ := delay_eq s.cfg.tGap { s with ph := .gap }
  rw [gapDelay, h]
  exact ⟨⟨fun _ hp => hp, ⟨rfl, rfl, rfl⟩, ⟨rfl, rfl⟩, ⟨rfl, rfl, rfl⟩, rfl, rfl⟩, rfl, rfl, rfl⟩

/-- DISCOVER from candidate number `i` on: it ends with the first that answers, or after the last (`43_transactions.md`
R193). -/
theorem discoverFrom_probes (i : Nat) (c : Byte) (cs : List Byte) {s : State} (hi : AlwaysIdles s) :
    ∃ r t, discoverFrom i (c :: cs) s = .ended r t ∧ Probed s t ∧ LinesFree t ∧
      ((∃ j x, (c :: cs)[j]? = some x ∧ r = 0 ∧ Adopted (i + j) x t ∧ t.trace = s.trace ++
          ((c :: cs).take j).flatMap failedProbeEvents ++ [.sent (request x), .discovered x]) ∨
        (r = 2 ∧ t.addr = s.addr ∧ t.conf = s.conf ∧
          t.trace = s.trace ++ (c :: cs).flatMap failedProbeEvents ++ [.error 2])) := by
  obtain ⟨r, u, hd, hp, hfree, ⟨rfl, had, htr⟩ | ⟨rfl, haddr, hconf, htr⟩⟩ := doProbe_candidate i c hi.idles
  · exact ⟨0, u, discoverFrom_got hd, hp, hfree, .inl ⟨0, c, rfl, rfl, had, by simpa using htr⟩⟩
  cases cs with
  | nil =>
    refine ⟨2, _, discoverFrom_last hd, ⟨hp.plans, hp.latched, hp.buffers, hp.flags, hp.counters⟩, hfree,
      .inr ⟨rfl, haddr, hconf, ?_⟩⟩
    simp [htr]
  | cons c' cs =>
    obtain ⟨hg, hgaddr, hgconf, hgtr⟩ := gapDelay_probed u
    have hidle : AlwaysIdles (gapDelay u) := fun p h => hi p (hp.plans (hg.plans h))
    obtain ⟨r, t, ht, hp', hfree', hend⟩ := discoverFrom_probes (i + 1) c' cs hidle
    refine ⟨r, t, (discoverFrom_next hd).trans ht, (hp.trans hg).trans hp', hfree', ?_⟩
    rw [hgtr, htr, hgaddr, haddr, hgconf, hconf] at hend
    rcases hend with ⟨j, x, hx, h0, had, htrace⟩ | ⟨h2, ha, hc, htrace⟩
    · have hj : i + 1 + j = i + (j + 1) := by omega
      exact .inl ⟨j + 1, x, hx, h0, hj ▸ had, by simpa [List.append_assoc] using htrace⟩
    · exact .inr ⟨h2, ha, hc, by simpa [List.append_assoc] using htrace⟩

/-! ### PROBE again and again -/

/-- PROBE that is taken and ends, by what `DoProbe` does under any command. -/
theorem exec_probe_ended {c : Byte} {s u : State} {r : BitVec 3} (hb : s.busy = false) (h : doProbe c s = .ended r u) :
    exec (.probe c) s = .next (latch (.ended 0x8 c s.att r) u) :=
  timed_ended hb (doProbe_latch h ⟨0x8, 0, c, s.att, s.err, true, false, s.ph⟩)

theorem probesUntil_got {i : Nat} {c : Byte} {cs : List Byte} {s t : State}
    (h : exec (.probe c) { s with ci := BitVec.ofNat 8 i } = .next t) (ht : t.err = 0) :
    probesUntil i (c :: cs) s = some t := by
  rw [probesUntil, h]
  exact if_pos ht

theorem probesUntil_failed {i : Nat} {c : Byte} {cs : List Byte} {s t : State}
    (h : exec (.probe c) { s with ci := BitVec.ofNat 8 i } = .next t) (ht : t.err ≠ 0) :
    probesUntil i (c :: cs) s = probesUntil (i + 1) cs (if cs.isEmpty then t else delay t.cfg.tGap t) := by
  rw [probesUntil, h]
  exact if_neg ht

/-- The loop of DISCOVER under its own latched command leaves what PROBE again and again leaves, but for the latched
fields. -/
theorem probesUntil_discoverFrom (i : Nat) (c : Byte) (cs : List Byte) {s : State} {l : Latch} (hb : s.busy = false)
    (hi : AlwaysIdles s) (hatt : l.att = s.att) : ∃ v r t, probesUntil i (c :: cs) s = some v ∧
      discoverFrom i (c :: cs) (latch l s) = .ended r t ∧
      finishIdle r t = { v with op := l.op, idx := l.idx, arg := l.arg } := by
  obtain ⟨r, u, hd, hp, -, hcode⟩ := doProbe_candidate i c hi.idles
  have hprobe := exec_probe_ended (s := { s with ci := BitVec.ofNat 8 i }) hb hd
  have hdisc : doProbe c { latch l s with ci := BitVec.ofNat 8 i } = _ := doProbe_latch hd l
  rcases hcode with ⟨rfl, -⟩ | ⟨rfl, -⟩
  · refine ⟨_, _, _, probesUntil_got hprobe rfl, discoverFrom_got hdisc, ?_⟩
    rw [latch, hatt]
    rfl
  have herr : (3 : BitVec 3) ≠ 0 := by decide
  cases cs with
  | nil =>
    refine ⟨_, _, _, (probesUntil_failed hprobe herr).trans rfl, discoverFrom_last hdisc, ?_⟩
    rw [latch, hatt]
    rfl
  | cons c' cs =>
    rw [probesUntil_failed hprobe herr, discoverFrom_next hdisc]
    have hnext : AlwaysIdles u := fun p h => hi p (hp.plans h)
    obtain ⟨hfree, hidles, hatt'⟩ := delay_ended u.cfg.tGap 0x8 c s.att 3 hnext
    obtain ⟨v, r, t, hv, ht, he⟩ := probesUntil_discoverFrom (i + 1) c' cs (l := { l with ph := .gap }) hfree hidles
      (hatt.trans hatt'.symm)
    have hgap : gapDelay (latch { l with ph := .rxWait } u) =
        latch { l with ph := .gap } (delay u.cfg.tGap (latch (.ended 0x8 c s.att 3) u)) :=
      delay_latch_latch u.cfg.tGap { l with ph := .gap } (.ended 0x8 c s.att 3) u
    rw [hgap]
    exact ⟨v, r, t, hv, ht, he⟩

/-- Settles O43: without candidates the loop is empty; else `discoverFrom_probes` says what it comes to, and
`probesUntil_discoverFrom` that it is PROBE repeated. -/
theorem discoverResult : Obligations.DiscoverResult := by
  intro s hb hi
  cases hcand : s.cfg.cand with
  | nil =>
    have hrun : discoverFrom 0 (accept 0x9 0 0 s).cfg.cand (accept 0x9 0 0 s) =
        .ended 2 (emit (.error 2) (accept 0x9 0 0 s)) := by
      change discoverFrom 0 s.cfg.cand _ = _
      rw [hcand]
      rfl
    have hend : finishIdle 2 (emit (.error 2) (accept 0x9 0 0 s)) = { s with
        op := 0x9, idx := 0, arg := 0, ph := .idle, err := 2, trace := s.trace ++ [.error 2], done := true } := by
      cases s
      obtain rfl := hb
      rfl
    refine ⟨_, timed_ended (body := fun s => discoverFrom 0 s.cfg.cand s) hb hrun, rfl, rfl, rfl, rfl, rfl, rfl,
      .inr ⟨rfl, rfl, rfl, by simp, fun _ => hend⟩, nofun, rfl, rfl, rfl, rfl, rfl, rfl, rfl⟩
  | cons c cs =>
    obtain ⟨r, t, ht, hprobed, ⟨hde, hrdis, hpend⟩, hend⟩ := discoverFrom_probes 0 c cs (s := accept 0x9 0 0 s) hi
    obtain ⟨-, ⟨hop, hidx, harg⟩, ⟨hbuf, hraw⟩, ⟨hok, hrsp, hno⟩, hatt, hcfg⟩ := hprobed
    obtain ⟨v, r', t', hv, ht', he⟩ := probesUntil_discoverFrom 0 c cs
      (l := ⟨0x9, 0, 0, s.att, s.err, true, false, s.ph⟩) hb hi rfl
    obtain ⟨rfl, rfl⟩ := Ran.ended.inj (ht.symm.trans ht')
    have hrun : discoverFrom 0 (accept 0x9 0 0 s).cfg.cand (accept 0x9 0 0 s) = .ended r t := by
      change discoverFrom 0 s.cfg.cand _ = _
      rw [hcand]
      exact ht
    refine ⟨_, timed_ended (body := fun s => discoverFrom 0 s.cfg.cand s) hb hrun, rfl, rfl, rfl, hop, hidx, harg, ?_,
      fun _ => ⟨hde, hrdis, hpend, v, hv, he⟩, hbuf, hraw, hok, hrsp, hno, hatt, hcfg⟩
    rcases hend with ⟨j, x, hx, rfl, ⟨haddr, hconf, hci, htx⟩, htr⟩ | ⟨rfl, haddr, hconf, htr⟩
    · exact .inl ⟨j, x, hx, rfl, haddr, hconf, by rw [Nat.zero_add] at hci; exact hci, htx, htr⟩
    · exact .inr ⟨rfl, haddr, hconf, htr, nofun⟩

/-! ## A reply frame that arrives while a command waits -/

/-- What arrives whole in the present tick goes to the queue: the receiver is enabled, and the lines change neither in
this tick before it nor, by `turns`, after it (`20_memory.md` R64, R65). -/
structure Hears (s : State) : Prop where
  before : s.dirAt ≠ some s.clock
  after : s.clock ∉ s.turns
  enabled : s.rdis = false

/-- Bytes that no command waits for are queued. -/
theorem receiveBytes_queued (bs : List Byte) {s : State} (h : Hears s) (hw : s.busy = false ∨ s.ph ≠ .rxWait) :
    ∃ f, bs.foldl (fun s b => receiveByte b s) s = { enqueue bs s with fresh := f } := by
  obtain ⟨f, hf⟩ := deliverAll_queued (as := bs.map fun b => ⟨s.clock, s.clock, b⟩) h.enabled
    (List.forall_mem_map.mpr fun b _ => straddles_present b h.before (.inr h.after))
  have hbytes : (bs.map fun b => (⟨s.clock, s.clock, b⟩ : Arrival)).map (fun a => a.byte) = bs :=
    List.map_map.trans (List.map_id bs)
  rw [receiveBytes_deliverAll bs hw, hf, hbytes]
  exact ⟨f, rfl⟩

/-- A byte that arrives while a command waits for `n` of them is queued, and ends the wait if they are there. -/
theorem receiveByte_waiting {n : Nat} (b : Byte) {s : State} (h : Hears s) (hb : s.busy = true) (hw : Waiting n s) :
    ∃ f, (¬ n ≤ (enqueue [b] s).rxq.length → receiveByte b s = { enqueue [b] s with fresh := f }) ∧
      (n ≤ (enqueue [b] s).rxq.length → ∀ t, rxGot { enqueue [b] s with fresh := f } = .next t →
        receiveByte b s = t) := by
  obtain ⟨f, hf⟩ := queueByte_enqueue b s
  have hd : deliver ⟨s.clock, s.clock, b⟩ s = { enqueue [b] s with fresh := f } :=
    (deliver_queued (straddles_present b h.before (.inr h.after)) h.enabled).trans hf
  have hcount : awaited { enqueue [b] s with fresh := f } = some n := hw.count
  have hwait : (({ enqueue [b] s with fresh := f } : State).busy &&
      ({ enqueue [b] s with fresh := f } : State).ph == .rxWait) = true := by simp [enqueue, hb, hw.phase]
  refine ⟨f, fun hn => ?_, fun hn t ht => ?_⟩ <;> unfold receiveByte <;> dsimp only <;>
    rw [hd, if_pos hwait, hcount]
  · exact if_neg hn
  · exact (if_pos hn).trans (by rw [ht])

/-- The bytes that arrive while a command waits for `n`: the one that brings the count to `n`, or the first if so many
are there, ends the wait, and those after it arrive at what follows. -/
theorem receiveBytes_got {n : Nat} {bs : List Byte} {s : State} (h : Hears s) (hb : s.busy = true) (hw : Waiting n s)
    (hn : n ≤ s.cfg.rxqCap) (hlen : max 1 (n - s.rxq.length) ≤ bs.length) :
    ∃ f, ∀ t, rxGot { enqueue (bs.take (max 1 (n - s.rxq.length))) s with fresh := f } = .next t →
      bs.foldl (fun s b => receiveByte b s) s =
        (bs.drop (max 1 (n - s.rxq.length))).foldl (fun s b => receiveByte b s) t := by
  induction bs generalizing s with
  | nil => simp at hlen
  | cons b bs ih =>
    obtain ⟨f, hmore, hgot⟩ := receiveByte_waiting b h hb hw
    have hq : (enqueue [b] s).rxq.length = s.rxq.length + min (s.cfg.rxqCap - s.rxq.length) 1 := by simp [enqueue]
    by_cases hlast : n ≤ s.rxq.length + 1
    · rw [show max 1 (n - s.rxq.length) = 1 by omega]
      exact ⟨f, fun t ht => congrArg (bs.foldl fun s b => receiveByte b s) (hgot (by omega) t ht)⟩
    · have hstep := hmore (by omega)
      have hcount : max 1 (n - s.rxq.length) = max 1 (n - (enqueue [b] s).rxq.length) + 1 := by omega
      obtain ⟨g, hg⟩ := ih (s := { enqueue [b] s with fresh := f }) ⟨h.before, h.after, h.enabled⟩ hb
        ⟨hw.phase, hw.count⟩ hn (by rw [hcount] at hlen; simpa using hlen)
      refine ⟨g, fun t ht => ?_⟩
      rw [List.foldl_cons, hstep, hcount, List.drop_succ_cons]
      refine hg t (Eq.trans (congrArg rxGot ?_) ht)
      rw [hcount, List.take_succ_cons]
      exact congrArg (fun v : State => { v with fresh := g }) (enqueue_enqueue [b] _ s)

/-- What `replyTaken` leaves alone. -/
theorem replyTaken_keeps (r : Frame7) (rest : List Byte) (s : State) :
    ∃ x c k es v, (replyTaken r rest s).2 =
      { s with rxq := rest, rxbuf := x, crc := c, rspCrcOk := k, trace := s.trace ++ es, raw := v } := by
  unfold replyTaken
  cases decodeReply s.cfg r s.addr <;> exact ⟨_, _, _, _, _, rfl⟩

/-- Taking and decoding the reply at the head of a queue to which bytes have come. -/
theorem readGot_queued {s : State} {q : List Byte} {f : Nat} {r : Frame7} {rest : List Byte}
    (h : q = r.toList ++ rest) :
    readGot s.addr { s with rxq := q, fresh := f } =
      ((replyTaken r rest s).1, { (replyTaken r rest s).2 with fresh := min f rest.length }) := by
  refine (readGot_eq_replyTaken (s := { s with rxq := q, fresh := f }) h).trans ?_
  unfold replyTaken
  cases decodeReply s.cfg r s.addr <;> rfl

/-- The seven bytes of a reply frame. -/
def frameBytes (a n d e l h : Byte) : List Byte := [a, 0x03, n, d, e, l, h]

/-- How many bytes of a frame arrive until a wait for `n` of them ends. -/
def neededBytes (n : Nat) (s : State) : Nat := max 1 (n - s.rxq.length)

/-- A reply frame ends the wait of a command at the byte that brings the count to `k`, and the rest of it arrives
then. -/
theorem replyFrame_got {k : Nat} {a n d e l h : Byte} {s : State} (hh : Hears s) (hb : s.busy = true) (hw : Waiting k s)
    (hk : k ≤ 7) :
    ∃ f, ∀ t, rxGot { enqueue ((frameBytes a n d e l h).take (neededBytes k s)) s with fresh := f } = .next t →
      exec (.replyFrame a n d e l h) s =
        .next (((frameBytes a n d e l h).drop (neededBytes k s)).foldl (fun s b => receiveByte b s) t) := by
  have hcap := s.cfg.cap_ge
  obtain ⟨f, hf⟩ := receiveBytes_got (bs := frameBytes a n d e l h) hh hb hw (by omega) (by change _ ≤ 7; omega)
  exact ⟨f, fun t ht => congrArg Host.Outcome.next (hf t ht)⟩

/-- What READ and READ_RETRY do with the outcome code of a read and the state it leaves. -/
def attemptEnd (op : BitVec 4) (x : BitVec 3 × State) : State :=
  if op = 0xA then finishIdle x.1 x.2 else afterAttempt x.1 x.2

theorem rxGot_attemptEnd {s : State} (hop : s.op = 0xA ∨ s.op = 0xB) :
    rxGot s = .next (attemptEnd s.op (readGot s.addr s)) := by
  rcases hop with hop | hop
  · rw [rxGot_read hop, hop]; rfl
  · rw [rxGot_readRetry hop, hop]; rfl

/-- READ and READ_RETRY take the seven oldest bytes when they are there, and go on with what these decode to. -/
theorem replyFrame_read {a n d e l h : Byte} {s : State} (hh : Hears s) (hb : s.busy = true) (hp : s.ph = .rxWait)
    (hop : s.op = 0xA ∨ s.op = 0xB) {r : Frame7} {rest : List Byte}
    (hq : (enqueue ((frameBytes a n d e l h).take (neededBytes 7 s)) s).rxq = r.toList ++ rest) :
    ∃ f ≤ rest.length, exec (.replyFrame a n d e l h) s =
      .next (((frameBytes a n d e l h).drop (neededBytes 7 s)).foldl (fun s b => receiveByte b s)
        (attemptEnd s.op ((replyTaken r rest s).1, { (replyTaken r rest s).2 with fresh := f }))) := by
  obtain ⟨f, hf⟩ := replyFrame_got (a := a) (n := n) (d := d) (e := e) (l := l) (h := h) (k := 7) hh hb
    ⟨hp, awaited_read hop⟩ le_rfl
  refine ⟨min f rest.length, Nat.min_le_right _ _, hf _ ?_⟩
  rw [← readGot_queued (s := s) (f := f) hq]
  exact rxGot_attemptEnd (s := { enqueue _ s with fresh := f }) hop

/-- What follows those bytes in the frame finds room in the queue. -/
theorem replyFrame_rest {a n d e l h : Byte} {s t : State} {r : Frame7} {rest : List Byte}
    (he : exec (.replyFrame a n d e l h) s =
      .next (((frameBytes a n d e l h).drop (neededBytes 7 s)).foldl (fun s b => receiveByte b s) t))
    (hq : (enqueue ((frameBytes a n d e l h).take (neededBytes 7 s)) s).rxq = r.toList ++ rest)
    (hcap : s.rxq.length ≤ s.cfg.rxqCap) (hcfg : t.cfg = s.cfg) (htq : t.rxq = rest) (hh : Hears t)
    (hw : t.busy = false ∨ t.ph ≠ .rxWait) :
    ∃ f, exec (.replyFrame a n d e l h) s =
      .next { t with rxq := rest ++ (frameBytes a n d e l h).drop (neededBytes 7 s), fresh := f } := by
  have hroom : ((frameBytes a n d e l h).drop (neededBytes 7 s)).length ≤ t.cfg.rxqCap - t.rxq.length := by
    have hlen := congrArg List.length hq
    have hge := s.cfg.cap_ge
    simp only [enqueue, frameBytes, neededBytes, List.length_append, List.length_take, Vector.length_toList,
      List.length_cons, List.length_nil] at hlen
    simp only [frameBytes, neededBytes, List.length_drop, List.length_cons, List.length_nil, hcfg, htq]
    omega
  obtain ⟨f, hf⟩ := receiveBytes_queued _ hh hw
  refine ⟨f, (he.trans (congrArg _ hf)).trans ?_⟩
  rw [enqueue, List.take_of_length_le hroom, htq]

/-- PROBE and DISCOVER end at the first byte, and the frame is queued as far as there is room. -/
theorem replyFrame_probe {a n d e l h c : Byte} {s : State} (hh : Hears s) (hb : s.busy = true) (hp : s.ph = .rxWait)
    (hc : (s.op = 0x8 ∧ c = s.arg) ∨ (s.op = 0x9 ∧ candidate s = some c)) :
    ∃ f, exec (.replyFrame a n d e l h) s = .next { finishIdle 0 (probeGot c s) with
      rxq := s.rxq ++ (frameBytes a n d e l h).take (s.cfg.rxqCap - s.rxq.length), fresh := f } := by
  obtain ⟨before, after, enabled⟩ := hh
  obtain ⟨f, hf⟩ := replyFrame_got (a := a) (n := n) (d := d) (e := e) (l := l) (h := h) ⟨before, after, enabled⟩
    hb ⟨hp, awaited_probe (hc.imp And.left And.left)⟩ (by decide)
  have hneed : neededBytes 1 s = 1 := by rw [neededBytes]; omega
  rw [hneed] at hf
  have hgot : rxGot { enqueue [a] s with fresh := f } =
      .next (finishIdle 0 (probeGot c { enqueue [a] s with fresh := f })) := by
    rcases hc with ⟨hop, rfl⟩ | ⟨hop, hc⟩
    · exact rxGot_probe (s := { enqueue [a] s with fresh := f }) hop
    · exact rxGot_discover (s := { enqueue [a] s with fresh := f }) hop hc
  obtain ⟨g, hg⟩ := receiveBytes_queued ((frameBytes a n d e l h).drop 1)
    (s := finishIdle 0 (probeGot c { enqueue [a] s with fresh := f })) ⟨before, after, enabled⟩ (.inl rfl)
  refine ⟨g, (hf _ hgot).trans (congrArg _ (hg.trans ?_))⟩
  have hall := congrArg State.rxq (enqueue_enqueue [a] ((frameBytes a n d e l h).drop 1) s)
  exact congrArg (fun q => ({ finishIdle 0 (probeGot c s) with rxq := q, fresh := g } : State)) hall

/-- Settles O50: the bytes that end the wait (`replyFrame_read`, `replyFrame_probe`), and those after them, which no
command waits for (`replyFrame_rest`). -/
theorem replyFrameAnswersRead : Obligations.ReplyFrameAnswersRead := by
  refine ⟨fun s a n d e l h hdir hturn hb hp hop hr hq => ?_, fun s a n d e l h hdir hturn hb hp hr hcap =>
    ⟨fun r rest hq => ?_, fun c hc => ?_⟩⟩
  · intro r v
    have hneed : neededBytes 7 s = 7 := by rw [neededBytes, hq]; rfl
    have hqueue : (enqueue ((frameBytes a n d e l h).take (neededBytes 7 s)) s).rxq = r.toList ++ [] := by
      rw [hneed, enqueue, hq]
      exact List.take_of_length_le (Nat.le_of_succ_le s.cfg.cap_ge)
    obtain ⟨f, hf, he⟩ := replyFrame_read ⟨hdir, hturn, hr⟩ hb hp (.inl hop) hqueue
    obtain rfl := Nat.le_zero.mp hf
    rw [hneed, hop, replyTaken] at he
    obtain ⟨hmismatch, hbad, hgood, -⟩ := replyDecoding s.cfg r s.addr
    refine ⟨fun ha => ?_, fun ha hen hcrc => ?_, fun ha hok => ?_⟩
    · rw [hmismatch (.inl ha)] at he
      exact he
    · rw [hbad ha rfl hen hcrc] at he
      exact he
    · rw [hgood ha rfl hok] at he
      exact he
  · have hread (hop : s.op = 0xA ∨ s.op = 0xB) := replyFrame_read ⟨hdir, hturn, hr⟩ hb hp hop hq
    obtain ⟨x, c, k, es, v, hw⟩ := replyTaken_keeps r rest s
    generalize replyTaken r rest s = p at hw hread ⊢
    obtain ⟨code, w⟩ := p
    subst hw
    refine ⟨fun hop => ?_, fun hop h0 hpass => ?_, fun hop hno hmore => ?_, fun hop hno hlast => ?_⟩
    · obtain ⟨f, -, he⟩ := hread (.inl hop)
      rw [attemptEnd, if_pos hop] at he
      exact replyFrame_rest he hq hcap rfl rfl ⟨hdir, hturn, hr⟩ (.inl rfl)
    all_goals
      obtain ⟨f, -, he⟩ := hread (.inr hop)
      rw [attemptEnd, if_neg (by rw [hop]; decide), afterAttempt] at he
    · rw [if_pos (satisfied_iff.mpr ⟨h0, hpass⟩)] at he
      exact replyFrame_rest he hq hcap rfl rfl ⟨hdir, hturn, hr⟩ (.inl rfl)
    · rw [if_neg (satisfied_iff.not.mpr hno), if_pos hmore] at he
      exact replyFrame_rest he hq hcap rfl rfl ⟨hdir, hturn, hr⟩ (.inr nofun)
    · rw [if_neg (satisfied_iff.not.mpr hno), if_neg (Nat.not_lt.mpr hlast)] at he
      exact replyFrame_rest he hq hcap rfl rfl ⟨hdir, hturn, hr⟩ (.inl rfl)
  · exact replyFrame_probe ⟨hdir, hturn, hr⟩ hb hp hc

end Sys2Proof.Machine

/-! # Exceptions: every step has a next state (`60_exceptions.md` R230, R249)

An instruction, listed or not, answers a next state in every state. The one fault, the sequencer out of place, is a
small step in a phase that does not belong to the latched command, which `InPlace` shuts out phase by phase. -/
namespace Sys2Proof.Machine

/-! ## Offers -/

theorem whenReady_next (s u : State) : ∃ t, whenReady s u = .next t := by
  cases hs : s.busy with
  | true => exact ⟨s, whenReady_busy hs⟩
  | false => exact ⟨u, whenReady_idle hs⟩

theorem exec_next (i : Instr) (s : State) : ∃ t, exec i s = .next t := by
  cases i with
  | ldtx k b =>
    change ∃ t, execLdtx k b s = .next t
    unfold execLdtx
    split <;> exact whenReady_next _ _
  | replyFrame a n d e l h => exact ⟨_, rfl⟩
  | nop | crcInit | crcByte _ | encode _ | verify | send | flushrx | probe _ | discover | read | readRetry
  | reservedC _ _ | reservedD _ _ | reservedE _ _ | reservedF _ _ | requestFrame _ _ _ => exact whenReady_next _ _

theorem unlisted_next (r : Raw) (s : State) : ∃ t, unlisted r s = .next t := by
  cases r with
  | command w | request f => exact whenReady_next _ _
  | reply f => exact ⟨_, rfl⟩

theorem runRaw_next (r : Raw) (s : State) : ∃ t, runRaw r s = .next t := by
  unfold runRaw
  split
  · split
    · exact ⟨_, rfl⟩
    all_goals exact exec_next _ s
  · split
    · exact ⟨_, rfl⟩
    all_goals exact unlisted_next r s

/-! ## Small steps -/

/-- The commands that wait for bytes, by their latched `OP` (`10_state.md` R30). -/
abbrev exchanging (op : BitVec 4) : Prop := op = 0x8 ∨ op = 0x9 ∨ op = 0xA ∨ op = 0xB

theorem InPlace.exchanging {s : State} (h : InPlace s) (hp : s.ph = .rxWait) : exchanging s.op :=
  h.owner.resolve_left (h.waits hp)

theorem InPlace.candidate_eq {s : State} (h : InPlace s) (hop : s.op = 0x9) : ∃ c, Machine.candidate s = some c :=
  ⟨_, List.getElem?_eq_getElem (h.candidate hop)⟩

theorem awaited_exchanging {s : State} (hop : exchanging s.op) : ∃ n, awaited s = some n := by
  rcases hop with h | h | h | h
  · exact ⟨_, awaited_probe (.inl h)⟩
  · exact ⟨_, awaited_probe (.inr h)⟩
  · exact ⟨_, awaited_read (.inl h)⟩
  · exact ⟨_, awaited_read (.inr h)⟩

theorem rxGot_next {s : State} (hop : exchanging s.op) (hc : s.op = 0x9 → ∃ c, candidate s = some c) :
    ∃ t, rxGot s = .next t := by
  rcases hop with h | h | h | h
  · exact ⟨_, rxGot_probe h⟩
  · obtain ⟨c, hc⟩ := hc h
    exact ⟨_, rxGot_discover h hc⟩
  · exact ⟨_, rxGot_read h⟩
  · exact ⟨_, rxGot_readRetry h⟩

theorem rxExpired_next {s : State} (hop : exchanging s.op) : ∃ t, rxExpired s = .next t := by
  rcases hop with h | h | h | h
  · exact ⟨_, rxExpired_probe h⟩
  · exact ⟨_, rxExpired_discover h⟩
  · exact ⟨_, rxExpired_read h⟩
  · exact ⟨_, rxExpired_readRetry h⟩

/-- In `RX_WAIT` the wait ends with `Got`, a character is delivered, the wait expires, or a tick passes. -/
theorem InPlace.rxWait_next {s : State} (h : InPlace s) (hp : s.ph = .rxWait) : ∃ t, phaseStep s = .next t := by
  have hop := h.exchanging hp
  obtain ⟨n, hn⟩ := awaited_exchanging hop
  have hw : Waiting n s := ⟨hp, hn⟩
  by_cases hq : n ≤ s.rxq.length
  · rw [hw.got hq]
    exact rxGot_next hop h.candidate_eq
  by_cases hl : ∀ a ∈ s.arrivals.head?, s.clock < a.time
  · rw [hw.counts hq hl]
    split
    · exact rxExpired_next hop
    · exact ⟨_, rfl⟩
  · push Not at hl
    obtain ⟨a, ha, hdue⟩ := hl
    obtain ⟨as, has⟩ := List.head?_eq_some_iff.mp ha
    exact ⟨_, hw.delivers hq has hdue⟩

/-- A delay that has run out is followed by what its phase leads to. -/
theorem InPlace.delay_next {s : State} (h : InPlace s) (hp : s.ph.counting) : ∃ t, phaseStep s = .next t := by
  by_cases h0 : s.tmr = 0
  · rcases hp with hp | hp | hp | hp
    · exact ⟨enterData s, by simp only [phaseStep, hp, h0, if_true]⟩
    · have hop : sending (release s).op := by simpa [release] using h.owner
      obtain ⟨t, ht, -⟩ := afterRelease_sending hop
      exact ⟨t, by simp only [phaseStep, hp, h0, if_true, ht]⟩
    · obtain ⟨hop, hci⟩ := h.gap hp
      obtain ⟨c, hc⟩ : ∃ c, s.cfg.cand[s.ci.toNat + 1]? = some c := ⟨_, List.getElem?_eq_getElem hci⟩
      exact ⟨beginProbe c { s with ci := s.ci + 1 }, by
        simp only [phaseStep, hp, gapStep, h0, hop, if_true, hc]⟩
    · have hatt := h.backoff hp
      exact ⟨beginRead { s with att := s.att + 1 }, by
        simp only [phaseStep, hp, backoffStep, h0, hatt, if_true, and_self]⟩
  · exact ⟨_, phaseStep_counting hp h0⟩

theorem InPlace.phaseStep_next {s : State} (h : InPlace s) : ∃ t, phaseStep s = .next t := by
  cases hp : s.ph with
  | idle => exact absurd hp h.notIdle
  | txPre => exact h.delay_next (.inl hp)
  | txData => exact ⟨_, phaseStep_txData hp⟩
  | txDrain => exact ⟨_, phaseStep_txDrain hp⟩
  | txPost => exact h.delay_next (.inr (.inl hp))
  | rxWait => exact h.rxWait_next hp
  | gap => exact h.delay_next (.inr (.inr (.inl hp)))
  | backoff => exact h.delay_next (.inr (.inr (.inr hp)))

/-! ## Steps -/

/-- Settles O53: a reset, an offer (`runRaw_next`) and a tick go on in every state, and a small step where the command
in progress is in its place (`InPlace.phaseStep_next`). -/
theorem stepNeverStops : Obligations.StepNeverStops := by
  intro s h
  unfold step
  split
  · exact ⟨_, rfl⟩
  split
  · exact runRaw_next _ _
  split
  · next hb => exact ((h.inPlace hb).of_control (t := quiet s) rfl).phaseStep_next
  · exact ⟨_, rfl⟩

end Sys2Proof.Machine

/-! # Reset (`70_reset_and_hazards.md` R260, R261)

Whatever a step with `rst` high does, it leaves `inReset` with another time, other arrivals or fewer pulses
(`resetNow_inReset`). What a reset does to the block is read off that form; what it does to time and to the bus is the
case of the pulse, held or falling. -/
namespace Sys2Proof.Machine

theorem step_reset {s : State} (h : resetDue s = true) : step s = .next (resetNow s) := if_pos h

theorem resetNow_held {s : State} {r : ResetPulse} {rs : List ResetPulse} (hs : s.resets = r :: rs)
    (h : s.clock < r.stop) : resetNow s = resetTick s := by
  rw [resetNow, hs]
  exact if_pos h

theorem resetNow_falls {s : State} {r : ResetPulse} {rs : List ResetPulse} (hs : s.resets = r :: rs)
    (h : r.stop ≤ s.clock) : resetNow s = { inReset s with resets := rs } := by
  rw [resetNow, hs]
  exact if_neg h.not_gt

/-- A reset leaves `inReset`, at a `clock` that is the `epoch` too; the bus and the pulses go on. -/
theorem resetNow_inReset (s : State) : ∃ c as rs,
    resetNow s = { inReset s with clock := c, epoch := c, arrivals := as, resets := rs } := by
  cases hs : s.resets with
  | nil => exact ⟨_, _, _, by rw [resetNow, hs]; rfl⟩
  | cons r rs =>
    rcases lt_or_ge s.clock r.stop with h | h
    · exact ⟨_, _, _, resetNow_held hs h⟩
    · exact ⟨_, _, _, resetNow_falls hs h⟩

/-- Settles O12: the block, `now`, the outputs and the offers by the form of a reset, time and the bus by its two cases. -/
theorem resetWinsInAnyState : Obligations.ResetWinsInAnyState := by
  refine ⟨rfl, fun s hdue => ⟨resetNow s, step_reset hdue, ?_⟩⟩
  obtain ⟨c, as, rs, hform⟩ := resetNow_inReset s
  refine ⟨by rw [hform]; rfl, by rw [hform]; exact Nat.sub_self c, by rw [hform]; rfl, by rw [hform]; rfl,
    by rw [hform]; rfl, fun r rs hs => ⟨fun hfall => ?_, fun hheld => ?_⟩⟩
  · rw [resetNow_falls hs hfall]
    exact ⟨rfl, rfl, rfl⟩
  · rw [resetNow_held hs hheld]
    exact ⟨rfl, rfl, rfl⟩

end Sys2Proof.Machine
